-- ==== Sys2Proof/Word.lean ====
section
/-! DEFINITION. The plain words of the WebSocket frame parser: bytes, the 64-bit counters, the
four-byte masking key and the eight-byte scratch buffer (00_scope.md R5, R6). -/

namespace Sys2Proof

/-- A byte of the input span or of a payload chunk: 8 bits (00_scope.md R5). -/
abbrev Byte := BitVec 8

/-- The width of `payload_length`, `payload_remaining` and `masking_position` (00_scope.md R5). -/
abbrev Word64 := BitVec 64

/-- `masking_key[0..3]`: a byte string, not an integer (20_memory.md R64). -/
abbrev Key := Vector Byte 4

/-- `scratch[0..7]`: eight bytes (00_scope.md R6, 10_state.md R33). -/
abbrev Scratch := Vector Byte 8

/-- The key 00 00 00 00 that an unmasked frame reports (40_header_states.md R136). -/
abbrev Key.zero : Key := #v[0, 0, 0, 0]

/-- The scratch buffer after an accumulator reset (10_state.md R33). -/
abbrev Scratch.zero : Scratch := #v[0, 0, 0, 0, 0, 0, 0, 0]

end Sys2Proof
end

