-- ==== Sys2Proof/Config.lean ====
section
/-! DEFINITION. What an implementation fixes and the one free value: the open parameters of
00_scope.md section 4, and what a callback answers. -/

namespace Sys2Proof

/-- `CB_W`, the width of a callback's status: open, default 32 (00_scope.md R7, decision D19).
DESIGN CHOICE, log 1. -/
abbrev Config.cbWidth : Nat := 32

/-- What a callback returns: 0 is success, every other value a failure (00_scope.md R7). -/
abbrev CbStatus := BitVec Config.cbWidth

/-- The opaque user-context type (00_scope.md R7, decision D20): the block never inspects it.
DESIGN CHOICE, log 2: a natural number stands for the host's token. -/
abbrev Ctx := Nat

/-- The context of the RESET that `State.reset` is the state after. DESIGN CHOICE, log 2: the spec
gives none ("`RESET` takes it as an argument", 10_state.md R41). -/
def Config.resetCtx : Ctx := 0

/-- FREE VALUE, log 5: what the host's callback answers to an event for which the state lists no
answer. The block assumes nothing about it (42_process.md R208). -/
opaque Config.callbackAnswer : Nat → CbStatus

/-- A call runs at most 6 handlers (42_process.md R212); one more covers a start in `S_DONE`, which
no run reaches (log 11). -/
def Config.maxHandlers : Nat := 7

end Sys2Proof
end

