-- ==== Sys2Proof/Syntax.lean ====
section
/-! DEFINITION. The instructions: one constructor per row of spec/opcode_table.json. The block's
instructions are the frames of the input stream, the forms of byte 1, the sub-state handlers and
the two host operations (INDEX.md, 30_encoding.md R98). -/

namespace Sys2Proof

/-- The three reserved bits `rsv[0]`, `rsv[1]`, `rsv[2]` (10_state.md R28). -/
structure Rsv where
  rsv0 : Bool
  rsv1 : Bool
  rsv2 : Bool
  deriving DecidableEq, Repr

/-- The length field of a header: the length code of byte 1 and the extended length after it
(30_encoding.md R92, R93, R94). `len7 code` is well formed for codes 0 to 125 only. -/
inductive LenField where
  | len7 (code : BitVec 7)
  | len16 (v : BitVec 16)
  | len64 (v : Word64)
  deriving DecidableEq, Repr

/-- The operands of a frame: everything but its opcode (30_encoding.md R90 to R96). `payload` is the
unmasked payload (30_encoding.md R107); on the wire it is masked when `masked` is set. -/
structure Frame where
  fin     : Bool
  rsv     : Rsv
  masked  : Bool
  len     : LenField
  key     : Key
  payload : List Byte
  deriving DecidableEq, Repr

/-- The instructions, in the order of spec/opcode_table.json. -/
inductive Instr where
  | continuation (f : Frame)
  | text (f : Frame)
  | binary (f : Frame)
  | data3 (f : Frame)
  | data4 (f : Frame)
  | data5 (f : Frame)
  | data6 (f : Frame)
  | data7 (f : Frame)
  | close (f : Frame)
  | ping (f : Frame)
  | pong (f : Frame)
  | ctrlb (f : Frame)
  | ctrlc (f : Frame)
  | ctrld (f : Frame)
  | ctrle (f : Frame)
  | ctrlf (f : Frame)
  | len16 (masked : Bool) (v : BitVec 16)
  | len64 (masked : Bool) (v : Word64)
  | len7 (masked : Bool) (code : BitVec 7)
  | unmasked (len : LenField)
  | masked (len : LenField) (key : Key)
  | sOpcodeByte
  | sLengthByte
  | sExtendedLength
  | sMaskingKeyCheck
  | sMaskingKey
  | sPayloadCheck
  | sPayload
  | sDone
  | process (span : List Byte) (cbs : CbStatus)
  | reset (ctx : Ctx)
  deriving DecidableEq, Repr

end Sys2Proof
end

