-- ==== Sys2Proof/Decode.lean ====
section
/-! DEFINITION. The decoder, total on any bytes, rejecting by name, and after it the encoder, both
from the layouts of 30_encoding.md. Also the bit-field, byte-order and unmasking helpers that the
machine's handlers use. -/

namespace Sys2Proof

/-! ### Fields of the two fixed header bytes (30_encoding.md R91, R92) -/

/-- `fin` is bit 7 of byte 0 (R91). -/
def byte0Fin (b : Byte) : Bool := b.getLsbD 7

/-- `rsv[0]`, `rsv[1]`, `rsv[2]` are bits 6, 5, 4 of byte 0 in that order (R91, decision D10). -/
def byte0Rsv (b : Byte) : Rsv := ⟨b.getLsbD 6, b.getLsbD 5, b.getLsbD 4⟩

/-- The opcode is bits 3 to 0 of byte 0 (R91, R98). -/
def byte0Opcode (b : Byte) : BitVec 4 := b.extractLsb' 0 4

/-- `masked` is bit 7 of byte 1 (R92). -/
def byte1Masked (b : Byte) : Bool := b.getLsbD 7

/-- `len_code` is bits 6 to 0 of byte 1 (R92). -/
def byte1Code (b : Byte) : BitVec 7 := b.extractLsb' 0 7

/-! ### Byte order and the XOR datapath -/

/-- `BE(y0, y1, …)`: the first byte received is the most significant (00_scope.md R10,
20_memory.md R62). -/
def bigEndian (bs : List Byte) : Nat :=
  bs.foldl (fun acc b => acc * 256 + b.toNat) 0

/-- `Unmask(w, key, p) = w XOR key[p mod 4]` (41_payload_states.md R173). -/
def unmask (w : Byte) (key : Key) (p : Word64) : Byte :=
  w ^^^ key[p.toNat % 4]'(Nat.mod_lt _ (by decide))

/-- The datapath over a run of bytes, the position advancing by one per byte modulo 2^64
(41_payload_states.md R172, R173). -/
def unmaskBytes (key : Key) : Word64 → List Byte → List Byte
  | _, [] => []
  | p, w :: ws => unmask w key p :: unmaskBytes key (p + 1) ws

/-! ### The value of a length field -/

/-- The length a length field gives: zero-extended to 64 bits, unscaled (30_encoding.md R105). -/
def LenField.value : LenField → Word64
  | .len7 code => code.setWidth 64
  | .len16 v => v.setWidth 64
  | .len64 v => v

/-- Bit 63 of a 64-bit extended length is set: the one policed reserved bit (30_encoding.md R102). -/
def LenField.reserved : LenField → Bool
  | .len7 _ => false
  | .len16 _ => false
  | .len64 v => v.getLsbD 63

/-- How many payload bytes belong to the frame: `payload_length`, and none after a reserved length,
at which the parser stops (30_encoding.md R94). -/
def LenField.payloadCount (len : LenField) : Nat :=
  if len.reserved then 0 else len.value.toNat

/-! ### Opcode map (30_encoding.md R98) -/

/-- The frame instruction of a 4-bit opcode. -/
def Instr.ofOpcode (op : BitVec 4) (f : Frame) : Instr :=
  if op = 0x0 then .continuation f
  else if op = 0x1 then .text f
  else if op = 0x2 then .binary f
  else if op = 0x3 then .data3 f
  else if op = 0x4 then .data4 f
  else if op = 0x5 then .data5 f
  else if op = 0x6 then .data6 f
  else if op = 0x7 then .data7 f
  else if op = 0x8 then .close f
  else if op = 0x9 then .ping f
  else if op = 0xA then .pong f
  else if op = 0xB then .ctrlb f
  else if op = 0xC then .ctrlc f
  else if op = 0xD then .ctrld f
  else if op = 0xE then .ctrle f
  else .ctrlf f

/-! ### Decoding -/

/-- How a word is read. The word does not say: bytes of the stream are read as the `state` register
has it (10_state.md R34), and BYTE1 has two orthogonal readings (rows LEN and rows MASK). -/
inductive Format where
  | byte0        -- a frame, from its byte 0
  | byte1Length  -- byte 1 with its extended length: rows LEN7, LEN16, LEN64
  | byte1Mask    -- byte 1 with its extended length and key: rows UNMASKED, MASKED
  | stateReg     -- a value of the `state` register: rows S_*
  | hostOp       -- PROCESS and RESET: no bit encoding exists (decision D2)
  deriving DecidableEq, Repr

/-- Why the decoder gives no instruction. -/
inductive DecodeReject where
  | incompleteHeader  -- the bytes end inside the header
  | incompletePayload -- the bytes end inside the payload
  | noSuchState       -- a value of `state` that is never produced: 0 and 9 to 15 (10_state.md R22)
  | noEncoding        -- the format has no bit encoding (decision D2)
  deriving DecidableEq, Repr

/-- What decoding gives: an instruction and the bytes after it, or a named rejection. -/
inductive DecodeResult where
  | ok (i : Instr) (rest : List Byte)
  | rejected (why : DecodeReject)
  deriving DecidableEq, Repr

/-- Byte 1 and the extended length it announces (R92, R93, R94): the mask bit, the length field and
the bytes after them. -/
def decodeLength : List Byte → Option (Bool × LenField × List Byte)
  | [] => none
  | b :: bs =>
    if byte1Code b = 126 then
      match bs with
      | y0 :: y1 :: rest =>
        some (byte1Masked b, .len16 (BitVec.ofNat 16 (bigEndian [y0, y1])), rest)
      | _ => none
    else if byte1Code b = 127 then
      match bs with
      | y0 :: y1 :: y2 :: y3 :: y4 :: y5 :: y6 :: y7 :: rest =>
        some (byte1Masked b,
          .len64 (BitVec.ofNat 64 (bigEndian [y0, y1, y2, y3, y4, y5, y6, y7])), rest)
      | _ => none
    else some (byte1Masked b, .len7 (byte1Code b), bs)

/-- The four key bytes (R95). -/
def decodeKey : List Byte → Option (Key × List Byte)
  | k0 :: k1 :: k2 :: k3 :: rest => some (#v[k0, k1, k2, k3], rest)
  | _ => none

/-- Byte 1 to the end of the header. No key follows when `masked = 0`, nor after a 64-bit length
with bit 63 set: there the parser stops at the length field with `E_RSVLEN` (R94). -/
def decodeTail (bs : List Byte) : Option (Bool × LenField × Key × List Byte) :=
  match decodeLength bs with
  | none => none
  | some (m, len, rest) =>
    if m && !len.reserved then
      match decodeKey rest with
      | none => none
      | some (key, rest') => some (m, len, key, rest')
    else some (m, len, Key.zero, rest)

/-- A frame: byte 0, the rest of the header, `payload_length` bytes of payload (R90, R96). -/
def decodeFrame : List Byte → DecodeResult
  | [] => .rejected .incompleteHeader
  | b0 :: bs =>
    match decodeTail bs with
    | none => .rejected .incompleteHeader
    | some (m, len, key, rest) =>
      if rest.length < len.payloadCount then .rejected .incompletePayload
      else
        let wire := rest.take len.payloadCount
        .ok (.ofOpcode (byte0Opcode b0)
              { fin := byte0Fin b0, rsv := byte0Rsv b0, masked := m, len := len, key := key,
                payload := if m then unmaskBytes key 0 wire else wire })
          (rest.drop len.payloadCount)

/-- Byte 1 read as one of the LEN rows. -/
def decodeByte1Length (bs : List Byte) : DecodeResult :=
  match decodeLength bs with
  | none => .rejected .incompleteHeader
  | some (m, .len7 code, rest) => .ok (.len7 m code) rest
  | some (m, .len16 v, rest) => .ok (.len16 m v) rest
  | some (m, .len64 v, rest) => .ok (.len64 m v) rest

/-- Byte 1 read as one of the mask rows. -/
def decodeByte1Mask (bs : List Byte) : DecodeResult :=
  match decodeTail bs with
  | none => .rejected .incompleteHeader
  | some (false, len, _, rest) => .ok (.unmasked len) rest
  | some (true, len, key, rest) => .ok (.masked len key) rest

/-- A value of the `state` register: the ordinals 1 to 8 (10_state.md R22, decision D3). -/
def decodeState : List Byte → DecodeResult
  | [] => .rejected .incompleteHeader
  | b :: rest =>
    if b = 1 then .ok .sOpcodeByte rest
    else if b = 2 then .ok .sLengthByte rest
    else if b = 3 then .ok .sExtendedLength rest
    else if b = 4 then .ok .sMaskingKeyCheck rest
    else if b = 5 then .ok .sMaskingKey rest
    else if b = 6 then .ok .sPayloadCheck rest
    else if b = 7 then .ok .sPayload rest
    else if b = 8 then .ok .sDone rest
    else .rejected .noSuchState

/-- The decoder: total on any bytes, in each of the table's formats. -/
def decode : Format → List Byte → DecodeResult
  | .byte0, bs => decodeFrame bs
  | .byte1Length, bs => decodeByte1Length bs
  | .byte1Mask, bs => decodeByte1Mask bs
  | .stateReg, bs => decodeState bs
  | .hostOp, _ => .rejected .noEncoding

/-! ### Encoding -/

/-- Byte 0 from its fields (R91). -/
def encodeByte0 (fin : Bool) (rsv : Rsv) (op : BitVec 4) : Byte :=
  BitVec.ofBool fin ++ BitVec.ofBool rsv.rsv0 ++ BitVec.ofBool rsv.rsv1 ++
    BitVec.ofBool rsv.rsv2 ++ op

/-- Byte 1 from its fields (R92). -/
def encodeByte1 (m : Bool) (code : BitVec 7) : Byte := BitVec.ofBool m ++ code

/-- The length code of byte 1 for a length field (R93, R94, R105). -/
def LenField.code : LenField → BitVec 7
  | .len7 code => code
  | .len16 _ => 126
  | .len64 _ => 127

/-- The extended length bytes, most significant first (R62, R93, R94). -/
def LenField.extBytes : LenField → List Byte
  | .len7 _ => []
  | .len16 v => [v.extractLsb' 8 8, v.extractLsb' 0 8]
  | .len64 v =>
    [v.extractLsb' 56 8, v.extractLsb' 48 8, v.extractLsb' 40 8, v.extractLsb' 32 8,
     v.extractLsb' 24 8, v.extractLsb' 16 8, v.extractLsb' 8 8, v.extractLsb' 0 8]

/-- Byte 1 and the extended length. -/
def encodeLength (m : Bool) (len : LenField) : List Byte :=
  encodeByte1 m len.code :: len.extBytes

/-- Byte 1 to the end of the header. -/
def encodeTail (m : Bool) (len : LenField) (key : Key) : List Byte :=
  encodeLength m len ++ if m && !len.reserved then key.toList else []

/-- The bytes of a frame: header, then the payload, masked when `masked` is set (R90, R96). -/
def encodeFrame (op : BitVec 4) (f : Frame) : List Byte :=
  encodeByte0 f.fin f.rsv op :: encodeTail f.masked f.len f.key ++
    if f.masked then unmaskBytes f.key 0 f.payload else f.payload

/-- The format of the table in which an instruction is encoded. -/
def Instr.format : Instr → Format
  | .continuation _ => .byte0
  | .text _ => .byte0
  | .binary _ => .byte0
  | .data3 _ => .byte0
  | .data4 _ => .byte0
  | .data5 _ => .byte0
  | .data6 _ => .byte0
  | .data7 _ => .byte0
  | .close _ => .byte0
  | .ping _ => .byte0
  | .pong _ => .byte0
  | .ctrlb _ => .byte0
  | .ctrlc _ => .byte0
  | .ctrld _ => .byte0
  | .ctrle _ => .byte0
  | .ctrlf _ => .byte0
  | .len16 _ _ => .byte1Length
  | .len64 _ _ => .byte1Length
  | .len7 _ _ => .byte1Length
  | .unmasked _ => .byte1Mask
  | .masked _ _ => .byte1Mask
  | .sOpcodeByte => .stateReg
  | .sLengthByte => .stateReg
  | .sExtendedLength => .stateReg
  | .sMaskingKeyCheck => .stateReg
  | .sMaskingKey => .stateReg
  | .sPayloadCheck => .stateReg
  | .sPayload => .stateReg
  | .sDone => .stateReg
  | .process _ _ => .hostOp
  | .reset _ => .hostOp

/-- The bytes of an instruction in its format. A value of `state` takes one byte, its upper four bits
0. PROCESS and RESET have no bit encoding (decision D2): no bytes. -/
def encode : Instr → List Byte
  | .continuation f => encodeFrame 0x0 f
  | .text f => encodeFrame 0x1 f
  | .binary f => encodeFrame 0x2 f
  | .data3 f => encodeFrame 0x3 f
  | .data4 f => encodeFrame 0x4 f
  | .data5 f => encodeFrame 0x5 f
  | .data6 f => encodeFrame 0x6 f
  | .data7 f => encodeFrame 0x7 f
  | .close f => encodeFrame 0x8 f
  | .ping f => encodeFrame 0x9 f
  | .pong f => encodeFrame 0xA f
  | .ctrlb f => encodeFrame 0xB f
  | .ctrlc f => encodeFrame 0xC f
  | .ctrld f => encodeFrame 0xD f
  | .ctrle f => encodeFrame 0xE f
  | .ctrlf f => encodeFrame 0xF f
  | .len16 m v => encodeLength m (.len16 v)
  | .len64 m v => encodeLength m (.len64 v)
  | .len7 m code => encodeLength m (.len7 code)
  | .unmasked len => encodeTail false len Key.zero
  | .masked len key => encodeTail true len key
  | .sOpcodeByte => [1]
  | .sLengthByte => [2]
  | .sExtendedLength => [3]
  | .sMaskingKeyCheck => [4]
  | .sMaskingKey => [5]
  | .sPayloadCheck => [6]
  | .sPayload => [7]
  | .sDone => [8]
  | .process _ _ => []
  | .reset _ => []

/-! ### The table's words -/

/-- `n` bytes of a table word: its bits 7 to 0 are the first byte, 15 to 8 the second, and so on. -/
def tableBytes : Nat → Nat → List Byte
  | 0, _ => []
  | n + 1, w => BitVec.ofNat 8 w :: tableBytes n (w / 256)

/-- The format in which a table word of `nbits` bits is read: the 4-bit words are values of `state`;
a longer word begins with byte 0 of a frame, which is what the stream holds after reset
(70_reset_and_hazards.md R310). DESIGN CHOICE, log 7. -/
def tableFormat (nbits : Nat) : Format := if nbits < 8 then .stateReg else .byte0

/-- A table word as the stream holds it, followed by zeros for the header bytes and for up to 125
payload bytes (the longest payload a word's second byte can announce by itself). -/
def tableStream (nbits w : Nat) : List Byte :=
  tableBytes ((nbits + 7) / 8) w ++ List.replicate 139 0

/-- The bytes of the instruction a table word begins: what the decoder takes from `tableStream`. -/
def tableInstrBytes (nbits w : Nat) : List Byte :=
  match decode (tableFormat nbits) (tableStream nbits w) with
  | .ok _ rest => (tableStream nbits w).take ((tableStream nbits w).length - rest.length)
  | .rejected _ => tableStream nbits w

/-- The instruction the decoder reads from a table word. -/
def decodeTableWord (nbits w : Nat) : Option Instr :=
  match decode (tableFormat nbits) (tableStream nbits w) with
  | .ok i _ => some i
  | .rejected _ => none

end Sys2Proof
end

