-- ==== Sys2Proof/Machine/State.lean ====
section
/-! DEFINITION. The state of the machine as plain data: the decoder instance with every register of
10_state.md, the `PROCESS` call in progress, and the four channels to the host (42_process.md R200).
There is no addressable memory (20_memory.md R60), so no memory field. -/

namespace Sys2Proof.Machine

/-! ### Registers of the decoder instance (10_state.md R20) -/

/-- `state`, the position in the decode state machine and the block's program counter
(10_state.md R22, R34). -/
inductive SubState where
  | opcodeByte      -- S_OPCODE_BYTE = 1
  | lengthByte      -- S_LENGTH_BYTE = 2
  | extendedLength  -- S_EXTENDED_LENGTH = 3
  | maskingKeyCheck -- S_MASKING_KEY_CHECK = 4
  | maskingKey      -- S_MASKING_KEY = 5
  | payloadCheck    -- S_PAYLOAD_CHECK = 6
  | payload         -- S_PAYLOAD = 7
  | done            -- S_DONE = 8
  deriving DecidableEq, Repr

/-- `ext_width`: the required width recorded by `S_LENGTH_BYTE`; 0 while none is (10_state.md R24). -/
inductive ExtWidth where
  | none
  | two
  | eight
  deriving DecidableEq, Repr

/-- `mode` (10_state.md R21). -/
inductive Mode where
  | decoding
  | failed
  deriving DecidableEq, Repr

/-- The Frame Header: `cur` while it is assembled, and the value a HEADER event carries
(10_state.md R26 to R32). -/
structure Header where
  fin           : Bool
  rsv           : Rsv
  masked        : Bool
  opcode        : BitVec 8
  payloadLength : Word64
  maskingKey    : Key
  deriving DecidableEq, Repr

/-- The registers of an instance whose `mode` is Decoding (10_state.md R20). -/
structure Regs where
  state                : SubState
  continuationExpected : Bool
  cur                  : Header
  scratch              : Scratch
  scratchCount         : BitVec 4
  extWidth             : ExtWidth
  payloadRemaining     : Word64
  maskingPosition      : Word64
  userCtx              : Ctx
  deriving DecidableEq, Repr

/-- The instance: the sum type over Decoding and Failed of 10_state.md R21. No register of a Failed
instance has a meaning, so it has none (93_implementation_defined.md U7). Log 4. -/
inductive Decoder where
  | decoding (r : Regs)
  | failed
  deriving DecidableEq, Repr

/-- The register `mode`. -/
def Decoder.mode : Decoder → Mode
  | .decoding _ => .decoding
  | .failed => .failed

/-! ### Outputs of a call (42_process.md R200, 30_encoding.md R108) -/

/-- The three causes of a fragmentation-protocol violation (60_exceptions.md R271). -/
inductive FragCause where
  | unexpectedContinuation
  | continuationExpected
  | fragmentedControl
  deriving DecidableEq, Repr

/-- The closed error taxonomy with the information each error records (60_exceptions.md R270). -/
inductive DecodeError where
  | eFrag (cause : FragCause)
  | eRsvlen (value : Word64)
  | eCallback (status : CbStatus)
  deriving DecidableEq, Repr

/-- The event of a call: what the EVT channel carries to the host's callback, with the user context
passed through (42_process.md R206, R207). -/
inductive Event where
  | none
  | header (h : Header) (ctx : Ctx)
  | payload (bytes : List Byte) (ctx : Ctx)
  deriving DecidableEq, Repr

/-- The status of a call (42_process.md R200). -/
inductive Status where
  | ok
  | err (e : DecodeError)
  deriving DecidableEq, Repr

/-- The result tuple of a `PROCESS` call (42_process.md R200). -/
structure CallResult where
  consumed      : Nat
  event         : Event
  frameComplete : Bool
  status        : Status
  deriving DecidableEq, Repr

/-! ### The call in progress (00_scope.md R11, 42_process.md R200) -/

/-- What exists only while a `PROCESS` runs: the span, how much of it is consumed, the event fired,
`frame_complete`, and the answer the host gives to the event of this call. -/
structure Call where
  span          : List Byte
  consumed      : Nat
  event         : Event
  frameComplete : Bool
  cbs           : CbStatus
  deriving DecidableEq, Repr

/-- What the host puts on the CMD channel (42_process.md R200). -/
inductive Command where
  | process (span : List Byte)
  | reset (ctx : Ctx)
  deriving DecidableEq, Repr

/-! ### The machine -/

/-- The machine: the instance, the call in progress, and the channels. -/
structure State where
  /-- the decoder instance: `mode` and all registers -/
  decoder     : Decoder
  /-- the `PROCESS` call in progress; none between calls -/
  call        : Option Call
  /-- CMD: what the host will issue, oldest first -/
  commands    : List Command
  /-- CBSTAT: what the host will answer to the coming events, oldest first -/
  answers     : List CbStatus
  /-- index of the free value that answers an event when `answers` is empty; the model's own (log 5) -/
  answerClock : Nat
  /-- EVT and RESULT: the results of the calls so far, oldest first -/
  results     : List CallResult
  deriving DecidableEq, Repr

/-- Why the machine stops with a fault. No state that a run from reset reaches raises either. -/
inductive Fault where
  /-- raised by `S_EXTENDED_LENGTH` and `S_MASKING_KEY` when `scratch_count` exceeds the width of the
  field, outside what `Accumulate` requires (40_header_states.md R134); safe: the machine stops -/
  | accumulatorOverrun
  /-- raised by the dispatcher after `Config.maxHandlers` handlers and by FEED after one call more
  than the span has bytes (42_process.md R212, R213 bound both loops); safe: the machine stops -/
  | loopLimit
  deriving DecidableEq, Repr

/-- Why the machine has no step. -/
inductive Refusal where
  /-- raised by `exec` for an instruction that has no meaning yet; safe -/
  | notModelled (mnemonic : String)
  /-- raised by PROCESS and the handlers on a Failed instance: "any further call's behavior is
  unspecified" (42_process.md R210, 60_exceptions.md R281, U1); safe -/
  | processAfterFailure
  /-- raised by PROCESS and RESET while a call is in progress: overlapping and re-entrant calls have
  no defined behaviour (70_reset_and_hazards.md R314, R315, U2, U3); safe -/
  | overlappingCall
  /-- raised by a handler with no call in progress: it "runs inside a PROCESS call"
  (40_header_states.md R130); safe -/
  | handlerOutsideCall
  deriving DecidableEq, Repr

/-! ### Reset (10_state.md R44) -/

/-- The frame header registers after RESET: all zero (R44, decision D9). -/
def Header.reset : Header :=
  { fin := false, rsv := ⟨false, false, false⟩, masked := false, opcode := 0x00,
    payloadLength := 0, maskingKey := Key.zero }

/-- Every register after `RESET(ctx)` (R44). -/
def Regs.reset (ctx : Ctx) : Regs :=
  { state := .opcodeByte, continuationExpected := false, cur := Header.reset,
    scratch := Scratch.zero, scratchCount := 0, extWidth := .none, payloadRemaining := 0,
    maskingPosition := 0, userCtx := ctx }

/-- The machine right after `RESET(Config.resetCtx)`: nothing presented, nothing answered, nothing
reported. -/
def State.reset : State :=
  { decoder := .decoding (Regs.reset Config.resetCtx), call := none, commands := [],
    answers := [], answerClock := 0, results := [] }

/-! ### Updates, by name -/

/-- The register `mode` of the machine. -/
def State.mode (s : State) : Mode := s.decoder.mode

/-- The machine with another instance. -/
def State.setDecoder (d : Decoder) (s : State) : State := { s with decoder := d }

/-- The machine with another call in progress. -/
def State.setCall (c : Option Call) (s : State) : State := { s with call := c }

/-- The machine with other commands pending. -/
def State.setCommands (cs : List Command) (s : State) : State := { s with commands := cs }

/-- The machine with one more result reported. -/
def State.pushResult (r : CallResult) (s : State) : State :=
  { s with results := s.results ++ [r] }

/-- The machine with another list of answers and another index of the free answers. -/
def State.setAnswers (as : List CbStatus) (n : Nat) (s : State) : State :=
  { s with answers := as, answerClock := n }

end Sys2Proof.Machine
end

