-- ==== Sys2Proof/Machine/Operands.lean ====
section
/-! DEFINITION. Where a handler's operands come from: the unconsumed bytes of the span, the scratch
accumulator, and the masked payload bytes (00_scope.md R11, 40_header_states.md R134,
41_payload_states.md R172). -/

namespace Sys2Proof.Machine

/-! ### The input span -/

/-- The bytes of the span not yet consumed. -/
def Call.unread (c : Call) : List Byte := c.span.drop c.consumed

/-- `avail = |span| - consumed` (00_scope.md R11). -/
def Call.avail (c : Call) : Nat := c.span.length - c.consumed

/-- `consumed <- consumed + n`, the one side effect of a read (20_memory.md R67). -/
def Call.consume (n : Nat) (c : Call) : Call := { c with consumed := c.consumed + n }

/-- `Take1()`: the next byte; none when `avail = 0` (00_scope.md R11). -/
def take1 (c : Call) : Option (Byte × Call) :=
  match c.unread with
  | [] => none
  | b :: _ => some (b, c.consume 1)

/-- `TakeN(n)`: the next `n` bytes, for `n` at most `avail` (00_scope.md R11). -/
def takeN (n : Nat) (c : Call) : List Byte × Call := (c.unread.take n, c.consume n)

/-! ### The scratch accumulator -/

/-- The width in bytes that `ext_width` records (10_state.md R24). -/
def ExtWidth.bytes : ExtWidth → Nat
  | .none => 0
  | .two => 2
  | .eight => 8

/-- `AccReset()`: the count and all eight bytes to 0 (10_state.md R33, decision D6). -/
def accReset (r : Regs) : Regs := { r with scratchCount := 0, scratch := Scratch.zero }

/-- `scratch[i], scratch[i+1], … <- bytes`, in arrival order (10_state.md R33). -/
def writeScratch (sc : Scratch) : Nat → List Byte → Scratch
  | _, [] => sc
  | i, b :: bs => writeScratch (sc.setIfInBounds i b) (i + 1) bs

/-- What `Accumulate` ends in. -/
inductive AccOut where
  | overrun                          -- `scratch_count > width`: outside its requirement
  | partly (r : Regs) (c : Call)     -- the field is not complete
  | complete (r : Regs) (c : Call)   -- the field is complete
  deriving DecidableEq, Repr

/-- The registers after `bs` has been written behind the bytes already accumulated. -/
def storeScratch (bs : List Byte) (r : Regs) : Regs :=
  { r with
      scratch := writeScratch r.scratch r.scratchCount.toNat bs
      scratchCount := BitVec.ofNat 4 (r.scratchCount.toNat + bs.length) }

/-- `Accumulate(width)` (40_header_states.md R134): takes `min(avail, width - scratch_count)` bytes. -/
def accumulate (width : Nat) (r : Regs) (c : Call) : AccOut :=
  if width < r.scratchCount.toNat then .overrun
  else
    let taken := takeN (min c.avail (width - r.scratchCount.toNat)) c
    let r' := storeScratch taken.1 r
    if r'.scratchCount.toNat = width then .complete r' taken.2 else .partly r' taken.2

/-- `BE(scratch[0], …, scratch[width-1])`, zero-extended to 64 bits (40_header_states.md R135). -/
def scratchValue (width : Nat) (r : Regs) : Word64 :=
  BitVec.ofNat 64 (bigEndian (r.scratch.toList.take width))

/-- `masking_key[i] <- scratch[i]` for `i` in 0 to 3 (40_header_states.md R137). -/
def scratchKey (r : Regs) : Key := #v[r.scratch[0], r.scratch[1], r.scratch[2], r.scratch[3]]

/-! ### Payload bytes -/

/-- The bytes delivered for the wire bytes `ws`: unmasked from `masking_position` on, or as they are
(41_payload_states.md R172, R173). -/
def deliver (r : Regs) (ws : List Byte) : List Byte :=
  if r.cur.masked then unmaskBytes r.cur.maskingKey r.maskingPosition ws else ws

/-- `masking_position` after `n` payload bytes: advanced only in a masked frame, modulo 2^64
(10_state.md R40, decision D17). -/
def advancePosition (r : Regs) (n : Nat) : Word64 :=
  if r.cur.masked then r.maskingPosition + BitVec.ofNat 64 n else r.maskingPosition

end Sys2Proof.Machine
end

