-- ==== Sys2Proof/Machine/Flags.lean ====
section
/-! DEFINITION. The flags: the validation of byte 0 that reads them, the fragmentation update that
writes `continuation_expected`, and the numbers the spec gives its symbols (40_header_states.md R132,
41_payload_states.md R171, 30_encoding.md R108). -/

namespace Sys2Proof.Machine

/-- `is_control(op)`: bit 3 of the opcode (30_encoding.md R99). -/
def isControl (opcode : BitVec 8) : Bool := opcode.getLsbD 3

/-- `FragCheck(fin, opcode, continuation_expected)`: none is `ok` (40_header_states.md R132). -/
def fragCheck (fin : Bool) (opcode : BitVec 8) (ce : Bool) : Option FragCause :=
  if isControl opcode then
    if !fin then some .fragmentedControl else none
  else if ce && opcode != 0x0 then some .continuationExpected
  else if !ce && opcode == 0x0 then some .unexpectedContinuation
  else none

/-- `FragUpdate()`: a completing data frame sets `continuation_expected` to `not fin`, a control frame
leaves it (41_payload_states.md R171). -/
def fragUpdate (r : Regs) : Regs :=
  if isControl r.cur.opcode then r else { r with continuationExpected := !r.cur.fin }

/-! ### Numbers of the symbols (printing conventions) -/

/-- `mode` in 1 bit (10_state.md R21). -/
def Mode.code : Mode → BitVec 1
  | .decoding => 0
  | .failed => 1

/-- `state` in 4 bits (10_state.md R22). -/
def SubState.code : SubState → BitVec 4
  | .opcodeByte => 1
  | .lengthByte => 2
  | .extendedLength => 3
  | .maskingKeyCheck => 4
  | .maskingKey => 5
  | .payloadCheck => 6
  | .payload => 7
  | .done => 8

/-- `ext_width` in 4 bits (10_state.md R24). -/
def ExtWidth.code : ExtWidth → BitVec 4
  | .none => 0
  | .two => 2
  | .eight => 8

/-- The kind of an event (30_encoding.md R108). -/
def Event.kind : Event → Nat
  | .none => 0
  | .header _ _ => 1
  | .payload _ _ => 2

/-- The sub-cause of `E_FRAG` (60_exceptions.md R271). -/
def FragCause.number : FragCause → Nat
  | .unexpectedContinuation => 1
  | .continuationExpected => 2
  | .fragmentedControl => 3

/-- The number of an error (60_exceptions.md R274). -/
def DecodeError.number : DecodeError → Nat
  | .eFrag _ => 1
  | .eRsvlen _ => 2
  | .eCallback _ => 3

/-- The number of a status (30_encoding.md R108). -/
def Status.number : Status → Nat
  | .ok => 0
  | .err e => e.number

end Sys2Proof.Machine
end

