-- ==== Sys2Proof/Machine/Ops.lean ====
section
/-! DEFINITION. The operations the handlers and the host operations share: firing an event, completing
a frame, taking a failure, RESET, running one handler inside a call. -/

namespace Sys2Proof.Machine

/-! ### How a handler ends (40_header_states.md R130) -/

/-- A handler's end: the four ways of R130, and a stop where its pseudocode is not defined. -/
inductive HandlerOut where
  | advance (r : Regs) (c : Call)            -- `return Advance`
  | starved (r : Regs) (c : Call)            -- `return Starved`
  | fired (r : Regs) (c : Call)              -- `return Fired(ev)`, with `ev` the call's event
  | raised (e : DecodeError) (c : Call)      -- `raise E(info)`
  | stuck (f : Fault)
  deriving DecidableEq, Repr

/-! ### Events and completion -/

/-- `Fire(ev)`: the event goes to the host's callback, at most once per call; the answer is the
call's `cbs` (42_process.md R206, R207, R208). -/
def fire (ev : Event) (c : Call) : Call := { c with event := ev }

/-- The implicit reset of the terminal state to the first (41_payload_states.md R175). -/
def doneReset (r : Regs) : Regs := { r with state := .opcodeByte }

/-- The registers after `Complete()`: the fragmentation update, `S_DONE`, and its implicit reset in the
same step (41_payload_states.md R175, decision D28). -/
def completeRegs (r : Regs) : Regs := doneReset { fragUpdate r with state := .done }

/-- The call after `Complete()`: `frame_complete <- true` (41_payload_states.md R175). -/
def completeCall (c : Call) : Call := { c with frameComplete := true }

/-! ### Taking a failure, and RESET beside it -/

/-- `raise E(info)` (60_exceptions.md R278): `mode <- Failed`, the handler and the dispatcher stop, and
the call returns `(consumed, event, false, Err(E, info))`. Nothing is saved. -/
def takeFailure (e : DecodeError) (c : Call) (s : State) : State :=
  ((s.setDecoder .failed).setCall none).pushResult
    { consumed := c.consumed, event := c.event, frameComplete := false, status := .err e }

/-- RESET (42_process.md R209): every register to its reset value, in any mode. There is no return from
a failure (60_exceptions.md R280); this is the only way on. -/
def resetDecoder (ctx : Ctx) (s : State) : State := s.setDecoder (.decoding (Regs.reset ctx))

/-! ### A handler inside a call (42_process.md R201) -/

/-- The call a `PROCESS(span)` begins, with the answer the host will give to its event. -/
def Call.start (span : List Byte) (cbs : CbStatus) : Call :=
  { span := span, consumed := 0, event := .none, frameComplete := false, cbs := cbs }

/-- The end of a call without an error. -/
def endCall (r : Regs) (res : CallResult) (s : State) : State :=
  ((s.setDecoder (.decoding r)).setCall none).pushResult res

/-- What the dispatcher does with a handler's end (42_process.md R201). -/
def conclude (s : State) : HandlerOut → Host.Outcome State Fault Refusal
  | .advance r c => .next ((s.setDecoder (.decoding r)).setCall (some c))
  | .starved r c =>
    .next (endCall r { consumed := c.consumed, event := .none, frameComplete := false, status := .ok } s)
  | .fired r c =>
    .next (endCall r
      { consumed := c.consumed, event := c.event, frameComplete := c.frameComplete, status := .ok } s)
  | .raised e c => .next (takeFailure e c s)
  | .stuck f => .fault f

/-- Runs a handler's body: inside a call, with `mode = Decoding` (40_header_states.md R130).
DESIGN CHOICE, log 14: R130 has `d.state` select the handler; a row executed while `state` names another
sub-state runs its body all the same, where the spec gives no effect. -/
def runHandler (body : Regs → Call → HandlerOut) (s : State) : Host.Outcome State Fault Refusal :=
  match s.decoder, s.call with
  | .failed, _ => .refused .processAfterFailure
  | .decoding _, none => .refused .handlerOutsideCall
  | .decoding r, some c => conclude s (body r c)

/-! ### The host's side of a call -/

/-- The answer to the next event: the oldest of `answers`, a free value when there is none (log 5). -/
def nextAnswer (s : State) : CbStatus :=
  match s.answers with
  | a :: _ => a
  | [] => Config.callbackAnswer s.answerClock

/-- The result of the last call. -/
def lastResult (s : State) : Option CallResult := s.results.getLast?

/-- After a call: its answer is used up if an event was fired. -/
def useAnswer (t : State) : State :=
  match lastResult t with
  | none => t
  | some res =>
    match res.event with
    | .none => t
    | .header _ _ => t.setAnswers t.answers.tail (t.answerClock + 1)
    | .payload _ _ => t.setAnswers t.answers.tail (t.answerClock + 1)

/-- After a call on `span`: the bytes to present again, `span[consumed ..]`; none after an error
(42_process.md R213, R216). -/
def leftover (span : List Byte) (t : State) : List Byte :=
  match lastResult t with
  | none => []
  | some res =>
    match res.status with
    | .ok => span.drop res.consumed
    | .err _ => []

end Sys2Proof.Machine
end

