-- ==== Sys2Proof/Machine/HeaderStates.lean ====
section
/-! DEFINITION. The header sub-state handlers (40_header_states.md): their bodies over the registers
and the call, and the meanings of their rows. -/

namespace Sys2Proof.Machine

/-- The header fields that `S_OPCODE_BYTE` writes from byte 0 (40_header_states.md R131). -/
def setByte0 (b : Byte) (r : Regs) : Regs :=
  { r with cur := { r.cur with
      fin := byte0Fin b, rsv := byte0Rsv b, opcode := (byte0Opcode b).setWidth 8 } }

/-- `S_OPCODE_BYTE` (40_header_states.md R131). -/
def opcodeByteBody (r : Regs) (c : Call) : HandlerOut :=
  match take1 c with
  | none => .starved r c
  | some (b, c') =>
    let r' := setByte0 b r
    match fragCheck r'.cur.fin r'.cur.opcode r'.continuationExpected with
    | some cause => .raised (.eFrag cause) c'
    | none => .advance { r' with state := .lengthByte } c'

/-- The registers after byte 1 (40_header_states.md R133): the literal length, or the accumulator
prepared for the extended length. -/
def setByte1 (b : Byte) (r : Regs) : Regs :=
  let r' := { r with cur := { r.cur with masked := byte1Masked b } }
  let code := byte1Code b
  if code ≤ 125 then
    { r' with cur := { r'.cur with payloadLength := code.setWidth 64 }, state := .maskingKeyCheck }
  else
    { accReset { r' with extWidth := if code = 126 then .two else .eight } with
        state := .extendedLength }

/-- `S_LENGTH_BYTE` (40_header_states.md R133). -/
def lengthByteBody (r : Regs) (c : Call) : HandlerOut :=
  match take1 c with
  | none => .starved r c
  | some (b, c') => .advance (setByte1 b r) c'

/-- `S_EXTENDED_LENGTH` (40_header_states.md R135): the check of bit 63 comes before the write of
`payload_length` (conflict C11). -/
def extendedLengthBody (r : Regs) (c : Call) : HandlerOut :=
  match accumulate r.extWidth.bytes r c with
  | .overrun => .stuck .accumulatorOverrun
  | .partly r' c' => .starved r' c'
  | .complete r' c' =>
    let v := scratchValue r'.extWidth.bytes r'
    if r'.extWidth = .eight ∧ v.getLsbD 63 = true then .raised (.eRsvlen v) c'
    else .advance { r' with cur := { r'.cur with payloadLength := v }, state := .maskingKeyCheck } c'

/-- `S_MASKING_KEY_CHECK` (40_header_states.md R136). -/
def maskingKeyCheckBody (r : Regs) (c : Call) : HandlerOut :=
  if r.cur.masked then .advance { accReset r with state := .maskingKey } c
  else .advance { r with cur := { r.cur with maskingKey := Key.zero }, state := .payloadCheck } c

/-- `S_MASKING_KEY` (40_header_states.md R137). -/
def maskingKeyBody (r : Regs) (c : Call) : HandlerOut :=
  match accumulate 4 r c with
  | .overrun => .stuck .accumulatorOverrun
  | .partly r' c' => .starved r' c'
  | .complete r' c' =>
    .advance { r' with cur := { r'.cur with maskingKey := scratchKey r' }, state := .payloadCheck } c'

/-- Row `S_OPCODE_BYTE` (R131). -/
def execSOpcodeByte (s : State) : Host.Outcome State Fault Refusal := runHandler opcodeByteBody s

/-- Row `S_LENGTH_BYTE` (R133). -/
def execSLengthByte (s : State) : Host.Outcome State Fault Refusal := runHandler lengthByteBody s

/-- Row `S_EXTENDED_LENGTH` (R135). -/
def execSExtendedLength (s : State) : Host.Outcome State Fault Refusal :=
  runHandler extendedLengthBody s

/-- Row `S_MASKING_KEY_CHECK` (R136). -/
def execSMaskingKeyCheck (s : State) : Host.Outcome State Fault Refusal :=
  runHandler maskingKeyCheckBody s

/-- Row `S_MASKING_KEY` (R137). -/
def execSMaskingKey (s : State) : Host.Outcome State Fault Refusal := runHandler maskingKeyBody s

end Sys2Proof.Machine
end

