-- ==== Sys2Proof/Machine/PayloadStates.lean ====
section
/-! DEFINITION. The payload sub-state handlers (41_payload_states.md): their bodies over the registers
and the call, and the meanings of their rows. -/

namespace Sys2Proof.Machine

/-- The payload counters `S_PAYLOAD_CHECK` prepares for a non-empty payload (41_payload_states.md R170). -/
def startPayload (r : Regs) : Regs :=
  { r with payloadRemaining := r.cur.payloadLength, maskingPosition := 0, state := .payload }

/-- `S_PAYLOAD_CHECK` (41_payload_states.md R170): the callback comes before any register write
(decision D18). -/
def payloadCheckBody (r : Regs) (c : Call) : HandlerOut :=
  let c' := fire (.header r.cur r.userCtx) c
  if c'.cbs ≠ 0 then .raised (.eCallback c'.cbs) c'
  else if r.cur.payloadLength = 0 then .fired (completeRegs r) (completeCall c')
  else .fired (startPayload r) c'

/-- The payload counters after `n` payload bytes (41_payload_states.md R172). -/
def countPayload (n : Nat) (r : Regs) : Regs :=
  { r with
      maskingPosition := advancePosition r n
      payloadRemaining := r.payloadRemaining - BitVec.ofNat 64 n }

/-- `S_PAYLOAD` (41_payload_states.md R172): exactly `min(avail, payload_remaining)` bytes (decision D16);
counters, then the callback, then completion (decision D18). -/
def payloadBody (r : Regs) (c : Call) : HandlerOut :=
  if c.avail = 0 then .starved r c
  else
    let n := min c.avail r.payloadRemaining.toNat
    let taken := takeN n c
    let r' := countPayload n r
    let c' := fire (.payload (deliver r taken.1) r.userCtx) taken.2
    if c'.cbs ≠ 0 then .raised (.eCallback c'.cbs) c'
    else if r'.payloadRemaining = 0 then .fired (completeRegs r') (completeCall c')
    else .fired r' c'

/-- `S_DONE` (41_payload_states.md R175): the implicit reset, "functionally identical to re-entering
Opcode-Byte". No handler leaves the machine in it; see log 11. -/
def doneBody (r : Regs) (c : Call) : HandlerOut := .advance (doneReset r) c

/-- Row `S_PAYLOAD_CHECK` (R170). -/
def execSPayloadCheck (s : State) : Host.Outcome State Fault Refusal := runHandler payloadCheckBody s

/-- Row `S_PAYLOAD` (R172). -/
def execSPayload (s : State) : Host.Outcome State Fault Refusal := runHandler payloadBody s

/-- Row `S_DONE` (R175). -/
def execSDone (s : State) : Host.Outcome State Fault Refusal := runHandler doneBody s

end Sys2Proof.Machine
end

