-- ==== Sys2Proof/Machine/HostOps.lean ====
section
/-! DEFINITION. The host operations PROCESS and RESET, the dispatcher inside PROCESS, and FEED, the
caller's loop (42_process.md). -/

namespace Sys2Proof.Machine

/-- `Handler[d.state]`: the handler of a sub-state (42_process.md R201). -/
def handlerBody : SubState → Regs → Call → HandlerOut
  | .opcodeByte => opcodeByteBody
  | .lengthByte => lengthByteBody
  | .extendedLength => extendedLengthBody
  | .maskingKeyCheck => maskingKeyCheckBody
  | .maskingKey => maskingKeyBody
  | .payloadCheck => payloadCheckBody
  | .payload => payloadBody
  | .done => doneBody

/-- The instruction a sub-state selects: the row of the table whose word is the value of `state`. -/
def handlerInstr : SubState → Instr
  | .opcodeByte => .sOpcodeByte
  | .lengthByte => .sLengthByte
  | .extendedLength => .sExtendedLength
  | .maskingKeyCheck => .sMaskingKeyCheck
  | .maskingKey => .sMaskingKey
  | .payloadCheck => .sPayloadCheck
  | .payload => .sPayload
  | .done => .sDone

/-- The sub-state whose ordinal is `n` (10_state.md R22): none for 0 and 9 and above. -/
def subStateOf (n : Nat) : Option SubState :=
  if n = 1 then some .opcodeByte
  else if n = 2 then some .lengthByte
  else if n = 3 then some .extendedLength
  else if n = 4 then some .maskingKeyCheck
  else if n = 5 then some .maskingKey
  else if n = 6 then some .payloadCheck
  else if n = 7 then some .payload
  else if n = 8 then some .done
  else none

/-- The dispatcher's loop (42_process.md R201): run the handler `state` selects; go on while it ends in
`Advance`; a handler that starves, fires or raises ends the call with its result. -/
def dispatch : Nat → State → Regs → Call → Host.Outcome State Fault Refusal
  | 0, _, _, _ => .fault .loopLimit
  | k + 1, s, r, c =>
    match handlerBody r.state r c with
    | .advance r' c' => dispatch k s r' c'
    | .starved r' c' => conclude s (.starved r' c')
    | .fired r' c' => conclude s (.fired r' c')
    | .raised e c' => conclude s (.raised e c')
    | .stuck f => conclude s (.stuck f)

/-- `PROCESS(d, span)` with the answer `cbs` (42_process.md R200, R201). -/
def processCall (span : List Byte) (cbs : CbStatus) (s : State) : Host.Outcome State Fault Refusal :=
  match s.call, s.decoder with
  | some _, _ => .refused .overlappingCall
  | none, .failed => .refused .processAfterFailure
  | none, .decoding r => dispatch Config.maxHandlers s r (Call.start span cbs)

/-- `FEED(d, [span])` (42_process.md R213): present the span, then what is left of it, until nothing is
left or a call returns an error. The first argument bounds the number of calls. -/
def feed : Nat → List Byte → State → Host.Outcome State Fault Refusal
  | 0, _, _ => .fault .loopLimit
  | k + 1, span, s =>
    match processCall span (nextAnswer s) s with
    | .next t =>
      match leftover span t with
      | [] => .next (useAnswer t)
      | b :: bs => feed k (b :: bs) (useAnswer t)
    | .fault f => .fault f
    | .refused q => .refused q

/-- `FEED` of one span, with a bound that R211 makes enough: each call on a non-empty span consumes a
byte. -/
def present (span : List Byte) (s : State) : Host.Outcome State Fault Refusal :=
  feed (span.length + 1) span s

/-- `FEED(d, spans)` (42_process.md R213): the spans in order, stopping after an error. -/
def feedAll : List (List Byte) → State → Host.Outcome State Fault Refusal
  | [], s => .next s
  | span :: spans, s =>
    match present span s with
    | .next t =>
      match t.decoder with
      | .failed => .next t
      | .decoding _ => feedAll spans t
    | .fault f => .fault f
    | .refused q => .refused q

/-- After a step's call on `span`: the answer is used up, and left-over bytes are the first the host
presents next (70_reset_and_hazards.md R317). -/
def settle (span : List Byte) (t : State) : State :=
  match leftover span t with
  | [] => useAnswer t
  | b :: bs => (useAnswer t).setCommands (.process (b :: bs) :: t.commands)

/-- Row `PROCESS` (R200). -/
def execProcess (span : List Byte) (cbs : CbStatus) (s : State) :
    Host.Outcome State Fault Refusal :=
  processCall span cbs s

/-- Row `RESET` (R209): legal in any mode, fires nothing, consumes nothing; not while a call is in
progress (70_reset_and_hazards.md R315). -/
def execReset (ctx : Ctx) (s : State) : Host.Outcome State Fault Refusal :=
  match s.call with
  | some _ => .refused .overlappingCall
  | none => .next (resetDecoder ctx s)

/-! ### Placing an instruction where the next step takes it (log 7, log 10) -/

/-- The registers of a Decoding instance that waits in `st`; a Failed instance is constructed anew. -/
def regsAt (st : SubState) : Decoder → Regs
  | .decoding r => { r with state := st }
  | .failed => { Regs.reset Config.resetCtx with state := st }

/-- A frame's bytes as the next span the host presents, at a frame boundary, with success as the answer
to its event. -/
def placeFrame (bytes : List Byte) (s : State) : State :=
  { s with
      decoder := .decoding (regsAt .opcodeByte s.decoder)
      call := none
      commands := .process bytes :: s.commands
      answers := 0 :: s.answers }

/-- A value of `state`, inside a call on an empty span whose event the host answers with success. -/
def placeState (st : SubState) (s : State) : State :=
  { s with
      decoder := .decoding (regsAt st s.decoder)
      call := some (Call.start [] 0) }

/-- A table word placed where the next step takes its instruction. -/
def placeWord (nbits w : Nat) (s : State) : State :=
  match tableFormat nbits with
  | .stateReg =>
    match subStateOf w with
    | some st => placeState st s
    | none => s
  | .byte0 => placeFrame (tableInstrBytes nbits w) s
  | .byte1Length => placeFrame (tableInstrBytes nbits w) s
  | .byte1Mask => placeFrame (tableInstrBytes nbits w) s
  | .hostOp => s

end Sys2Proof.Machine
end

