-- ==== Sys2Proof/Machine/Byte1.lean ====
section
/-! DEFINITION. The forms of byte 1 (30_encoding.md R92 to R95). Such an instruction is the bytes from
byte 1 on: with its extended length (rows LEN7, LEN16, LEN64), or to the end of the header (rows
UNMASKED, MASKED). Its meaning is what the handlers do with those bytes (40_header_states.md R133, R135,
R136, R137) when they are presented to the decoder. -/

namespace Sys2Proof.Machine

/-- Row `LEN16` (R133, R135): the 2-byte big-endian length. -/
def execLen16 (m : Bool) (v : BitVec 16) (s : State) : Host.Outcome State Fault Refusal :=
  present (encodeLength m (.len16 v)) s

/-- Row `LEN64` (R133, R135): the 8-byte big-endian length; `E_RSVLEN` when bit 63 is set. -/
def execLen64 (m : Bool) (v : Word64) (s : State) : Host.Outcome State Fault Refusal :=
  present (encodeLength m (.len64 v)) s

/-- Row `LEN7` (R133): the literal length. -/
def execLen7 (m : Bool) (code : BitVec 7) (s : State) : Host.Outcome State Fault Refusal :=
  present (encodeLength m (.len7 code)) s

/-- Row `UNMASKED` (R136): no key in the header; the key is cleared to zero. -/
def execUnmasked (len : LenField) (s : State) : Host.Outcome State Fault Refusal :=
  present (encodeTail false len Key.zero) s

/-- Row `MASKED` (R136, R137): the four key bytes after the length. -/
def execMasked (len : LenField) (key : Key) (s : State) : Host.Outcome State Fault Refusal :=
  present (encodeTail true len key) s

end Sys2Proof.Machine
end

