-- ==== Sys2Proof/Machine/Frames.lean ====
section
/-! DEFINITION. The frame opcodes (43_frame_opcodes.md). A frame instruction is the bytes of one frame;
its meaning is the life of that frame (R240): the handlers take its bytes from the input, check byte 0,
assemble the header, fire HEADER, deliver the payload in PAYLOAD events and complete the frame. The
parser has no "frame-opcode-specific business logic": the opcodes differ in byte 0 alone, and so in
`FragCheck` and `FragUpdate`. -/

namespace Sys2Proof.Machine

/-- A frame presented to the decoder as one span, through `FEED` (42_process.md R213). -/
def execFrame (op : BitVec 4) (f : Frame) (s : State) : Host.Outcome State Fault Refusal :=
  present (encodeFrame op f) s

/-- Row `CONTINUATION` (R241). -/
def execContinuation (f : Frame) (s : State) : Host.Outcome State Fault Refusal :=
  execFrame 0x0 f s

/-- Row `TEXT` (R242). -/
def execText (f : Frame) (s : State) : Host.Outcome State Fault Refusal :=
  execFrame 0x1 f s

/-- Row `BINARY` (R243). -/
def execBinary (f : Frame) (s : State) : Host.Outcome State Fault Refusal :=
  execFrame 0x2 f s

/-- Row `DATA3` (R244). -/
def execData3 (f : Frame) (s : State) : Host.Outcome State Fault Refusal :=
  execFrame 0x3 f s

/-- Row `DATA4` (R245). -/
def execData4 (f : Frame) (s : State) : Host.Outcome State Fault Refusal :=
  execFrame 0x4 f s

/-- Row `DATA5` (R246). -/
def execData5 (f : Frame) (s : State) : Host.Outcome State Fault Refusal :=
  execFrame 0x5 f s

/-- Row `DATA6` (R247). -/
def execData6 (f : Frame) (s : State) : Host.Outcome State Fault Refusal :=
  execFrame 0x6 f s

/-- Row `DATA7` (R248). -/
def execData7 (f : Frame) (s : State) : Host.Outcome State Fault Refusal :=
  execFrame 0x7 f s

/-- Row `CLOSE` (R249). -/
def execClose (f : Frame) (s : State) : Host.Outcome State Fault Refusal :=
  execFrame 0x8 f s

/-- Row `PING` (R250). -/
def execPing (f : Frame) (s : State) : Host.Outcome State Fault Refusal :=
  execFrame 0x9 f s

/-- Row `PONG` (R251). -/
def execPong (f : Frame) (s : State) : Host.Outcome State Fault Refusal :=
  execFrame 0xA f s

/-- Row `CTRLB` (R252). -/
def execCtrlb (f : Frame) (s : State) : Host.Outcome State Fault Refusal :=
  execFrame 0xB f s

/-- Row `CTRLC` (R253). -/
def execCtrlc (f : Frame) (s : State) : Host.Outcome State Fault Refusal :=
  execFrame 0xC f s

/-- Row `CTRLD` (R254). -/
def execCtrld (f : Frame) (s : State) : Host.Outcome State Fault Refusal :=
  execFrame 0xD f s

/-- Row `CTRLE` (R255). -/
def execCtrle (f : Frame) (s : State) : Host.Outcome State Fault Refusal :=
  execFrame 0xE f s

/-- Row `CTRLF` (R256). -/
def execCtrlf (f : Frame) (s : State) : Host.Outcome State Fault Refusal :=
  execFrame 0xF f s

end Sys2Proof.Machine
end

