-- ==== Sys2Proof/Machine/Dispatch.lean ====
section
/-! DEFINITION. The meaning of every instruction, one arm per row of spec/opcode_table.json. -/

namespace Sys2Proof.Machine

def exec (i : Instr) (s : State) : Host.Outcome State Fault Refusal :=
  match i with
  | .continuation f => Sys2Proof.Machine.execContinuation f s
  | .text f => Sys2Proof.Machine.execText f s
  | .binary f => Sys2Proof.Machine.execBinary f s
  | .data3 f => Sys2Proof.Machine.execData3 f s
  | .data4 f => Sys2Proof.Machine.execData4 f s
  | .data5 f => Sys2Proof.Machine.execData5 f s
  | .data6 f => Sys2Proof.Machine.execData6 f s
  | .data7 f => Sys2Proof.Machine.execData7 f s
  | .close f => Sys2Proof.Machine.execClose f s
  | .ping f => Sys2Proof.Machine.execPing f s
  | .pong f => Sys2Proof.Machine.execPong f s
  | .ctrlb f => Sys2Proof.Machine.execCtrlb f s
  | .ctrlc f => Sys2Proof.Machine.execCtrlc f s
  | .ctrld f => Sys2Proof.Machine.execCtrld f s
  | .ctrle f => Sys2Proof.Machine.execCtrle f s
  | .ctrlf f => Sys2Proof.Machine.execCtrlf f s
  | .len16 m v => Sys2Proof.Machine.execLen16 m v s
  | .len64 m v => Sys2Proof.Machine.execLen64 m v s
  | .len7 m code => Sys2Proof.Machine.execLen7 m code s
  | .unmasked len => Sys2Proof.Machine.execUnmasked len s
  | .masked len key => Sys2Proof.Machine.execMasked len key s
  | .sOpcodeByte => Sys2Proof.Machine.execSOpcodeByte s
  | .sLengthByte => Sys2Proof.Machine.execSLengthByte s
  | .sExtendedLength => Sys2Proof.Machine.execSExtendedLength s
  | .sMaskingKeyCheck => Sys2Proof.Machine.execSMaskingKeyCheck s
  | .sMaskingKey => Sys2Proof.Machine.execSMaskingKey s
  | .sPayloadCheck => Sys2Proof.Machine.execSPayloadCheck s
  | .sPayload => Sys2Proof.Machine.execSPayload s
  | .sDone => Sys2Proof.Machine.execSDone s
  | .process span cbs => Sys2Proof.Machine.execProcess span cbs s
  | .reset ctx => Sys2Proof.Machine.execReset ctx s

end Sys2Proof.Machine
end

