-- ==== Sys2Proof/Machine/Step.lean ====
section
/-! DEFINITION. One step of the machine: one transaction of the host (00_scope.md R9, 20_memory.md R68),
the oldest command on the CMD channel. With no command pending the machine is idle and keeps all
registers (60_exceptions.md R288). -/

namespace Sys2Proof.Machine

/-- After the handler of a call in progress: when it ended the call, the host's side of it. -/
def afterHandler (span : List Byte) (t : State) : State :=
  match t.call with
  | some _ => t
  | none => settle span t

/-- One step. A call in progress (none is between calls) goes on with the handler `state` selects. -/
def step (s : State) : Host.Outcome State Fault Refusal :=
  match s.call, s.decoder, s.commands with
  | some c, .decoding r, _ =>
    match exec (handlerInstr r.state) s with
    | .next t => .next (afterHandler c.span t)
    | .fault f => .fault f
    | .refused q => .refused q
  | some _, .failed, _ => .refused .processAfterFailure
  | none, _, [] => .next s
  | none, _, .reset ctx :: rest => exec (.reset ctx) (s.setCommands rest)
  | none, _, .process span :: rest =>
    match exec (.process span (nextAnswer s)) (s.setCommands rest) with
    | .next t => .next (settle span t)
    | .fault f => .fault f
    | .refused q => .refused q

/-- A table word placed where `step` takes its next instruction (log 7, log 10). -/
def State.withFetchWord (s : State) (nbits w : Nat) : State := placeWord nbits w s

end Sys2Proof.Machine
end

