-- ==== Sys2Proof/WellFormed.lean ====
section
/-! DEFINITION. When an instruction is one the encoding admits: the length code of `LEN7`, and that
a frame's payload is as long as its length field says (43_frame_opcodes.md R240: "exactly one frame
header is associated with exactly one payload of `payload_length` bytes"). -/

namespace Sys2Proof

/-- A literal length code is 0 to 125; 126 and 127 announce an extended length (30_encoding.md R105). -/
def LenField.wf : LenField → Bool
  | .len7 code => code ≤ 125
  | .len16 _ => true
  | .len64 _ => true

/-- A key is in the header only when `masked` is set and the length is not reserved; a frame without
one has key 00 00 00 00 (40_header_states.md R136). -/
def keyWf (masked : Bool) (len : LenField) (key : Key) : Bool :=
  (masked && !len.reserved) || key == Key.zero

/-- A frame's fields agree with each other. -/
def Frame.wf (f : Frame) : Bool :=
  f.len.wf && keyWf f.masked f.len f.key && f.payload.length == f.len.payloadCount

/-- An instruction the encoding admits. -/
def Instr.wf : Instr → Bool
  | .continuation f => f.wf
  | .text f => f.wf
  | .binary f => f.wf
  | .data3 f => f.wf
  | .data4 f => f.wf
  | .data5 f => f.wf
  | .data6 f => f.wf
  | .data7 f => f.wf
  | .close f => f.wf
  | .ping f => f.wf
  | .pong f => f.wf
  | .ctrlb f => f.wf
  | .ctrlc f => f.wf
  | .ctrld f => f.wf
  | .ctrle f => f.wf
  | .ctrlf f => f.wf
  | .len16 _ _ => true
  | .len64 _ _ => true
  | .len7 _ code => (LenField.len7 code).wf
  | .unmasked len => len.wf
  | .masked len key => len.wf && keyWf true len key
  | .sOpcodeByte => true
  | .sLengthByte => true
  | .sExtendedLength => true
  | .sMaskingKeyCheck => true
  | .sMaskingKey => true
  | .sPayloadCheck => true
  | .sPayload => true
  | .sDone => true
  | .process _ _ => true
  | .reset _ => true

end Sys2Proof
end

