-- ==== Sys2Proof/Safety.lean ====
section
/-! DEFINITION. What counts as a safe run, in the terms the claims use: the invariant of the registers
between calls, what a reported result looks like, what the host observes of a stream whatever its
spans, and the life of a frame as 43_frame_opcodes.md R240 tells it, without bytes or handlers. -/

namespace Sys2Proof.Machine

/-! ### The invariant between calls (10_state.md) -/

/-- The resting states (R37): the three zero-byte states never rest, and a field that is complete does
not either. -/
def Regs.resting (r : Regs) : Bool :=
  match r.state with
  | .opcodeByte => true
  | .lengthByte => true
  | .extendedLength => r.scratchCount.toNat < r.extWidth.bytes
  | .maskingKeyCheck => false
  | .maskingKey => r.scratchCount.toNat < 4
  | .payloadCheck => false
  | .payload => 1 ≤ r.payloadRemaining.toNat
  | .done => false

/-- What holds of the registers between two calls. -/
structure Regs.Inv (r : Regs) : Prop where
  /-- R37 -/
  resting : r.resting = true
  /-- R24: in S_EXTENDED_LENGTH the recorded width is 2 or 8 -/
  extWidth : r.state = .extendedLength → r.extWidth = .two ∨ r.extWidth = .eight
  /-- R25 -/
  scratchCount : r.scratchCount.toNat ≤ 8
  /-- R33, decision D6: the bytes behind those accumulated are 00 -/
  scratchZero : ∀ i : Fin 8, r.scratchCount.toNat ≤ i.val → r.scratch[i] = 0
  /-- R30: bits 7 to 4 of the opcode are 0 -/
  opcode : r.cur.opcode.toNat ≤ 0x0F
  /-- R31, conflict C11: bit 63 of `payload_length` is 0 -/
  payloadLength : r.cur.payloadLength.toNat < 2 ^ 63
  /-- R36 -/
  remaining : r.state = .payload →
    1 ≤ r.payloadRemaining.toNat ∧ r.payloadRemaining.toNat ≤ r.cur.payloadLength.toNat
  /-- R36: 0 outside S_PAYLOAD -/
  remainingZero : r.state ≠ .payload → r.payloadRemaining = 0
  /-- R40: it never wraps -/
  position : r.maskingPosition.toNat < 2 ^ 63
  /-- R40: in a masked frame the two counters add up -/
  counters : r.state = .payload → r.cur.masked = true →
    r.maskingPosition.toNat + r.payloadRemaining.toNat = r.cur.payloadLength.toNat
  /-- R131: byte 0 of the frame under way was accepted -/
  accepted : r.state ≠ .opcodeByte →
    fragCheck r.cur.fin r.cur.opcode r.continuationExpected = none
  /-- R136: only a masked frame waits for a key -/
  keyWanted : r.state = .maskingKey → r.cur.masked = true
  /-- R32: an unmasked frame's key is 00 00 00 00 -/
  keyZero : r.state = .payload → r.cur.masked = false → r.cur.maskingKey = Key.zero

/-- What a HEADER event carries (42_process.md R206): an opcode of 4 bits, a length below 2^63, and key
00 00 00 00 when the frame is unmasked. -/
def Header.good (h : Header) : Bool :=
  decide (h.opcode.toNat ≤ 0x0F) && decide (h.payloadLength.toNat < 2 ^ 63) &&
    (h.masked || h.maskingKey == Key.zero)

/-- What an event carries: R206 for HEADER, at least one byte for PAYLOAD (R207). -/
def Event.good : Event → Bool
  | .none => true
  | .header h _ => h.good
  | .payload bytes _ => !bytes.isEmpty

/-- A result a call may report: `frame_complete` only with an event and without an error (R204, R205);
no event with `E_FRAG` or `E_RSVLEN`, an event and a non-zero status with `E_CALLBACK` (60_exceptions.md
R270); `E_RSVLEN` only for a value with bit 63 set (R272). -/
def CallResult.good (res : CallResult) : Bool :=
  res.event.good && (!res.frameComplete || (res.event != .none && res.status == .ok)) &&
    match res.status with
    | .ok => true
    | .err (.eFrag _) => res.event == .none
    | .err (.eRsvlen v) => res.event == .none && v.getLsbD 63
    | .err (.eCallback q) => res.event != .none && q != 0

/-- The invariant of the machine between two steps: no call is in progress (42_process.md R201), the
registers of a Decoding instance meet theirs, and every result reported is one a call may report. -/
structure State.Inv (s : State) : Prop where
  idle : s.call = none
  regs : ∀ r, s.decoder = .decoding r → r.Inv
  results : ∀ res ∈ s.results, res.good = true

/-! ### What the host observes of a stream, whatever its spans (42_process.md R214) -/

/-- One item of the stream of observations: chunk boundaries and calls without an event are gone. -/
inductive Obs where
  | header (h : Header) (ctx : Ctx)
  | byte (b : Byte) (ctx : Ctx)
  | frameComplete
  | error (e : DecodeError)
  deriving DecidableEq, Repr

/-- The items of an event. -/
def Event.obs : Event → List Obs
  | .none => []
  | .header h ctx => [.header h ctx]
  | .payload bytes ctx => bytes.map fun b => .byte b ctx

/-- The items of a result. -/
def CallResult.obs (res : CallResult) : List Obs :=
  res.event.obs ++ (if res.frameComplete then [.frameComplete] else []) ++
    match res.status with
    | .ok => []
    | .err e => [.error e]

/-- The items of a list of results. -/
def observed (results : List CallResult) : List Obs := results.flatMap CallResult.obs

/-! ### The shapes of a next state -/

/-- A call is in progress on a Decoding instance: where a handler runs (40_header_states.md R130). -/
def State.InCall (s : State) (r : Regs) (c : Call) : Prop := s.decoder = .decoding r ∧ s.call = some c

/-- No call is in progress on a Decoding instance: where a `PROCESS` may begin (42_process.md R210). -/
def State.Idle (s : State) (r : Regs) : Prop := s.decoder = .decoding r ∧ s.call = none

/-- The call goes on: registers and call as given, everything else as it was. -/
def running (r : Regs) (c : Call) (s : State) : State :=
  { s with decoder := .decoding r, call := some c }

/-- The call has ended without an error: registers and result as given, everything else as it was. -/
def returned (r : Regs) (res : CallResult) (s : State) : State :=
  { s with decoder := .decoding r, call := none, results := s.results ++ [res] }

/-- The call has ended with an error (60_exceptions.md R278): the instance is Failed, no register of it is
left, the result is as given, everything else as it was. -/
def failedWith (consumed : Nat) (event : Event) (e : DecodeError) (s : State) : State :=
  { s with
      decoder := .failed
      call := none
      results := s.results ++
        [{ consumed := consumed, event := event, frameComplete := false, status := .err e }] }

/-- The result of a call that ended `Starved` (42_process.md R201). -/
def starvedResult (consumed : Nat) : CallResult :=
  { consumed := consumed, event := .none, frameComplete := false, status := .ok }

/-- The host has answered the next `n` events with success. -/
def State.Answered (n : Nat) (s : State) : Prop := ∃ more, s.answers = List.replicate n 0 ++ more

/-- `n` answers are used up. -/
def useAnswers (n : Nat) (s : State) : State :=
  { s with answers := s.answers.drop n, answerClock := s.answerClock + n }

/-- The accumulator after the bytes `bs` have arrived behind those it holds, byte by byte
(40_header_states.md R134). -/
def filled (bs : List Byte) (r : Regs) : Regs :=
  { r with
      scratch := Vector.ofFn fun i : Fin 8 =>
        if r.scratchCount.toNat ≤ i.val then bs.getD (i.val - r.scratchCount.toNat) r.scratch[i]
        else r.scratch[i]
      scratchCount := BitVec.ofNat 4 (r.scratchCount.toNat + bs.length) }

/-- `continuation_expected` after the frame whose header is `cur` has completed (41_payload_states.md
R171). -/
def ceAfter (cur : Header) (ce : Bool) : Bool := if cur.opcode.getLsbD 3 then ce else !cur.fin

/-- The handlers one after another, each as the row of the table that `state` selects, until the call has
ended (42_process.md R201). -/
def runHandlers : Nat → State → Host.Outcome State Fault Refusal
  | 0, _ => .fault .loopLimit
  | k + 1, s =>
    match s.decoder, s.call with
    | .decoding r, some _ =>
      match exec (handlerInstr r.state) s with
      | .next t => runHandlers k t
      | .fault f => .fault f
      | .refused q => .refused q
    | _, _ => .next s

/-! ### The header and the life of a frame (43_frame_opcodes.md R240) -/

/-- The header of a frame with opcode `op` (42_process.md R206). -/
def frameHeader (op : BitVec 4) (f : Frame) : Header :=
  { fin := f.fin, rsv := f.rsv, masked := f.masked, opcode := op.setWidth 8,
    payloadLength := f.len.value, maskingKey := f.key }

/-- The size of the extended length field (30_encoding.md R90: `E`). -/
def extBytesOf : LenField → Nat
  | .len7 _ => 0
  | .len16 _ => 2
  | .len64 _ => 8

/-- The size of a header: `2 + E + K` (30_encoding.md R90). -/
def headerBytes (masked : Bool) (len : LenField) : Nat :=
  2 + extBytesOf len + if masked then 4 else 0

/-- The scratch accumulator after the fields of a header: the last field it assembled. -/
def scratchAfter (masked : Bool) (len : LenField) (key : Key) (r : Regs) : Scratch × BitVec 4 :=
  if masked then (#v[key[0], key[1], key[2], key[3], 0, 0, 0, 0], 4)
  else match len with
    | .len7 _ => (r.scratch, r.scratchCount)
    | .len16 v => (#v[v.extractLsb' 8 8, v.extractLsb' 0 8, 0, 0, 0, 0, 0, 0], 2)
    | .len64 v =>
      (#v[v.extractLsb' 56 8, v.extractLsb' 48 8, v.extractLsb' 40 8, v.extractLsb' 32 8,
          v.extractLsb' 24 8, v.extractLsb' 16 8, v.extractLsb' 8 8, v.extractLsb' 0 8], 8)

/-- `ext_width` after a length field: recorded for the extended forms only (10_state.md R24). -/
def extWidthAfter (len : LenField) (r : Regs) : ExtWidth :=
  match len with
  | .len7 _ => r.extWidth
  | .len16 _ => .two
  | .len64 _ => .eight

/-- The registers when a header is complete, from those after its byte 0. -/
def headerRegs (masked : Bool) (len : LenField) (key : Key) (r : Regs) : Regs :=
  { r with
      cur := { r.cur with masked := masked, payloadLength := len.value, maskingKey := key }
      scratch := (scratchAfter masked len key r).1
      scratchCount := (scratchAfter masked len key r).2
      extWidth := extWidthAfter len r }

/-- The registers once the HEADER event has been answered with success (41_payload_states.md R170): the
frame is complete if its payload is empty, else the payload counters are set. -/
def afterHeader (r : Regs) : Regs :=
  if r.cur.payloadLength = 0 then
    { r with continuationExpected := ceAfter r.cur r.continuationExpected, state := .opcodeByte }
  else
    { r with payloadRemaining := r.cur.payloadLength, maskingPosition := 0, state := .payload }

/-- The result of a call that fired HEADER (41_payload_states.md R170). -/
def headerResult (consumed : Nat) (r : Regs) : CallResult :=
  { consumed := consumed, event := .header r.cur r.userCtx,
    frameComplete := r.cur.payloadLength == 0, status := .ok }

/-- The registers after a whole frame, from those at the frame boundary before it. -/
def frameRegs (op : BitVec 4) (f : Frame) (r : Regs) : Regs :=
  { state := .opcodeByte
    continuationExpected := ceAfter (frameHeader op f) r.continuationExpected
    cur := frameHeader op f
    scratch := (scratchAfter f.masked f.len f.key r).1
    scratchCount := (scratchAfter f.masked f.len f.key r).2
    extWidth := extWidthAfter f.len r
    payloadRemaining := if f.payload = [] then r.payloadRemaining else 0
    maskingPosition :=
      if f.payload = [] then r.maskingPosition else if f.masked then f.len.value else 0
    userCtx := r.userCtx }

/-- The results of a whole frame presented as one span: HEADER, then the payload as one chunk. -/
def frameResults (op : BitVec 4) (f : Frame) (ctx : Ctx) : List CallResult :=
  { consumed := headerBytes f.masked f.len, event := .header (frameHeader op f) ctx,
    frameComplete := f.payload.isEmpty, status := .ok } ::
  if f.payload = [] then []
  else [{ consumed := f.payload.length, event := .payload f.payload ctx, frameComplete := true,
          status := .ok }]

/-- The number of events a frame fires when it is presented as one span. -/
def frameEvents (f : Frame) : Nat := if f.payload = [] then 1 else 2

/-- The machine after a whole frame whose events the host answered with success; everything else as it
was. -/
def afterFrame (op : BitVec 4) (f : Frame) (r : Regs) (s : State) : State :=
  { useAnswers (frameEvents f) s with
      decoder := .decoding (frameRegs op f r)
      results := s.results ++ frameResults op f r.userCtx }

end Sys2Proof.Machine
end

