-- ==== Sys2Proof/Certificates/Slice0/Obligations.lean ====
section
/-! DEFINITION. The statements for the provers, each a Prop with the rule of spec/ it formalises. -/

open Sys2Proof Sys2Proof.Machine

/-! ### Encoding (30_encoding.md) -/

/-- Decode and encode agree, for every row with a bit encoding and every operand the encoding admits
(R90 to R96, R105).
The format as an argument of `decode` is the model's choice (log 7); what is well formed is its reading (log 13). -/
def Obligations.DecodeOfEncodeIsTheInstruction : Prop :=
  ∀ (i : Instr) (rest : List Byte), i.wf = true → i.format ≠ .hostOp →
    decode i.format (encode i ++ rest) = .ok i rest

/-- Every word has one meaning in its format: what the decoder accepts is the encoding of what it answers,
which is well formed and of that format.
The format as an argument of `decode` is the model's choice (log 7); what is well formed is its reading (log 13). -/
def Obligations.EncodeOfDecodeIsTheBytes : Prop :=
  ∀ (fmt : Format) (bytes rest : List Byte) (i : Instr), decode fmt bytes = .ok i rest →
    encode i ++ rest = bytes ∧ i.wf = true ∧ i.format = fmt

/-- R90: the header is `2 + E + K` bytes, 2 to 14, and the payload follows it.
What is well formed is the model's reading (log 13). -/
def Obligations.FrameSizeIsHeaderPlusPayload : Prop :=
  ∀ (op : BitVec 4) (f : Frame), f.wf = true → f.len.reserved = false →
    (encodeFrame op f).length = headerBytes f.masked f.len + f.len.value.toNat ∧
    2 ≤ headerBytes f.masked f.len ∧ headerBytes f.masked f.len ≤ 14

/-- Words written out from the layouts of R91 to R96 and from 43_frame_opcodes.md decode to the
instructions they stand for.
The `state` words follow 10_state.md R22; a value of `state` as one byte, the format as an argument of `decode` and
the named rejections are the model's choice (log 7). -/
def Obligations.SampleWordsDecode : Prop :=
  decode .byte0 [0x81, 0x05, 0x48, 0x65, 0x6C, 0x6C, 0x6F] =
      .ok (.text ⟨true, ⟨false, false, false⟩, false, .len7 5, #v[0, 0, 0, 0],
        [0x48, 0x65, 0x6C, 0x6C, 0x6F]⟩) [] ∧
  decode .byte0 [0x82, 0x84, 0xA1, 0xB2, 0xC3, 0xD4, 0x7F, 0x1F, 0x7D, 0x3B] =
      .ok (.binary ⟨true, ⟨false, false, false⟩, true, .len7 4, #v[0xA1, 0xB2, 0xC3, 0xD4],
        [0xDE, 0xAD, 0xBE, 0xEF]⟩) [] ∧
  decode .byte0 [0xC2, 0x01, 0x01, 0x99] =
      .ok (.binary ⟨true, ⟨true, false, false⟩, false, .len7 1, #v[0, 0, 0, 0], [0x01]⟩) [0x99] ∧
  decode .byte0 [0x8A, 0x80, 0x01, 0x02, 0x03, 0x04] =
      .ok (.pong ⟨true, ⟨false, false, false⟩, true, .len7 0, #v[1, 2, 3, 4], []⟩) [] ∧
  decode .byte1Length [0xFE, 0x01, 0x00] = .ok (.len16 true 256) [] ∧
  decode .byte1Length [0x7F, 0, 0, 0, 0, 0, 1, 0, 0] = .ok (.len64 false 65536) [] ∧
  decode .byte1Mask [0x85, 0x37, 0xFA, 0x21, 0x3D] = .ok (.masked (.len7 5) #v[0x37, 0xFA, 0x21, 0x3D]) [] ∧
  decode .stateReg [0x06] = .ok .sPayloadCheck [] ∧
  decode .stateReg [0x09] = .rejected .noSuchState ∧
  decode .byte0 [0x81, 0x85, 0x37] = .rejected .incompleteHeader

/-- The XOR datapath (41_payload_states.md R173): the delivered byte is the wire byte XOR the key byte at
the position modulo 4. -/
def Obligations.UnmaskIsXorWithKeyByte : Prop :=
  ∀ (w : Byte) (key : Key) (p : Word64) (i : Fin 4), p.toNat % 4 = i.val →
    unmask w key p = w ^^^ key[i]

/-- Masking is self-inverse (41_payload_states.md R174), from any position of the key. -/
def Obligations.UnmaskingIsSelfInverse : Prop :=
  ∀ (key : Key) (p : Word64) (bytes : List Byte),
    unmaskBytes key p (unmaskBytes key p bytes) = bytes

/-- Unmasking does not depend on how the payload is cut (41_payload_states.md R174): a second chunk goes on
at the position the first has reached, and byte `i` meets key byte `(p + i) mod 4`. -/
def Obligations.UnmaskingIsChunkIndependent : Prop :=
  ∀ (key : Key) (p : Word64) (xs ys : List Byte),
    unmaskBytes key p (xs ++ ys) =
        unmaskBytes key p xs ++ unmaskBytes key (p + BitVec.ofNat 64 xs.length) ys ∧
    ∀ (i : Nat) (h : i < xs.length),
      (unmaskBytes key p xs)[i]? =
        some (xs[i] ^^^ key[(p.toNat + i) % 4]'(Nat.mod_lt _ (by decide)))

/-! ### Flags -/

/-- `FragCheck` (40_header_states.md R132): the three failing cases and no other. -/
def Obligations.FragCheckHasThreeFailingCases : Prop :=
  ∀ (fin : Bool) (op : BitVec 8) (ce : Bool),
    (fragCheck fin op ce = some .fragmentedControl ↔ op.getLsbD 3 = true ∧ fin = false) ∧
    (fragCheck fin op ce = some .continuationExpected ↔
      op.getLsbD 3 = false ∧ ce = true ∧ op ≠ 0x0) ∧
    (fragCheck fin op ce = some .unexpectedContinuation ↔
      op.getLsbD 3 = false ∧ ce = false ∧ op = 0x0)

/-- `continuation_expected` changes only when a frame completes, and then as R171 says
(10_state.md R23): a completing data frame sets it to `not fin`, a control frame leaves it. -/
def Obligations.ContinuationExpectedChangesOnCompletionOnly : Prop :=
  ∀ (s t : State) (r r' : Regs) (span : List Byte) (cbs : CbStatus) (res : CallResult),
    s.Idle r → exec (.process span cbs) s = .next t → t.decoder = .decoding r' →
    t.results = s.results ++ [res] →
    r'.continuationExpected =
      if res.frameComplete then ceAfter r'.cur r.continuationExpected else r.continuationExpected

/-! ### The header handlers (40_header_states.md) -/

/-- R131: `S_OPCODE_BYTE` on an empty rest, on an accepted byte 0, on a rejected one.
The row runs for every value of `state`, also one that names another sub-state: the model's choice (log 14). -/
def Obligations.OpcodeByteTakesByteZero : Prop :=
  ∀ (s : State) (r : Regs) (c : Call), s.InCall r c →
    (c.unread = [] → exec .sOpcodeByte s = .next (returned r (starvedResult c.consumed) s)) ∧
    ∀ (b : Byte) (rest : List Byte), c.unread = b :: rest →
      (fragCheck (b.getLsbD 7) (b &&& 0x0F) r.continuationExpected = none →
        exec .sOpcodeByte s = .next (running
          { r with
              cur := { r.cur with
                fin := b.getLsbD 7
                rsv := ⟨b.getLsbD 6, b.getLsbD 5, b.getLsbD 4⟩
                opcode := b &&& 0x0F }
              state := .lengthByte }
          { c with consumed := c.consumed + 1 } s)) ∧
      ∀ cause, fragCheck (b.getLsbD 7) (b &&& 0x0F) r.continuationExpected = some cause →
        exec .sOpcodeByte s = .next (failedWith (c.consumed + 1) c.event (.eFrag cause) s)

/-- R133: `S_LENGTH_BYTE` on an empty rest, on a literal length, on codes 126 and 127.
The row runs for every value of `state`, also one that names another sub-state: the model's choice (log 14). -/
def Obligations.LengthByteTakesByteOne : Prop :=
  ∀ (s : State) (r : Regs) (c : Call), s.InCall r c →
    (c.unread = [] → exec .sLengthByte s = .next (returned r (starvedResult c.consumed) s)) ∧
    ∀ (b : Byte) (rest : List Byte), c.unread = b :: rest →
      ((b &&& 0x7F).toNat ≤ 125 →
        exec .sLengthByte s = .next (running
          { r with
              cur := { r.cur with
                masked := b.getLsbD 7, payloadLength := (b &&& 0x7F).setWidth 64 }
              state := .maskingKeyCheck }
          { c with consumed := c.consumed + 1 } s)) ∧
      ((b &&& 0x7F).toNat = 126 →
        exec .sLengthByte s = .next (running
          { r with
              cur := { r.cur with masked := b.getLsbD 7 }
              extWidth := .two, scratchCount := 0, scratch := Scratch.zero
              state := .extendedLength }
          { c with consumed := c.consumed + 1 } s)) ∧
      ((b &&& 0x7F).toNat = 127 →
        exec .sLengthByte s = .next (running
          { r with
              cur := { r.cur with masked := b.getLsbD 7 }
              extWidth := .eight, scratchCount := 0, scratch := Scratch.zero
              state := .extendedLength }
          { c with consumed := c.consumed + 1 } s))

/-- R135 with R134: `S_EXTENDED_LENGTH` takes the bytes its field still needs; an incomplete field starves;
a complete one gives the big-endian length; a 64-bit length with bit 63 set raises `E_RSVLEN`.
The row runs for every value of `state`, also one that names another sub-state: the model's choice (log 14). -/
def Obligations.ExtendedLengthAssemblesBigEndian : Prop :=
  ∀ (s : State) (r r' : Regs) (c c' : Call) (bs : List Byte), s.InCall r c →
    r.extWidth ≠ .none → r.scratchCount.toNat ≤ r.extWidth.bytes →
    bs = c.unread.take (r.extWidth.bytes - r.scratchCount.toNat) → r' = filled bs r →
    c' = { c with consumed := c.consumed + bs.length } →
    (r.scratchCount.toNat + bs.length < r.extWidth.bytes →
      exec .sExtendedLength s = .next (returned r' (starvedResult c'.consumed) s)) ∧
    (r.scratchCount.toNat + bs.length = r.extWidth.bytes → r.extWidth = .two →
      exec .sExtendedLength s = .next (running
        { r' with
            cur := { r'.cur with
              payloadLength := (r'.scratch[0] ++ r'.scratch[1]).setWidth 64 }
            state := .maskingKeyCheck } c' s)) ∧
    (r.scratchCount.toNat + bs.length = r.extWidth.bytes → r.extWidth = .eight →
      let v : Word64 :=
        r'.scratch[0] ++ r'.scratch[1] ++ r'.scratch[2] ++ r'.scratch[3] ++
        r'.scratch[4] ++ r'.scratch[5] ++ r'.scratch[6] ++ r'.scratch[7]
      (r'.scratch[0].getLsbD 7 = false →
        exec .sExtendedLength s = .next (running
          { r' with cur := { r'.cur with payloadLength := v }, state := .maskingKeyCheck } c' s)) ∧
      (r'.scratch[0].getLsbD 7 = true →
        exec .sExtendedLength s = .next (failedWith c'.consumed c'.event (.eRsvlen v) s)))

/-- R136: `S_MASKING_KEY_CHECK` takes no input and always advances.
The row runs for every value of `state`, also one that names another sub-state: the model's choice (log 14). -/
def Obligations.MaskingKeyCheckDecides : Prop :=
  ∀ (s : State) (r : Regs) (c : Call), s.InCall r c →
    (r.cur.masked = false →
      exec .sMaskingKeyCheck s = .next (running
        { r with cur := { r.cur with maskingKey := #v[0, 0, 0, 0] }, state := .payloadCheck } c s)) ∧
    (r.cur.masked = true →
      exec .sMaskingKeyCheck s = .next (running
        { r with scratchCount := 0, scratch := Scratch.zero, state := .maskingKey } c s))

/-- R137 with R134: `S_MASKING_KEY` takes the key bytes still missing; with all four present it copies
them to `masking_key`.
The row runs for every value of `state`, also one that names another sub-state: the model's choice (log 14). -/
def Obligations.MaskingKeyTakesFourBytes : Prop :=
  ∀ (s : State) (r r' : Regs) (c c' : Call) (bs : List Byte), s.InCall r c →
    r.scratchCount.toNat ≤ 4 →
    bs = c.unread.take (4 - r.scratchCount.toNat) → r' = filled bs r →
    c' = { c with consumed := c.consumed + bs.length } →
    (r.scratchCount.toNat + bs.length < 4 →
      exec .sMaskingKey s = .next (returned r' (starvedResult c'.consumed) s)) ∧
    (r.scratchCount.toNat + bs.length = 4 →
      exec .sMaskingKey s = .next (running
        { r' with
            cur := { r'.cur with
              maskingKey := #v[r'.scratch[0], r'.scratch[1], r'.scratch[2], r'.scratch[3]] }
            state := .payloadCheck } c' s))

/-! ### The payload handlers (41_payload_states.md) -/

/-- R170: `S_PAYLOAD_CHECK` fires HEADER; a failing callback raises `E_CALLBACK`; an empty frame completes;
otherwise the payload counters are set.
The row runs for every value of `state`, also one that names another sub-state: the model's choice (log 14).
That the row leaves `answers` alone, the call carrying its answer, is the model's choice (log 5). -/
def Obligations.PayloadCheckFiresTheHeader : Prop :=
  ∀ (s : State) (r : Regs) (c : Call), s.InCall r c →
    (c.cbs ≠ 0 →
      exec .sPayloadCheck s =
        .next (failedWith c.consumed (.header r.cur r.userCtx) (.eCallback c.cbs) s)) ∧
    (c.cbs = 0 → r.cur.payloadLength = 0 →
      exec .sPayloadCheck s = .next (returned
        { r with continuationExpected := ceAfter r.cur r.continuationExpected, state := .opcodeByte }
        { consumed := c.consumed, event := .header r.cur r.userCtx, frameComplete := true,
          status := .ok } s)) ∧
    (c.cbs = 0 → r.cur.payloadLength ≠ 0 →
      exec .sPayloadCheck s = .next (returned
        { r with
            payloadRemaining := r.cur.payloadLength, maskingPosition := 0, state := .payload }
        { consumed := c.consumed, event := .header r.cur r.userCtx,
          frameComplete := c.frameComplete, status := .ok } s))

/-- R172 with R173: `S_PAYLOAD` takes `min(avail, payload_remaining)` bytes, delivers them unmasked, counts
them, and completes the frame at zero.
The row runs for every value of `state`, also one that names another sub-state: the model's choice (log 14).
That the row leaves `answers` alone, the call carrying its answer, is the model's choice (log 5). -/
def Obligations.PayloadDeliversTheMinimum : Prop :=
  ∀ (s : State) (r r' : Regs) (c : Call) (n : Nat) (out : List Byte), s.InCall r c →
    n = min c.avail r.payloadRemaining.toNat →
    out = (c.unread.take n).mapIdx (fun i w =>
      if r.cur.masked then
        w ^^^ r.cur.maskingKey[(r.maskingPosition.toNat + i) % 4]'(Nat.mod_lt _ (by decide))
      else w) →
    r' = { r with
        maskingPosition :=
          if r.cur.masked then r.maskingPosition + BitVec.ofNat 64 n else r.maskingPosition
        payloadRemaining := r.payloadRemaining - BitVec.ofNat 64 n } →
    (c.avail = 0 → exec .sPayload s = .next (returned r (starvedResult c.consumed) s)) ∧
    (c.avail ≠ 0 → c.cbs ≠ 0 →
      exec .sPayload s =
        .next (failedWith (c.consumed + n) (.payload out r.userCtx) (.eCallback c.cbs) s)) ∧
    (c.avail ≠ 0 → c.cbs = 0 → r.payloadRemaining.toNat ≤ n →
      exec .sPayload s = .next (returned
        { r' with continuationExpected := ceAfter r.cur r.continuationExpected, state := .opcodeByte }
        { consumed := c.consumed + n, event := .payload out r.userCtx, frameComplete := true,
          status := .ok } s)) ∧
    (c.avail ≠ 0 → c.cbs = 0 → n < r.payloadRemaining.toNat →
      exec .sPayload s = .next (returned r'
        { consumed := c.consumed + n, event := .payload out r.userCtx,
          frameComplete := c.frameComplete, status := .ok } s))

/-- R175: the row `S_DONE` is the implicit reset to `S_OPCODE_BYTE`; nothing else changes. That the call goes on
is the model's choice (log 11): the spec dispatches no handler on `S_DONE`.
The row runs for every value of `state`, also one that names another sub-state: the model's choice (log 14). -/
def Obligations.DoneIsTheImplicitReset : Prop :=
  ∀ (s : State) (r : Regs) (c : Call), s.InCall r c →
    exec .sDone s = .next (running { r with state := .opcodeByte } c s)

/-- R130 and R281: a handler runs inside a call on a Decoding instance and nowhere else. The two refusals are the
model's (log 8). -/
def Obligations.HandlersRunInsideACallOnly : Prop :=
  ∀ (s : State) (st : SubState),
    (s.decoder = .failed → exec (handlerInstr st) s = .refused .processAfterFailure) ∧
    (∀ r, s.Idle r → exec (handlerInstr st) s = .refused .handlerOutsideCall)

/-- R134's requirement: outside it the two accumulating handlers stop, the model's choice (log 11).
The row runs for every value of `state`, also one that names another sub-state: the model's choice (log 14). -/
def Obligations.AccumulatorOverrunStops : Prop :=
  ∀ (s : State) (r : Regs) (c : Call), s.InCall r c →
    (r.extWidth.bytes < r.scratchCount.toNat →
      exec .sExtendedLength s = .fault .accumulatorOverrun) ∧
    (4 < r.scratchCount.toNat → exec .sMaskingKey s = .fault .accumulatorOverrun)

/-- 42_process.md R203: the only transitions between sub-states, for a handler after which the call goes on
and for one that ends it without an error (a `Starved` handler stays; `S_DONE` and its implicit reset are one
step, so 6 and 7 reach 1). Every other transition goes to a higher number. The pair 8 to 1 after which the call
goes on is the model's choice (log 11): the spec dispatches no handler on `S_DONE`. -/
def Obligations.TransitionsAreForwardOnly : Prop :=
  ∀ (s t : State) (r : Regs) (c : Call), s.InCall r c →
    exec (handlerInstr r.state) s = .next t →
    (∀ r' c', t.InCall r' c' → (r.state, r'.state) ∈
      [(SubState.opcodeByte, SubState.lengthByte), (.lengthByte, .maskingKeyCheck),
       (.lengthByte, .extendedLength), (.extendedLength, .maskingKeyCheck),
       (.maskingKeyCheck, .payloadCheck), (.maskingKeyCheck, .maskingKey),
       (.maskingKey, .payloadCheck), (.done, .opcodeByte)]) ∧
    (∀ r', t.Idle r' → (r.state, r'.state) ∈
      [(SubState.opcodeByte, SubState.opcodeByte), (.lengthByte, .lengthByte),
       (.extendedLength, .extendedLength), (.maskingKey, .maskingKey),
       (.payloadCheck, .payload), (.payloadCheck, .opcodeByte),
       (.payload, .payload), (.payload, .opcodeByte)])

/-! ### PROCESS and RESET (42_process.md) -/

/-- R201: PROCESS runs the handlers that `state` selects, one after another, until one ends the call. -/
def Obligations.ProcessRunsTheSelectedHandlers : Prop :=
  ∀ (s : State) (r : Regs) (span : List Byte) (cbs : CbStatus), s.Idle r →
    exec (.process span cbs) s =
      runHandlers (Config.maxHandlers + 1)
        (running r { span := span, consumed := 0, event := .none, frameComplete := false, cbs := cbs } s)

/-- R210, R281, R314, R315: PROCESS has no step on a Failed instance, and neither operation has one while a
call is in progress. The names of the refusals are the model's (log 8). -/
def Obligations.ProcessIsRefusedAfterFailure : Prop :=
  ∀ (s : State) (span : List Byte) (cbs : CbStatus) (ctx : Ctx),
    (s.decoder = .failed → s.call = none →
      exec (.process span cbs) s = .refused .processAfterFailure) ∧
    (∀ c, s.call = some c →
      exec (.process span cbs) s = .refused .overlappingCall ∧
      exec (.reset ctx) s = .refused .overlappingCall)

/-- Where PROCESS completes: on an instance between two calls it answers a next state, reports one result,
and leaves the channels alone.
That the row leaves `answers` and `answerClock` alone, its answer being an operand, is the model's choice (log 5), and
so is that it leaves `commands` alone (log 10). -/
def Obligations.ProcessCompletesBetweenCalls : Prop :=
  ∀ (s : State) (r : Regs) (span : List Byte) (cbs : CbStatus), s.Idle r → r.Inv →
    ∃ (t : State) (res : CallResult), exec (.process span cbs) s = .next t ∧
      t.call = none ∧ t.results = s.results ++ [res] ∧ res.good = true ∧
      t.commands = s.commands ∧ t.answers = s.answers ∧ t.answerClock = s.answerClock ∧
      (t.decoder = .failed ↔ res.status ≠ .ok) ∧
      (∀ r', t.decoder = .decoding r' → r'.userCtx = r.userCtx)

/-- R211: a call on a non-empty span consumes at least one byte; a call on an empty span changes nothing. -/
def Obligations.ProcessMakesProgress : Prop :=
  ∀ (s : State) (r : Regs) (span : List Byte) (cbs : CbStatus), s.Idle r → r.Inv →
    (span ≠ [] → ∃ (t : State) (res : CallResult), exec (.process span cbs) s = .next t ∧
      t.results = s.results ++ [res] ∧ 1 ≤ res.consumed) ∧
    (span = [] →
      exec (.process span cbs) s =
        .next { s with results := s.results ++ [⟨0, .none, false, .ok⟩] })

/-- R212: six handlers are enough, and a call consumes at most 14 bytes from a header state and at most
`min(|span|, payload_remaining)` from `S_PAYLOAD`. -/
def Obligations.ProcessIsBounded : Prop :=
  ∀ (s : State) (r : Regs) (span : List Byte) (cbs : CbStatus), s.Idle r → r.state ≠ .done →
    dispatch 6 s r (Call.start span cbs) = exec (.process span cbs) s ∧
    exec (.process span cbs) s ≠ .fault .loopLimit ∧
    ∀ (t : State) (res : CallResult), exec (.process span cbs) s = .next t →
      t.results = s.results ++ [res] →
      res.consumed ≤ span.length ∧
      (r.state ≠ .payload → res.consumed ≤ 14) ∧
      (r.state = .payload → res.consumed ≤ min span.length r.payloadRemaining.toNat)

/-- R216: bytes are left over after `Ok` only when an event was fired. -/
def Obligations.LeftoverOnlyAfterAnEvent : Prop :=
  ∀ (s t : State) (r : Regs) (span : List Byte) (cbs : CbStatus) (res : CallResult),
    s.Idle r → r.Inv → exec (.process span cbs) s = .next t → t.results = s.results ++ [res] →
    res.status = .ok → res.consumed < span.length → res.event ≠ .none

/-- R204, R205: `frame_complete` comes with an event, without an error, and with the next byte being byte 0
of the next frame. -/
def Obligations.FrameCompleteAtTheBoundary : Prop :=
  ∀ (s t : State) (r : Regs) (span : List Byte) (cbs : CbStatus) (res : CallResult),
    s.Idle r → exec (.process span cbs) s = .next t → t.results = s.results ++ [res] →
    res.frameComplete = true →
    res.event ≠ .none ∧ res.status = .ok ∧ ∃ r', t.decoder = .decoding r' ∧ r'.state = .opcodeByte

/-- R206, R207, R41: the event of a call carries the user context unmodified; a HEADER event carries a copy
of `cur`; a PAYLOAD event has 1 to `payload_remaining` bytes. -/
def Obligations.EventsCarryHeaderAndContext : Prop :=
  ∀ (s t : State) (r r' : Regs) (span : List Byte) (cbs : CbStatus) (res : CallResult),
    s.Idle r → r.Inv → exec (.process span cbs) s = .next t → t.results = s.results ++ [res] →
    (∀ h ctx, res.event = .header h ctx →
      ctx = r.userCtx ∧ (t.decoder = .decoding r' → h = r'.cur)) ∧
    (∀ bytes ctx, res.event = .payload bytes ctx →
      ctx = r.userCtx ∧ 1 ≤ bytes.length ∧ bytes.length = res.consumed ∧
      bytes.length ≤ r.payloadRemaining.toNat)

/-- 42_process.md R208: after an event a non-zero answer ends the call with `E_CALLBACK` carrying it unchanged
and leaves the instance Failed; a zero answer never does; and the instance after the call depends on the answer
only through whether it is zero. -/
def Obligations.CallbackAnswerMattersOnlyByZero : Prop :=
  ∀ (s t : State) (r : Regs) (span : List Byte) (cbs : CbStatus) (res : CallResult),
    s.Idle r → exec (.process span cbs) s = .next t → t.results = s.results ++ [res] →
    (cbs ≠ 0 → res.event ≠ .none → res.status = .err (.eCallback cbs) ∧ t.decoder = .failed) ∧
    (cbs = 0 → ∀ q, res.status ≠ .err (.eCallback q)) ∧
    ∀ cbs' : CbStatus, (cbs' = 0 ↔ cbs = 0) →
      ∃ t', exec (.process span cbs') s = .next t' ∧ t'.decoder = t.decoder

/-- The context is opaque (00_scope.md R7, 10_state.md R41): a call is the same for every context but for
the context that the registers keep and the event carries. -/
def Obligations.ContextNeverSteersACall : Prop :=
  ∀ (s : State) (r : Regs) (span : List Byte) (cbs : CbStatus) (ctx : Ctx), s.Idle r →
    ∀ (t : State) (res : CallResult), exec (.process span cbs) s = .next t →
      t.results = s.results ++ [res] →
      ∃ (t' : State) (res' : CallResult),
        exec (.process span cbs) { s with decoder := .decoding { r with userCtx := ctx } } = .next t' ∧
        t'.results = s.results ++ [res'] ∧
        res'.consumed = res.consumed ∧ res'.frameComplete = res.frameComplete ∧
        res'.status = res.status ∧
        (∀ h d, res.event = .header h d → res'.event = .header h ctx) ∧
        (∀ bytes d, res.event = .payload bytes d → res'.event = .payload bytes ctx) ∧
        (res.event = .none → res'.event = .none) ∧
        (∀ r₁, t.decoder = .decoding r₁ → t'.decoder = .decoding { r₁ with userCtx := ctx }) ∧
        (t.decoder = .failed → t'.decoder = .failed)

/-- R209 with 10_state.md R44: RESET gives every register its reset value, in any mode, fires nothing and
consumes nothing. The zeros are the spec's decision D9. -/
def Obligations.ResetGivesTheResetRegisters : Prop :=
  ∀ (s : State) (ctx : Ctx), s.call = none →
    exec (.reset ctx) s = .next { s with
      decoder := .decoding ⟨.opcodeByte, false,
        ⟨false, ⟨false, false, false⟩, false, 0x00, 0, #v[0, 0, 0, 0]⟩,
        #v[0, 0, 0, 0, 0, 0, 0, 0], 0, .none, 0, 0, ctx⟩ }

/-! ### The step -/

/-- A step is one transaction of the host: idle with no command; RESET; PROCESS with the next answer, and
then the host's side (left-over bytes are presented again first, R317). The host in State is the model's choice
(logs 5, 10). -/
def Obligations.StepRunsTheOldestCommand : Prop :=
  ∀ (s : State) (rest : List Command), s.call = none →
    (s.commands = [] → step s = .next s) ∧
    (∀ ctx, s.commands = .reset ctx :: rest →
      step s = exec (.reset ctx) { s with commands := rest }) ∧
    (∀ span, s.commands = .process span :: rest →
      (∀ t, exec (.process span (nextAnswer s)) { s with commands := rest } = .next t →
        step s = .next (settle span t)) ∧
      (∀ q, exec (.process span (nextAnswer s)) { s with commands := rest } = .refused q →
        step s = .refused q))

/-- While a call is in progress a step runs the row whose word is the value of `state` (10_state.md R22, R34),
and then, when that ended the call, the host's side. The model's own intermediate state (log 11): the spec's step
is a whole transaction.
A value of `state` as one byte is log 7. -/
def Obligations.StepRunsTheHandlerStateSelects : Prop :=
  ∀ (s : State) (r : Regs) (c : Call) (i : Instr), s.InCall r c →
    decode .stateReg [r.state.code.setWidth 8] = .ok i [] →
    (∀ t, exec i s = .next t → step s = .next (afterHandler c.span t)) ∧
    (∀ f, exec i s = .fault f → step s = .fault f) ∧
    (∀ q, exec i s ≠ .refused q)

/-- A word of the table placed where the step takes its next instruction: on an instance between calls the
next step runs exactly the instruction the decoder reads from it (byte 0 read as the frame it begins): the model's
choice (logs 7, 10). -/
def Obligations.StepRunsTheFetchedWord : Prop :=
  ∀ (s : State) (r : Regs) (w : Nat), s.Idle r → w < 256 →
    ∃ i, decodeTableWord 8 w = some i ∧
      step (s.withFetchWord 8 w) =
        exec i { s.withFetchWord 8 w with commands := s.commands }

/-- The bytes of a frame at the head of the CMD channel: the steps that present them run the frame
instruction. `n` is the number of calls it takes. The host that presents left-over bytes again is the model's
(log 10), and so are its answers (log 5). -/
def Obligations.StepsRunTheDecodedFrame : Prop :=
  ∀ (s t : State) (r : Regs) (op : BitVec 4) (f : Frame) (rest : List Command),
    s.Idle r → r.Inv → f.wf = true →
    s.commands = .process (encodeFrame op f) :: rest →
    exec (Instr.ofOpcode op f) { s with commands := rest } = .next t →
    ∃ n, 1 ≤ n ∧ n ≤ (encodeFrame op f).length ∧
      Host.Core.run Sys2Proof.core n s = .next t

/-- 60_exceptions.md R283: Failed is left only by RESET, and entered only by a call that reports an error. -/
def Obligations.ModeChangesByErrorOrReset : Prop :=
  ∀ (s t : State), s.call = none → step s = .next t →
    (s.mode = .failed → t.mode = .decoding → ∃ ctx rest, s.commands = .reset ctx :: rest) ∧
    (s.mode = .decoding → t.mode = .failed →
      ∃ res e, t.results = s.results ++ [res] ∧ res.status = .err e)

/-! ### The invariant -/

/-- The invariant holds at reset (`State.reset` rests on logs 2 and 5; the invariant reads none of their values). -/
def Obligations.ResetMeetsTheInvariant : Prop := State.reset.Inv

/-- Every step keeps the invariant (10_state.md R24, R25, R30, R31, R36, R37, R40; 42_process.md R204 to
R207). -/
def Obligations.StepKeepsTheInvariant : Prop :=
  ∀ (s t : State), s.Inv → step s = .next t → t.Inv

/-- From a state that meets the invariant a step never faults, and it is refused only for a PROCESS on a
Failed instance: the model's "no step" (log 8). -/
def Obligations.StepStopsOnlyAfterFailure : Prop :=
  ∀ (s : State), s.Inv →
    (∃ t, step s = .next t) ∨
    (step s = .refused .processAfterFailure ∧ s.decoder = .failed ∧
      ∃ span rest, s.commands = .process span :: rest)

/-! ### Frames (43_frame_opcodes.md) -/

/-- R241 with R240: a CONTINUATION frame at a frame boundary inside a fragmented message runs to its end.
The events use up
answers and move `answerClock`, the model's choice (log 5); so are the frame as its bytes through FEED in one span
and the payload as one chunk (log 10). The registers completion keeps are the spec's decision D28. -/
def Obligations.ContinuationFrameRuns : Prop :=
  ∀ (s : State) (r : Regs) (f : Frame), s.Idle r → r.state = .opcodeByte →
    f.wf = true → f.len.reserved = false → s.Answered (frameEvents f) →
    r.continuationExpected = true →
    exec (.continuation f) s = .next (afterFrame 0x0 f r s)

/-- R242 to R248 with R240: a data frame that starts a message, at a frame boundary with no message open,
runs to its end. The events use up
answers and move `answerClock`, the model's choice (log 5); so are the frame as its bytes through FEED in one span
and the payload as one chunk (log 10). The registers completion keeps are the spec's decision D28. -/
def Obligations.StartingDataFramesRun : Prop :=
  ∀ (s : State) (r : Regs) (f : Frame) (op : BitVec 4) (i : Instr), s.Idle r → r.state = .opcodeByte →
    f.wf = true → f.len.reserved = false → s.Answered (frameEvents f) →
    r.continuationExpected = false →
    (op, i) ∈ [((0x1 : BitVec 4), Instr.text f), (0x2, .binary f), (0x3, .data3 f), (0x4, .data4 f),
      (0x5, .data5 f), (0x6, .data6 f), (0x7, .data7 f)] →
    exec i s = .next (afterFrame op f r s)

/-- R249 to R256 with R240: an unfragmented control frame at a frame boundary runs to its end, whether or
not a message is open. The events use up
answers and move `answerClock`, the model's choice (log 5); so are the frame as its bytes through FEED in one span
and the payload as one chunk (log 10). The registers completion keeps are the spec's decision D28. -/
def Obligations.ControlFramesRun : Prop :=
  ∀ (s : State) (r : Regs) (f : Frame) (op : BitVec 4) (i : Instr), s.Idle r → r.state = .opcodeByte →
    f.wf = true → f.len.reserved = false → s.Answered (frameEvents f) →
    f.fin = true →
    (op, i) ∈ [((0x8 : BitVec 4), Instr.close f), (0x9, .ping f), (0xA, .pong f), (0xB, .ctrlb f),
      (0xC, .ctrlc f), (0xD, .ctrld f), (0xE, .ctrle f), (0xF, .ctrlf f)] →
    exec i s = .next (afterFrame op f r s)

/-- R241 to R256: a frame whose byte 0 breaks the fragmentation rule raises `E_FRAG` with its cause; one
byte is consumed (the spec's decision D14), no event is fired. The row as its bytes
through FEED is the model's choice (log 10). -/
def Obligations.MisplacedFramesRaiseEFrag : Prop :=
  ∀ (s : State) (r : Regs) (f : Frame) (op : BitVec 4), s.Idle r → r.state = .opcodeByte →
    (op = 0x0 → r.continuationExpected = false →
      exec (Instr.ofOpcode op f) s =
        .next (failedWith 1 .none (.eFrag .unexpectedContinuation) s)) ∧
    (0x1 ≤ op → op ≤ 0x7 → r.continuationExpected = true →
      exec (Instr.ofOpcode op f) s =
        .next (failedWith 1 .none (.eFrag .continuationExpected) s)) ∧
    (0x8 ≤ op → f.fin = false →
      exec (Instr.ofOpcode op f) s =
        .next (failedWith 1 .none (.eFrag .fragmentedControl) s))

/-- 30_encoding.md R94, 60_exceptions.md R272: an accepted frame with a reserved 64-bit length raises
`E_RSVLEN` when the eighth length byte is consumed (the spec's decision D14). The row
as its bytes through FEED is the model's choice (log 10). -/
def Obligations.ReservedLengthRaisesERsvlen : Prop :=
  ∀ (s : State) (r : Regs) (f : Frame) (op : BitVec 4) (v : Word64), s.Idle r → r.state = .opcodeByte →
    f.wf = true → f.len = .len64 v → v.getLsbD 63 = true →
    fragCheck f.fin (op.setWidth 8) r.continuationExpected = none →
    exec (Instr.ofOpcode op f) s = .next (failedWith 10 .none (.eRsvlen v) s)

/-- 60_exceptions.md R273: a host that answers a frame's HEADER event with a failure ends the stream there;
the payload is never read. `nextAnswer` as the host's answer, and its being used up, are the model's choice (log 5);
so is the frame as its bytes through FEED (log 10). That `frame_complete` is then false is the spec's decision D18. -/
def Obligations.FailingHeaderCallbackEndsTheFrame : Prop :=
  ∀ (s : State) (r : Regs) (f : Frame) (op : BitVec 4), s.Idle r → r.state = .opcodeByte →
    f.wf = true → f.len.reserved = false → nextAnswer s ≠ 0 →
    fragCheck f.fin (op.setWidth 8) r.continuationExpected = none →
    exec (Instr.ofOpcode op f) s =
      .next (useAnswers 1 (failedWith (headerBytes f.masked f.len)
        (.header (frameHeader op f) r.userCtx) (.eCallback (nextAnswer s)) s))

/-! ### The forms of byte 1 -/

/-- Rows LEN7, LEN16, LEN64 of an unmasked frame and row UNMASKED (R133, R135, R136): in `S_LENGTH_BYTE` the
header is completed with key 00 00 00 00 and HEADER is fired. The event uses up one
answer and moves `answerClock`, the model's choice (log 5); so is the row as its bytes through FEED (log 10). -/
def Obligations.UnmaskedFormsCompleteTheHeader : Prop :=
  ∀ (s : State) (r hr : Regs) (len : LenField) (i : Instr), s.Idle r → r.state = .lengthByte →
    len.wf = true → len.reserved = false → s.Answered 1 →
    i = .unmasked len ∨ (∃ code, len = .len7 code ∧ i = .len7 false code) ∨
      (∃ v, len = .len16 v ∧ i = .len16 false v) ∨ (∃ v, len = .len64 v ∧ i = .len64 false v) →
    hr = headerRegs false len Key.zero r →
    exec i s = .next (useAnswers 1
      (returned (afterHeader hr) (headerResult (1 + extBytesOf len) hr) s))

/-- Rows LEN7, LEN16, LEN64 of a masked frame (R133, R135, R136): in `S_LENGTH_BYTE` the length is taken and
the parser waits for the key. The row as its bytes through FEED is the model's choice (log 10). -/
def Obligations.MaskedLengthsWaitForTheKey : Prop :=
  ∀ (s : State) (r : Regs) (len : LenField) (i : Instr), s.Idle r → r.state = .lengthByte →
    len.wf = true → len.reserved = false →
    (∃ code, len = .len7 code ∧ i = .len7 true code) ∨
      (∃ v, len = .len16 v ∧ i = .len16 true v) ∨ (∃ v, len = .len64 v ∧ i = .len64 true v) →
    exec i s = .next (returned
      { r with
          cur := { r.cur with masked := true, payloadLength := len.value }
          extWidth := extWidthAfter len r, scratchCount := 0, scratch := Scratch.zero
          state := .maskingKey }
      (starvedResult (1 + extBytesOf len)) s)

/-- Row MASKED (R136, R137): in `S_LENGTH_BYTE` the header is completed with its key and HEADER is fired.
The event uses up one
answer and moves `answerClock`, the model's choice (log 5); so is the row as its bytes through FEED (log 10). -/
def Obligations.MaskedFormCompletesTheHeader : Prop :=
  ∀ (s : State) (r hr : Regs) (len : LenField) (key : Key), s.Idle r → r.state = .lengthByte →
    len.wf = true → len.reserved = false → s.Answered 1 →
    hr = headerRegs true len key r →
    exec (.masked len key) s = .next (useAnswers 1
      (returned (afterHeader hr) (headerResult (5 + extBytesOf len) hr) s))

/-- 30_encoding.md R102: a reserved 64-bit length raises `E_RSVLEN` in every form that carries one.
The row as its bytes through FEED is the model's choice (log 10). -/
def Obligations.ReservedFormsRaiseERsvlen : Prop :=
  ∀ (s : State) (r : Regs) (v : Word64) (key : Key) (i : Instr), s.Idle r → r.state = .lengthByte →
    v.getLsbD 63 = true →
    i ∈ [.len64 false v, .len64 true v, .unmasked (.len64 v), .masked (.len64 v) key] →
    exec i s = .next (failedWith 9 .none (.eRsvlen v) s)

/-! ### The stream (42_process.md) -/

/-- R214: however a stream is cut into spans, `FEED` gives the same headers, the same payload bytes of each
frame, `frame_complete` at the same places, the same error and the same registers, when the host answers
every event with success (its answers in State are the model's choice, log 5). -/
def Obligations.PartitionInvariance : Prop :=
  ∀ (s t : State) (r : Regs) (xs ys : List (List Byte)), s.Idle r → r.Inv →
    s.Answered xs.flatten.length → xs.flatten = ys.flatten → feedAll xs s = .next t →
    ∃ t', feedAll ys s = .next t' ∧ t'.decoder = t.decoder ∧
      observed t'.results = observed t.results

/-- R215: what a reference encoder writes is what the host is given: the header's fields and, byte for byte,
the unmasked payload, however the frame is cut into spans, when the host answers every event with success (log 5). -/
def Obligations.RoundTripThroughAnyPartition : Prop :=
  ∀ (s : State) (r : Regs) (f : Frame) (op : BitVec 4) (spans : List (List Byte)),
    s.Idle r → r.Inv → r.state = .opcodeByte → f.wf = true → f.len.reserved = false →
    fragCheck f.fin (op.setWidth 8) r.continuationExpected = none →
    s.Answered (encodeFrame op f).length → spans.flatten = encodeFrame op f →
    ∃ t, feedAll spans s = .next t ∧ t.decoder = .decoding (frameRegs op f r) ∧
      observed t.results = observed s.results ++
        (.header (frameHeader op f) r.userCtx :: f.payload.map fun b => .byte b r.userCtx) ++
        [.frameComplete]
end

