-- ==== Sys2Proof/Laws/Bytes.lean ====
section
/-! SUPPORT. Laws of the bit fields, the byte order and the XOR datapath. -/

namespace Sys2Proof

/-! ### Byte 0 and byte 1 -/

@[simp] theorem byte0Fin_encodeByte0 (fin : Bool) (rsv : Rsv) (op : BitVec 4) :
    byte0Fin (encodeByte0 fin rsv op) = fin := by
  obtain ⟨r0, r1, r2⟩ := rsv
  cases fin <;> cases r0 <;> cases r1 <;> cases r2 <;> revert op <;> decide

@[simp] theorem byte0Rsv_encodeByte0 (fin : Bool) (rsv : Rsv) (op : BitVec 4) :
    byte0Rsv (encodeByte0 fin rsv op) = rsv := by
  obtain ⟨r0, r1, r2⟩ := rsv
  cases fin <;> cases r0 <;> cases r1 <;> cases r2 <;> revert op <;> decide

@[simp] theorem byte0Opcode_encodeByte0 (fin : Bool) (rsv : Rsv) (op : BitVec 4) :
    byte0Opcode (encodeByte0 fin rsv op) = op := by
  obtain ⟨r0, r1, r2⟩ := rsv
  cases fin <;> cases r0 <;> cases r1 <;> cases r2 <;> revert op <;> decide

@[simp] theorem byte1Masked_encodeByte1 (m : Bool) (code : BitVec 7) :
    byte1Masked (encodeByte1 m code) = m := by
  cases m <;> revert code <;> decide

@[simp] theorem byte1Code_encodeByte1 (m : Bool) (code : BitVec 7) :
    byte1Code (encodeByte1 m code) = code := by
  cases m <;> revert code <;> decide

theorem encodeByte0_fields (b : Byte) : encodeByte0 (byte0Fin b) (byte0Rsv b) (byte0Opcode b) = b := by
  revert b; decide

theorem encodeByte1_fields (b : Byte) : encodeByte1 (byte1Masked b) (byte1Code b) = b := by
  revert b; decide

/-- The opcode register is the low four bits of byte 0. -/
theorem byte0Opcode_setWidth (b : Byte) : (byte0Opcode b).setWidth 8 = b &&& 0x0F := by
  revert b; decide

/-- The length code as a number is the low seven bits of byte 1. -/
theorem byte1Code_setWidth (b : Byte) : (byte1Code b).setWidth 8 = b &&& 0x7F := by
  revert b; decide

/-! ### Big-endian assembly (20_memory.md R62) -/

theorem bigEndian_append (xs : List Byte) (b : Byte) :
    bigEndian (xs ++ [b]) = bigEndian xs * 256 + b.toNat := by
  simp [bigEndian]

theorem bigEndian_two (y0 y1 : Byte) : bigEndian [y0, y1] = y0.toNat * 256 + y1.toNat := by
  simp [bigEndian]

theorem bigEndian_extBytes16 (v : BitVec 16) :
    bigEndian (LenField.len16 v).extBytes = v.toNat := by
  simp only [LenField.extBytes, bigEndian, List.foldl, BitVec.extractLsb'_toNat]
  have := v.isLt
  simp only [Nat.shiftRight_eq_div_pow]
  omega

theorem bigEndian_extBytes64 (v : Word64) :
    bigEndian (LenField.len64 v).extBytes = v.toNat := by
  simp only [LenField.extBytes, bigEndian, List.foldl, BitVec.extractLsb'_toNat]
  have := v.isLt
  simp only [Nat.shiftRight_eq_div_pow]
  omega

/-- The top bit of the first of eight bytes is bit 63 of the value. -/
theorem bigEndian_eight_lt (y0 y1 y2 y3 y4 y5 y6 y7 : Byte) :
    bigEndian [y0, y1, y2, y3, y4, y5, y6, y7] < 2 ^ 64 := by
  simp only [bigEndian, List.foldl]
  have := y0.isLt; have := y1.isLt; have := y2.isLt; have := y3.isLt
  have := y4.isLt; have := y5.isLt; have := y6.isLt; have := y7.isLt
  omega

/-! ### The XOR datapath (41_payload_states.md R173) -/

@[simp] theorem unmaskBytes_length (key : Key) (p : Word64) (ws : List Byte) :
    (unmaskBytes key p ws).length = ws.length := by
  induction ws generalizing p with
  | nil => rfl
  | cons w ws ih => simp [unmaskBytes, ih]

@[simp] theorem unmaskBytes_eq_nil (key : Key) (p : Word64) (ws : List Byte) :
    unmaskBytes key p ws = [] ↔ ws = [] := by
  cases ws <;> simp [unmaskBytes]

theorem unmask_unmask (w : Byte) (key : Key) (p : Word64) : unmask (unmask w key p) key p = w := by
  simp [unmask]

end Sys2Proof
end

