-- ==== Sys2Proof/Laws/State.lean ====
section
/-! SUPPORT. One lemma per field per update, so that no later proof unfolds a record update. -/

namespace Sys2Proof.Machine

/-! ### `State.setDecoder` -/

@[simp] theorem State.setDecoder_decoder (d : Decoder) (s : State) :
    (s.setDecoder d).decoder = d := rfl
@[simp] theorem State.setDecoder_call (d : Decoder) (s : State) :
    (s.setDecoder d).call = s.call := rfl
@[simp] theorem State.setDecoder_commands (d : Decoder) (s : State) :
    (s.setDecoder d).commands = s.commands := rfl
@[simp] theorem State.setDecoder_answers (d : Decoder) (s : State) :
    (s.setDecoder d).answers = s.answers := rfl
@[simp] theorem State.setDecoder_answerClock (d : Decoder) (s : State) :
    (s.setDecoder d).answerClock = s.answerClock := rfl
@[simp] theorem State.setDecoder_results (d : Decoder) (s : State) :
    (s.setDecoder d).results = s.results := rfl

/-! ### `State.setCall` -/

@[simp] theorem State.setCall_decoder (c : Option Call) (s : State) :
    (s.setCall c).decoder = s.decoder := rfl
@[simp] theorem State.setCall_call (c : Option Call) (s : State) :
    (s.setCall c).call = c := rfl
@[simp] theorem State.setCall_commands (c : Option Call) (s : State) :
    (s.setCall c).commands = s.commands := rfl
@[simp] theorem State.setCall_answers (c : Option Call) (s : State) :
    (s.setCall c).answers = s.answers := rfl
@[simp] theorem State.setCall_answerClock (c : Option Call) (s : State) :
    (s.setCall c).answerClock = s.answerClock := rfl
@[simp] theorem State.setCall_results (c : Option Call) (s : State) :
    (s.setCall c).results = s.results := rfl

/-! ### `State.setCommands` -/

@[simp] theorem State.setCommands_decoder (cs : List Command) (s : State) :
    (s.setCommands cs).decoder = s.decoder := rfl
@[simp] theorem State.setCommands_call (cs : List Command) (s : State) :
    (s.setCommands cs).call = s.call := rfl
@[simp] theorem State.setCommands_commands (cs : List Command) (s : State) :
    (s.setCommands cs).commands = cs := rfl
@[simp] theorem State.setCommands_answers (cs : List Command) (s : State) :
    (s.setCommands cs).answers = s.answers := rfl
@[simp] theorem State.setCommands_answerClock (cs : List Command) (s : State) :
    (s.setCommands cs).answerClock = s.answerClock := rfl
@[simp] theorem State.setCommands_results (cs : List Command) (s : State) :
    (s.setCommands cs).results = s.results := rfl

/-! ### `State.pushResult` -/

@[simp] theorem State.pushResult_decoder (r : CallResult) (s : State) :
    (s.pushResult r).decoder = s.decoder := rfl
@[simp] theorem State.pushResult_call (r : CallResult) (s : State) :
    (s.pushResult r).call = s.call := rfl
@[simp] theorem State.pushResult_commands (r : CallResult) (s : State) :
    (s.pushResult r).commands = s.commands := rfl
@[simp] theorem State.pushResult_answers (r : CallResult) (s : State) :
    (s.pushResult r).answers = s.answers := rfl
@[simp] theorem State.pushResult_answerClock (r : CallResult) (s : State) :
    (s.pushResult r).answerClock = s.answerClock := rfl
@[simp] theorem State.pushResult_results (r : CallResult) (s : State) :
    (s.pushResult r).results = s.results ++ [r] := rfl

/-! ### `State.setAnswers` -/

@[simp] theorem State.setAnswers_decoder (as : List CbStatus) (n : Nat) (s : State) :
    (s.setAnswers as n).decoder = s.decoder := rfl
@[simp] theorem State.setAnswers_call (as : List CbStatus) (n : Nat) (s : State) :
    (s.setAnswers as n).call = s.call := rfl
@[simp] theorem State.setAnswers_commands (as : List CbStatus) (n : Nat) (s : State) :
    (s.setAnswers as n).commands = s.commands := rfl
@[simp] theorem State.setAnswers_answers (as : List CbStatus) (n : Nat) (s : State) :
    (s.setAnswers as n).answers = as := rfl
@[simp] theorem State.setAnswers_answerClock (as : List CbStatus) (n : Nat) (s : State) :
    (s.setAnswers as n).answerClock = n := rfl
@[simp] theorem State.setAnswers_results (as : List CbStatus) (n : Nat) (s : State) :
    (s.setAnswers as n).results = s.results := rfl

/-! ### The instance -/

@[simp] theorem Decoder.mode_decoding (r : Regs) : (Decoder.decoding r).mode = .decoding := rfl
@[simp] theorem Decoder.mode_failed : Decoder.failed.mode = .failed := rfl

/-! ### The call -/

@[simp] theorem Call.consume_span (n : Nat) (c : Call) : (c.consume n).span = c.span := rfl
@[simp] theorem Call.consume_consumed (n : Nat) (c : Call) :
    (c.consume n).consumed = c.consumed + n := rfl
@[simp] theorem Call.consume_event (n : Nat) (c : Call) : (c.consume n).event = c.event := rfl
@[simp] theorem Call.consume_frameComplete (n : Nat) (c : Call) :
    (c.consume n).frameComplete = c.frameComplete := rfl
@[simp] theorem Call.consume_cbs (n : Nat) (c : Call) : (c.consume n).cbs = c.cbs := rfl
@[simp] theorem fire_span (ev : Event) (c : Call) : (fire ev c).span = c.span := rfl
@[simp] theorem fire_consumed (ev : Event) (c : Call) : (fire ev c).consumed = c.consumed := rfl
@[simp] theorem fire_event (ev : Event) (c : Call) : (fire ev c).event = ev := rfl
@[simp] theorem fire_frameComplete (ev : Event) (c : Call) :
    (fire ev c).frameComplete = c.frameComplete := rfl
@[simp] theorem fire_cbs (ev : Event) (c : Call) : (fire ev c).cbs = c.cbs := rfl
@[simp] theorem completeCall_consumed (c : Call) : (completeCall c).consumed = c.consumed := rfl
@[simp] theorem completeCall_event (c : Call) : (completeCall c).event = c.event := rfl
@[simp] theorem completeCall_frameComplete (c : Call) : (completeCall c).frameComplete = true := rfl
@[simp] theorem Call.start_span (span : List Byte) (q : CbStatus) : (Call.start span q).span = span := rfl
@[simp] theorem Call.start_consumed (span : List Byte) (q : CbStatus) :
    (Call.start span q).consumed = 0 := rfl
@[simp] theorem Call.start_event (span : List Byte) (q : CbStatus) :
    (Call.start span q).event = .none := rfl
@[simp] theorem Call.start_frameComplete (span : List Byte) (q : CbStatus) :
    (Call.start span q).frameComplete = false := rfl
@[simp] theorem Call.start_cbs (span : List Byte) (q : CbStatus) : (Call.start span q).cbs = q := rfl
@[simp] theorem Call.start_unread (span : List Byte) (q : CbStatus) :
    (Call.start span q).unread = span := rfl
@[simp] theorem Call.start_avail (span : List Byte) (q : CbStatus) :
    (Call.start span q).avail = span.length := rfl

/-- `avail` counts the unread bytes. -/
theorem Call.unread_length (c : Call) : c.unread.length = c.avail := by
  simp [Call.unread, Call.avail]

/-- Consuming drops the bytes consumed. -/
theorem Call.unread_consume (n : Nat) (c : Call) : (c.consume n).unread = c.unread.drop n := by
  simp [Call.unread, Call.consume, Nat.add_comm]

/-! ### The registers -/

@[simp] theorem accReset_state (r : Regs) : (accReset r).state = r.state := rfl
@[simp] theorem accReset_cur (r : Regs) : (accReset r).cur = r.cur := rfl
@[simp] theorem accReset_scratchCount (r : Regs) : (accReset r).scratchCount = 0 := rfl
@[simp] theorem accReset_scratch (r : Regs) : (accReset r).scratch = Scratch.zero := rfl
@[simp] theorem accReset_extWidth (r : Regs) : (accReset r).extWidth = r.extWidth := rfl
@[simp] theorem accReset_continuationExpected (r : Regs) :
    (accReset r).continuationExpected = r.continuationExpected := rfl
@[simp] theorem accReset_payloadRemaining (r : Regs) :
    (accReset r).payloadRemaining = r.payloadRemaining := rfl
@[simp] theorem accReset_maskingPosition (r : Regs) :
    (accReset r).maskingPosition = r.maskingPosition := rfl
@[simp] theorem accReset_userCtx (r : Regs) : (accReset r).userCtx = r.userCtx := rfl

@[simp] theorem filled_state (bs : List Byte) (r : Regs) : (filled bs r).state = r.state := rfl
@[simp] theorem filled_cur (bs : List Byte) (r : Regs) : (filled bs r).cur = r.cur := rfl
@[simp] theorem filled_extWidth (bs : List Byte) (r : Regs) : (filled bs r).extWidth = r.extWidth := rfl
@[simp] theorem filled_continuationExpected (bs : List Byte) (r : Regs) :
    (filled bs r).continuationExpected = r.continuationExpected := rfl
@[simp] theorem filled_payloadRemaining (bs : List Byte) (r : Regs) :
    (filled bs r).payloadRemaining = r.payloadRemaining := rfl
@[simp] theorem filled_maskingPosition (bs : List Byte) (r : Regs) :
    (filled bs r).maskingPosition = r.maskingPosition := rfl
@[simp] theorem filled_userCtx (bs : List Byte) (r : Regs) : (filled bs r).userCtx = r.userCtx := rfl

/-- `Complete()` changes `continuation_expected` and `state`, nothing else (41_payload_states.md R175). -/
theorem completeRegs_eq (r : Regs) :
    completeRegs r =
      { r with continuationExpected := ceAfter r.cur r.continuationExpected, state := .opcodeByte } := by
  unfold completeRegs doneReset fragUpdate ceAfter isControl
  cases h : r.cur.opcode.getLsbD 3 <;> simp

end Sys2Proof.Machine
end

