-- ==== Sys2Proof/Laws/Operands.lean ====
section
/-! SUPPORT. What the operand operations do: the next byte of the span, and the accumulator. -/

namespace Sys2Proof.Machine

theorem take1_nil {c : Call} (h : c.unread = []) : take1 c = none := by simp [take1, h]

theorem take1_cons {c : Call} {b : Byte} {rest : List Byte} (h : c.unread = b :: rest) :
    take1 c = some (b, c.consume 1) := by simp [take1, h]

/-- The byte at `j` after `bs` has been written from position `i` on. -/
theorem writeScratch_getElem (bs : List Byte) (sc : Scratch) (i : Nat) (j : Nat) (hj : j < 8) :
    (writeScratch sc i bs)[j] = if i ≤ j then bs.getD (j - i) sc[j] else sc[j] := by
  induction bs generalizing sc i with
  | nil => simp [writeScratch]
  | cons b bs ih =>
    rw [writeScratch, ih]
    simp only [Vector.getElem_setIfInBounds hj]
    rcases Nat.lt_trichotomy i j with h | h | h
    · obtain ⟨k, hk⟩ : ∃ k, j - i = k + 1 := ⟨j - i - 1, by omega⟩
      have h1 : j - (i + 1) = k := by omega
      simp [Nat.ne_of_lt h, Nat.le_of_lt h, Nat.succ_le_of_lt h, hk, h1]
    · subst h; simp
    · simp [show ¬ i + 1 ≤ j by omega, show ¬ i ≤ j by omega, show i ≠ j by omega]

/-- Storing bytes in the accumulator fills it as R134 says. -/
theorem storeScratch_eq_filled (bs : List Byte) (r : Regs) : storeScratch bs r = filled bs r := by
  unfold storeScratch filled
  congr 1
  apply Vector.ext
  intro j hj
  rw [writeScratch_getElem _ _ _ _ hj]
  simp

theorem filled_scratchCount_toNat {bs : List Byte} {r : Regs}
    (h : r.scratchCount.toNat + bs.length < 16) :
    (filled bs r).scratchCount.toNat = r.scratchCount.toNat + bs.length := by
  simp [filled, Nat.mod_eq_of_lt h]

/-- The bytes of the accumulator after `bs` has arrived. -/
theorem filled_scratch_getElem (bs : List Byte) (r : Regs) (j : Nat) (hj : j < 8) :
    (filled bs r).scratch[j] =
      if r.scratchCount.toNat ≤ j then bs.getD (j - r.scratchCount.toNat) r.scratch[j]
      else r.scratch[j] := by
  simp [filled]

/-- `Accumulate(width)` inside its requirement: it takes what the field still needs and the span has. -/
theorem accumulate_eq {width : Nat} {r : Regs} (c : Call) (hw : width ≤ 8)
    (h : r.scratchCount.toNat ≤ width) :
    accumulate width r c =
      let bs := c.unread.take (width - r.scratchCount.toNat)
      if r.scratchCount.toNat + bs.length = width then .complete (filled bs r) (c.consume bs.length)
      else .partly (filled bs r) (c.consume bs.length) := by
  have hl : c.unread.length = c.avail := c.unread_length
  have ht : c.unread.take (min c.avail (width - r.scratchCount.toNat)) =
      c.unread.take (width - r.scratchCount.toNat) := by
    rw [List.take_eq_take_iff]; omega
  have hn : min c.avail (width - r.scratchCount.toNat) =
      (c.unread.take (width - r.scratchCount.toNat)).length := by
    rw [List.length_take, hl]; omega
  have hb : (c.unread.take (width - r.scratchCount.toNat)).length ≤ width - r.scratchCount.toNat := by
    rw [List.length_take]; omega
  unfold accumulate takeN
  rw [if_neg (by omega)]
  simp only [storeScratch_eq_filled, ht]
  rw [← hn, filled_scratchCount_toNat (by omega), ← hn]

/-- `Accumulate` outside its requirement. -/
theorem accumulate_overrun {width : Nat} {r : Regs} (c : Call) (h : width < r.scratchCount.toNat) :
    accumulate width r c = .overrun := by
  simp [accumulate, h]

/-- The bytes of the accumulator in order. -/
theorem scratch_toList (sc : Scratch) :
    sc.toList = [sc[0], sc[1], sc[2], sc[3], sc[4], sc[5], sc[6], sc[7]] := by
  apply List.ext_getElem
  · simp
  · intro i h1 h2
    have : i < 8 := by simpa using h1
    interval_cases i <;> simp

/-- The 16-bit value of the accumulator. -/
theorem scratchValue_two (r : Regs) :
    scratchValue 2 r = (r.scratch[0] ++ r.scratch[1] : BitVec 16).setWidth 64 := by
  unfold scratchValue
  rw [scratch_toList]
  apply BitVec.eq_of_toNat_eq
  have h0 := r.scratch[0].isLt
  have h1 := r.scratch[1].isLt
  simp only [List.take, bigEndian, List.foldl, BitVec.toNat_ofNat, BitVec.toNat_setWidth,
    BitVec.toNat_append]
  rw [Nat.shiftLeft_eq, Nat.mul_comm _ (2 ^ 8), ← Nat.two_pow_add_eq_or_of_lt h1]
  omega

/-- The 64-bit value of the accumulator. -/
theorem scratchValue_eight (r : Regs) :
    scratchValue 8 r =
      (r.scratch[0] ++ r.scratch[1] ++ r.scratch[2] ++ r.scratch[3] ++
       r.scratch[4] ++ r.scratch[5] ++ r.scratch[6] ++ r.scratch[7] : BitVec 64) := by
  unfold scratchValue
  rw [scratch_toList]
  apply BitVec.eq_of_toNat_eq
  have h0 := r.scratch[0].isLt
  have h1 := r.scratch[1].isLt
  have h2 := r.scratch[2].isLt
  have h3 := r.scratch[3].isLt
  have h4 := r.scratch[4].isLt
  have h5 := r.scratch[5].isLt
  have h6 := r.scratch[6].isLt
  have h7 := r.scratch[7].isLt
  have app : ∀ (a x : Nat), x < 2 ^ 8 → a <<< 8 ||| x = a * 256 + x := by
    intro a x hx
    rw [Nat.shiftLeft_eq, Nat.mul_comm, ← Nat.two_pow_add_eq_or_of_lt hx]
  simp only [List.take, bigEndian, List.foldl, BitVec.toNat_ofNat, BitVec.toNat_append,
    app _ _ h1, app _ _ h2, app _ _ h3, app _ _ h4, app _ _ h5, app _ _ h6, app _ _ h7]
  omega

/-- Bit 63 of the 64-bit value is bit 7 of the first byte. -/
theorem scratchValue_eight_top (r : Regs) :
    (scratchValue 8 r).getLsbD 63 = r.scratch[0].getLsbD 7 := by
  rw [scratchValue_eight]
  simp only [BitVec.getLsbD_append]
  simp

end Sys2Proof.Machine
end

