-- ==== Sys2Proof/Laws/Calls.lean ====
section
/-! SUPPORT. What the shared operations around a handler do, once each: running a handler, the
dispatcher's reaction, the dispatcher's loop, PROCESS, and the host's side after a call. -/

namespace Sys2Proof.Machine

/-! ### A handler inside a call -/

/-- Inside a call a handler's row is its body and the dispatcher's reaction. -/
theorem runHandler_inCall {s : State} {r : Regs} {c : Call} (h : s.InCall r c)
    (body : Regs → Call → HandlerOut) : runHandler body s = conclude s (body r c) := by
  obtain ⟨hd, hc⟩ := h
  simp [runHandler, hd, hc]

theorem runHandler_failed {s : State} (h : s.decoder = .failed) (body : Regs → Call → HandlerOut) :
    runHandler body s = .refused .processAfterFailure := by
  simp [runHandler, h]

theorem runHandler_idle {s : State} {r : Regs} (h : s.Idle r) (body : Regs → Call → HandlerOut) :
    runHandler body s = .refused .handlerOutsideCall := by
  obtain ⟨hd, hc⟩ := h
  simp [runHandler, hd, hc]

/-- The row a sub-state selects runs the body of that sub-state. -/
theorem exec_handlerInstr (st : SubState) (s : State) :
    exec (handlerInstr st) s = runHandler (handlerBody st) s := by
  cases st <;> rfl

@[simp] theorem conclude_advance (s : State) (r : Regs) (c : Call) :
    conclude s (.advance r c) = .next (running r c s) := rfl

@[simp] theorem conclude_starved (s : State) (r : Regs) (c : Call) :
    conclude s (.starved r c) = .next (returned r (starvedResult c.consumed) s) := rfl

@[simp] theorem conclude_fired (s : State) (r : Regs) (c : Call) :
    conclude s (.fired r c) = .next (returned r
      { consumed := c.consumed, event := c.event, frameComplete := c.frameComplete, status := .ok } s) :=
  rfl

@[simp] theorem conclude_raised (s : State) (e : DecodeError) (c : Call) :
    conclude s (.raised e c) = .next (failedWith c.consumed c.event e s) := rfl

@[simp] theorem conclude_stuck (s : State) (f : Fault) : conclude s (.stuck f) = .fault f := rfl

/-! ### The dispatcher -/

/-- The dispatcher goes on after an advance. -/
theorem dispatch_advance {r r' : Regs} {c c' : Call} (k : Nat) (s : State)
    (h : handlerBody r.state r c = .advance r' c') :
    dispatch (k + 1) s r c = dispatch k s r' c' := by
  simp [dispatch, h]

/-- The dispatcher ends the call after anything else. -/
theorem dispatch_ends {r : Regs} {c : Call} (k : Nat) (s : State) {out : HandlerOut}
    (h : handlerBody r.state r c = out) (hne : ∀ r' c', out ≠ .advance r' c') :
    dispatch (k + 1) s r c = conclude s out := by
  cases out with
  | advance r' c' => exact absurd rfl (hne r' c')
  | _ => simp only [dispatch, h]

/-- PROCESS between two calls is the dispatcher's loop. -/
theorem processCall_idle {s : State} {r : Regs} (h : s.Idle r) (span : List Byte) (cbs : CbStatus) :
    processCall span cbs s = dispatch Config.maxHandlers s r (Call.start span cbs) := by
  obtain ⟨hd, hc⟩ := h
  simp [processCall, hd, hc]

/-! ### Results -/

@[simp] theorem lastResult_returned (r : Regs) (res : CallResult) (s : State) :
    lastResult (returned r res s) = some res := by simp [lastResult, returned]

@[simp] theorem lastResult_failedWith (n : Nat) (ev : Event) (e : DecodeError) (s : State) :
    lastResult (failedWith n ev e s) =
      some { consumed := n, event := ev, frameComplete := false, status := .err e } := by
  simp [lastResult, failedWith]

/-- A call without an event uses no answer. -/
theorem useAnswer_none {t : State} {res : CallResult} (h : lastResult t = some res)
    (he : res.event = .none) : useAnswer t = t := by
  simp [useAnswer, h, he]

/-- A call with an event uses one answer. -/
theorem useAnswer_event {t : State} {res : CallResult} (h : lastResult t = some res)
    (he : res.event ≠ .none) : useAnswer t = useAnswers 1 t := by
  cases hev : res.event with
  | none => exact absurd hev he
  | header _ _ => simp [useAnswer, h, hev, useAnswers, State.setAnswers]
  | payload _ _ => simp [useAnswer, h, hev, useAnswers, State.setAnswers]

/-- After `Ok` the bytes from `consumed` on are left over. -/
theorem leftover_ok {span : List Byte} {t : State} {res : CallResult} (h : lastResult t = some res)
    (ho : res.status = .ok) : leftover span t = span.drop res.consumed := by
  simp [leftover, h, ho]

/-- After an error nothing is presented again. -/
theorem leftover_err {span : List Byte} {t : State} {res : CallResult} {e : DecodeError}
    (h : lastResult t = some res) (ho : res.status = .err e) : leftover span t = [] := by
  simp [leftover, h, ho]

/-- The oldest answer. -/
theorem nextAnswer_cons {s : State} {a : CbStatus} {as : List CbStatus} (h : s.answers = a :: as) :
    nextAnswer s = a := by simp [nextAnswer, h]

/-! ### FEED -/

/-- FEED stops when nothing is left over. -/
theorem feed_done {k : Nat} {span : List Byte} {s t : State}
    (h : processCall span (nextAnswer s) s = .next t) (hl : leftover span t = []) :
    feed (k + 1) span s = .next (useAnswer t) := by
  simp [feed, h, hl]

/-- FEED presents what is left over. -/
theorem feed_more {k : Nat} {span rest : List Byte} {s t : State}
    (h : processCall span (nextAnswer s) s = .next t) (hl : leftover span t = rest) (hr : rest ≠ []) :
    feed (k + 1) span s = feed k rest (useAnswer t) := by
  cases rest with
  | nil => exact absurd rfl hr
  | cons b bs => simp [feed, h, hl]

end Sys2Proof.Machine
end

