-- ==== Sys2Proof/Laws/Handlers.lean ====
section
/-! SUPPORT. What each handler body does, once each, in the operands' terms; and what every handler
leaves alone when the call goes on. Later proofs cite these and unfold no body. -/

namespace Sys2Proof.Machine

/-! ### The header handlers -/

theorem opcodeByteBody_starved {r : Regs} {c : Call} (h : c.unread = []) :
    opcodeByteBody r c = .starved r c := by simp [opcodeByteBody, take1_nil h]

theorem opcodeByteBody_raised {r : Regs} {c : Call} {b : Byte} {rest : List Byte} {cause : FragCause}
    (h : c.unread = b :: rest)
    (hf : fragCheck (byte0Fin b) (b &&& 0x0F) r.continuationExpected = some cause) :
    opcodeByteBody r c = .raised (.eFrag cause) (c.consume 1) := by
  simp only [opcodeByteBody, take1_cons h, setByte0, byte0Opcode_setWidth, hf]

theorem opcodeByteBody_advance {r : Regs} {c : Call} {b : Byte} {rest : List Byte}
    (h : c.unread = b :: rest)
    (hf : fragCheck (byte0Fin b) (b &&& 0x0F) r.continuationExpected = none) :
    opcodeByteBody r c = .advance { setByte0 b r with state := .lengthByte } (c.consume 1) := by
  simp only [opcodeByteBody, take1_cons h, setByte0, byte0Opcode_setWidth, hf]

theorem lengthByteBody_starved {r : Regs} {c : Call} (h : c.unread = []) :
    lengthByteBody r c = .starved r c := by simp [lengthByteBody, take1_nil h]

theorem lengthByteBody_advance {r : Regs} {c : Call} {b : Byte} {rest : List Byte}
    (h : c.unread = b :: rest) : lengthByteBody r c = .advance (setByte1 b r) (c.consume 1) := by
  simp only [lengthByteBody, take1_cons h]

/-- An extended length whose bytes are not all there yet. -/
theorem extendedLengthBody_starved {r : Regs} {c : Call} {bs : List Byte}
    (hb : bs = c.unread.take (r.extWidth.bytes - r.scratchCount.toNat))
    (hl : r.scratchCount.toNat + bs.length < r.extWidth.bytes) :
    extendedLengthBody r c = .starved (filled bs r) (c.consume bs.length) := by
  have hw : r.extWidth.bytes ≤ 8 := by cases r.extWidth <;> decide
  have hacc := accumulate_eq c hw (Nat.le_of_lt (Nat.lt_of_le_of_lt (Nat.le_add_right _ _) hl))
  rw [← hb] at hacc
  simp only at hacc
  rw [if_neg (Nat.ne_of_lt hl)] at hacc
  simp only [extendedLengthBody, hacc]

/-- An extended length whose last byte arrives, and which is accepted. -/
theorem extendedLengthBody_advance {r : Regs} {c : Call} {bs : List Byte}
    (hb : bs = c.unread.take (r.extWidth.bytes - r.scratchCount.toNat))
    (hl : r.scratchCount.toNat + bs.length = r.extWidth.bytes)
    (hv : ¬ (r.extWidth = .eight ∧ (scratchValue r.extWidth.bytes (filled bs r)).getLsbD 63 = true)) :
    extendedLengthBody r c = .advance
      { filled bs r with
          cur := { r.cur with payloadLength := scratchValue r.extWidth.bytes (filled bs r) }
          state := .maskingKeyCheck } (c.consume bs.length) := by
  have hw : r.extWidth.bytes ≤ 8 := by cases r.extWidth <;> decide
  have hacc := accumulate_eq c hw (hl ▸ Nat.le_add_right _ _)
  rw [← hb] at hacc
  simp only at hacc
  rw [if_pos hl] at hacc
  simp only [extendedLengthBody, hacc]
  rw [if_neg (by exact hv)]
  rfl

/-- A 64-bit extended length whose last byte arrives, with bit 63 set. -/
theorem extendedLengthBody_raised {r : Regs} {c : Call} {bs : List Byte}
    (hb : bs = c.unread.take (r.extWidth.bytes - r.scratchCount.toNat))
    (hl : r.scratchCount.toNat + bs.length = r.extWidth.bytes)
    (h8 : r.extWidth = .eight)
    (hv : (scratchValue r.extWidth.bytes (filled bs r)).getLsbD 63 = true) :
    extendedLengthBody r c =
      .raised (.eRsvlen (scratchValue r.extWidth.bytes (filled bs r))) (c.consume bs.length) := by
  have hw : r.extWidth.bytes ≤ 8 := by cases r.extWidth <;> decide
  have hacc := accumulate_eq c hw (hl ▸ Nat.le_add_right _ _)
  rw [← hb] at hacc
  simp only at hacc
  rw [if_pos hl] at hacc
  simp only [extendedLengthBody, hacc]
  rw [if_pos (by exact ⟨h8, hv⟩)]
  rfl

theorem maskingKeyCheckBody_unmasked {r : Regs} (c : Call) (h : r.cur.masked = false) :
    maskingKeyCheckBody r c =
      .advance { r with cur := { r.cur with maskingKey := Key.zero }, state := .payloadCheck } c := by
  simp [maskingKeyCheckBody, h]

theorem maskingKeyCheckBody_masked {r : Regs} (c : Call) (h : r.cur.masked = true) :
    maskingKeyCheckBody r c = .advance { accReset r with state := .maskingKey } c := by
  simp [maskingKeyCheckBody, h]

theorem maskingKeyBody_starved {r : Regs} {c : Call} {bs : List Byte}
    (hb : bs = c.unread.take (4 - r.scratchCount.toNat))
    (hl : r.scratchCount.toNat + bs.length < 4) :
    maskingKeyBody r c = .starved (filled bs r) (c.consume bs.length) := by
  have hacc := accumulate_eq (r := r) (width := 4) c (by decide) (by omega)
  rw [← hb] at hacc
  simp only at hacc
  rw [if_neg (Nat.ne_of_lt hl)] at hacc
  simp only [maskingKeyBody, hacc]

theorem maskingKeyBody_advance {r : Regs} {c : Call} {bs : List Byte}
    (hb : bs = c.unread.take (4 - r.scratchCount.toNat))
    (hl : r.scratchCount.toNat + bs.length = 4) :
    maskingKeyBody r c = .advance
      { filled bs r with
          cur := { r.cur with maskingKey := scratchKey (filled bs r) }, state := .payloadCheck }
      (c.consume bs.length) := by
  have hacc := accumulate_eq (r := r) (width := 4) c (by decide) (by omega)
  rw [← hb] at hacc
  simp only at hacc
  rw [if_pos hl] at hacc
  simp only [maskingKeyBody, hacc]
  rfl

/-! ### The payload handlers -/

theorem payloadCheckBody_raised {r : Regs} {c : Call} (h : c.cbs ≠ 0) :
    payloadCheckBody r c = .raised (.eCallback c.cbs) (fire (.header r.cur r.userCtx) c) := by
  unfold payloadCheckBody
  exact if_pos h

theorem payloadCheckBody_empty {r : Regs} {c : Call} (h : c.cbs = 0) (hl : r.cur.payloadLength = 0) :
    payloadCheckBody r c =
      .fired (completeRegs r) (completeCall (fire (.header r.cur r.userCtx) c)) := by
  unfold payloadCheckBody
  exact (if_neg (not_not.2 h)).trans (if_pos hl)

theorem payloadCheckBody_payload {r : Regs} {c : Call} (h : c.cbs = 0) (hl : r.cur.payloadLength ≠ 0) :
    payloadCheckBody r c = .fired (startPayload r) (fire (.header r.cur r.userCtx) c) := by
  unfold payloadCheckBody
  exact (if_neg (not_not.2 h)).trans (if_neg hl)

theorem payloadBody_starved {r : Regs} {c : Call} (h : c.avail = 0) : payloadBody r c = .starved r c := by
  simp [payloadBody, h]

/-- The counter after `n` bytes is zero only if those were all. -/
theorem countPayload_zero {n : Nat} {r : Regs} (h : n ≤ r.payloadRemaining.toNat) :
    (countPayload n r).payloadRemaining = 0 ↔ r.payloadRemaining.toNat ≤ n := by
  have hlt := r.payloadRemaining.isLt
  change r.payloadRemaining - BitVec.ofNat 64 n = 0 ↔ _
  rw [← BitVec.toNat_inj, BitVec.toNat_sub, BitVec.toNat_ofNat, Nat.mod_eq_of_lt (a := n) (by omega)]
  change _ = 0 ↔ _
  omega

/-- The chunk, the registers and the call that `S_PAYLOAD` fires with `n` bytes. -/
def payloadCall (n : Nat) (r : Regs) (c : Call) : Call :=
  fire (.payload (deliver r (c.unread.take n)) r.userCtx) (c.consume n)

theorem payloadBody_raised {r : Regs} {c : Call} {n : Nat} (ha : c.avail ≠ 0)
    (hn : n = min c.avail r.payloadRemaining.toNat) (h : c.cbs ≠ 0) :
    payloadBody r c = .raised (.eCallback c.cbs) (payloadCall n r c) := by
  subst hn
  unfold payloadBody
  rw [if_neg ha]
  exact if_pos h

theorem payloadBody_completes {r : Regs} {c : Call} {n : Nat} (ha : c.avail ≠ 0)
    (hn : n = min c.avail r.payloadRemaining.toNat) (h : c.cbs = 0)
    (hz : r.payloadRemaining.toNat ≤ n) :
    payloadBody r c =
      .fired (completeRegs (countPayload n r)) (completeCall (payloadCall n r c)) := by
  have hp := (countPayload_zero (r := r) (n := n) (by omega)).2 hz
  subst hn
  unfold payloadBody
  rw [if_neg ha]
  exact (if_neg (not_not.2 h)).trans (if_pos hp)

theorem payloadBody_goesOn {r : Regs} {c : Call} {n : Nat} (ha : c.avail ≠ 0)
    (hn : n = min c.avail r.payloadRemaining.toNat) (h : c.cbs = 0)
    (hz : n < r.payloadRemaining.toNat) :
    payloadBody r c = .fired (countPayload n r) (payloadCall n r c) := by
  have hp := mt (countPayload_zero (r := r) (n := n) (by omega)).1 (by omega)
  subst hn
  unfold payloadBody
  rw [if_neg ha]
  exact (if_neg (not_not.2 h)).trans (if_neg hp)

/-! ### Every handler -/

/-- Inversion of `Accumulate`: it stores a run of bytes and consumes as many. -/
theorem accumulate_takes {width : Nat} {r r' : Regs} {c c' : Call} (hw : width ≤ 8)
    (h : accumulate width r c = .complete r' c' ∨ accumulate width r c = .partly r' c') :
    r.scratchCount.toNat ≤ width ∧ ∃ bs, bs = c.unread.take (width - r.scratchCount.toNat) ∧
      r' = filled bs r ∧ c' = c.consume bs.length := by
  by_cases hle : r.scratchCount.toNat ≤ width
  · refine ⟨hle, _, rfl, ?_⟩
    rw [accumulate_eq c hw hle] at h
    simp only at h
    split at h <;> simpa [eq_comm] using h
  · rw [accumulate_overrun c (by omega)] at h
    simp at h

/-- What a handler leaves alone when the call goes on: of the call everything but `consumed`, of the
registers the context and `continuation_expected`; and it consumes forward. -/
theorem handlerBody_advance_keeps {st : SubState} {r r' : Regs} {c c' : Call}
    (h : handlerBody st r c = .advance r' c') :
    (∃ n, c' = c.consume n) ∧ r'.userCtx = r.userCtx ∧
      r'.continuationExpected = r.continuationExpected := by
  have h0 : c = c.consume 0 := rfl
  cases st with
  | opcodeByte =>
    change opcodeByteBody r c = _ at h
    cases hu : c.unread with
    | nil => rw [opcodeByteBody_starved hu] at h; exact absurd h (by simp)
    | cons b rest =>
      cases hf : fragCheck (byte0Fin b) (b &&& 0x0F) r.continuationExpected with
      | some cause => rw [opcodeByteBody_raised hu hf] at h; exact absurd h (by simp)
      | none =>
        rw [opcodeByteBody_advance hu hf] at h
        cases h
        exact ⟨⟨_, rfl⟩, rfl, rfl⟩
  | lengthByte =>
    change lengthByteBody r c = _ at h
    cases hu : c.unread with
    | nil => rw [lengthByteBody_starved hu] at h; exact absurd h (by simp)
    | cons b rest =>
      rw [lengthByteBody_advance hu] at h
      cases h
      refine ⟨⟨_, rfl⟩, ?_⟩
      unfold setByte1
      dsimp only
      split <;> exact ⟨rfl, rfl⟩
  | extendedLength =>
    change extendedLengthBody r c = _ at h
    unfold extendedLengthBody at h
    split at h
    · cases h
    · cases h
    · rename_i r₁ c₁ ha
      have hw : r.extWidth.bytes ≤ 8 := by cases r.extWidth <;> decide
      obtain ⟨-, bs, -, rfl, rfl⟩ := accumulate_takes hw (.inl ha)
      simp only at h
      split at h
      · cases h
      · cases h
        exact ⟨⟨_, rfl⟩, rfl, rfl⟩
  | maskingKeyCheck =>
    change maskingKeyCheckBody r c = _ at h
    unfold maskingKeyCheckBody at h
    split at h <;> cases h <;> exact ⟨⟨0, rfl⟩, rfl, rfl⟩
  | maskingKey =>
    change maskingKeyBody r c = _ at h
    unfold maskingKeyBody at h
    split at h
    · cases h
    · cases h
    · rename_i r₁ c₁ ha
      obtain ⟨-, bs, -, rfl, rfl⟩ := accumulate_takes (by decide) (.inl ha)
      cases h
      exact ⟨⟨_, rfl⟩, rfl, rfl⟩
  | payloadCheck =>
    change payloadCheckBody r c = _ at h
    unfold payloadCheckBody at h
    simp only at h
    split at h
    · cases h
    · split at h <;> cases h
  | payload =>
    change payloadBody r c = _ at h
    unfold payloadBody at h
    simp only at h
    split at h
    · cases h
    · split at h
      · cases h
      · split at h <;> cases h
  | done => cases h; exact ⟨⟨0, rfl⟩, rfl, rfl⟩

/-- The two ways a call that answers a next state ends: with a result and the registers, or Failed. -/
theorem dispatch_next {k : Nat} {s t : State} {r : Regs} {c : Call} (h : dispatch k s r c = .next t) :
    (∃ r' res, res.status = .ok ∧ t = returned r' res s) ∨
      ∃ n ev e, t = failedWith n ev e s := by
  induction k generalizing r c with
  | zero => cases h
  | succ k ih =>
    cases hb : handlerBody r.state r c with
    | advance r' c' => rw [dispatch_advance k s hb] at h; exact ih h
    | starved r' c' =>
      rw [dispatch_ends k s hb (by simp), conclude_starved] at h
      cases h
      exact .inl ⟨r', _, rfl, rfl⟩
    | fired r' c' =>
      rw [dispatch_ends k s hb (by simp), conclude_fired] at h
      cases h
      exact .inl ⟨r', _, rfl, rfl⟩
    | raised e c' =>
      rw [dispatch_ends k s hb (by simp), conclude_raised] at h
      cases h
      exact .inr ⟨_, _, e, rfl⟩
    | stuck f =>
      rw [dispatch_ends k s hb (by simp), conclude_stuck] at h
      cases h

end Sys2Proof.Machine
end

