-- ==== Sys2Proof/Laws/PerInstr.lean ====
section
/-! SUPPORT. Statements about every instruction as syntax, one lemma per constructor. -/

namespace Sys2Proof.Laws.HasBytes

/-- Every instruction but the two host operations is at least one byte long (30_encoding.md R91, R92,
10_state.md R22); the host operations have no bit encoding (decision D2). -/
def Statement (i : Instr) : Prop := encode i = [] ↔ i.format = .hostOp

theorem continuation (f : Frame) : Statement (.continuation f) := by
  simp [Statement, encode, Instr.format, encodeFrame]

theorem text (f : Frame) : Statement (.text f) := by
  simp [Statement, encode, Instr.format, encodeFrame]

theorem binary (f : Frame) : Statement (.binary f) := by
  simp [Statement, encode, Instr.format, encodeFrame]

theorem data3 (f : Frame) : Statement (.data3 f) := by
  simp [Statement, encode, Instr.format, encodeFrame]

theorem data4 (f : Frame) : Statement (.data4 f) := by
  simp [Statement, encode, Instr.format, encodeFrame]

theorem data5 (f : Frame) : Statement (.data5 f) := by
  simp [Statement, encode, Instr.format, encodeFrame]

theorem data6 (f : Frame) : Statement (.data6 f) := by
  simp [Statement, encode, Instr.format, encodeFrame]

theorem data7 (f : Frame) : Statement (.data7 f) := by
  simp [Statement, encode, Instr.format, encodeFrame]

theorem close (f : Frame) : Statement (.close f) := by
  simp [Statement, encode, Instr.format, encodeFrame]

theorem ping (f : Frame) : Statement (.ping f) := by
  simp [Statement, encode, Instr.format, encodeFrame]

theorem pong (f : Frame) : Statement (.pong f) := by
  simp [Statement, encode, Instr.format, encodeFrame]

theorem ctrlb (f : Frame) : Statement (.ctrlb f) := by
  simp [Statement, encode, Instr.format, encodeFrame]

theorem ctrlc (f : Frame) : Statement (.ctrlc f) := by
  simp [Statement, encode, Instr.format, encodeFrame]

theorem ctrld (f : Frame) : Statement (.ctrld f) := by
  simp [Statement, encode, Instr.format, encodeFrame]

theorem ctrle (f : Frame) : Statement (.ctrle f) := by
  simp [Statement, encode, Instr.format, encodeFrame]

theorem ctrlf (f : Frame) : Statement (.ctrlf f) := by
  simp [Statement, encode, Instr.format, encodeFrame]

theorem len16 (masked : Bool) (v : BitVec 16) : Statement (.len16 masked v) := by
  simp [Statement, encode, Instr.format, encodeLength]

theorem len64 (masked : Bool) (v : Word64) : Statement (.len64 masked v) := by
  simp [Statement, encode, Instr.format, encodeLength]

theorem len7 (masked : Bool) (code : BitVec 7) : Statement (.len7 masked code) := by
  simp [Statement, encode, Instr.format, encodeLength]

theorem unmasked (len : LenField) : Statement (.unmasked len) := by
  simp [Statement, encode, Instr.format, encodeTail, encodeLength]

theorem masked (len : LenField) (key : Key) : Statement (.masked len key) := by
  simp [Statement, encode, Instr.format, encodeTail, encodeLength]

theorem sOpcodeByte : Statement (.sOpcodeByte) := by
  simp [Statement, encode, Instr.format]

theorem sLengthByte : Statement (.sLengthByte) := by
  simp [Statement, encode, Instr.format]

theorem sExtendedLength : Statement (.sExtendedLength) := by
  simp [Statement, encode, Instr.format]

theorem sMaskingKeyCheck : Statement (.sMaskingKeyCheck) := by
  simp [Statement, encode, Instr.format]

theorem sMaskingKey : Statement (.sMaskingKey) := by
  simp [Statement, encode, Instr.format]

theorem sPayloadCheck : Statement (.sPayloadCheck) := by
  simp [Statement, encode, Instr.format]

theorem sPayload : Statement (.sPayload) := by
  simp [Statement, encode, Instr.format]

theorem sDone : Statement (.sDone) := by
  simp [Statement, encode, Instr.format]

theorem process (span : List Byte) (cbs : CbStatus) : Statement (.process span cbs) := by
  simp [Statement, encode, Instr.format]

theorem reset (ctx : Ctx) : Statement (.reset ctx) := by
  simp [Statement, encode, Instr.format]

end Sys2Proof.Laws.HasBytes
end

