-- ==== Sys2Proof/Tests/Slice0.lean ====
section
/-! SUPPORT. The model's own tests. Expected results come from the layouts of 30_encoding.md and from the
worked examples S1, S2 and the vectors V1 to V60 of 95_test_vectors.md. Then, for every statement with
hypotheses, a concrete state that meets them (theorems `witness_<statement>_<clause>`). -/

namespace Sys2Proof.Tests

open Sys2Proof.Machine

/-! ### Helpers -/

/-- The next state of an outcome; the reset state when there is none. -/
def nextOf (o : Host.Outcome State Fault Refusal) : State :=
  match o with
  | .next t => t
  | .fault _ => State.reset
  | .refused _ => State.reset

/-- An outcome is a next state of which `p` holds. -/
def goesTo (o : Host.Outcome State Fault Refusal) (p : State → Bool) : Bool :=
  match o with
  | .next t => p t
  | .fault _ => false
  | .refused _ => false

/-- An outcome is a next state. -/
def isNext (o : Host.Outcome State Fault Refusal) : Bool := goesTo o fun _ => true

theorem eq_nextOf {o : Host.Outcome State Fault Refusal} (h : isNext o = true) : o = .next (nextOf o) := by
  cases o <;> simp_all [isNext, goesTo, nextOf]

/-- The registers of a Decoding instance; those of reset when Failed. -/
def regsOf (t : State) : Regs :=
  match t.decoder with
  | .decoding r => r
  | .failed => Regs.reset 0

/-- The result of the last call. -/
def resOf (t : State) : CallResult := (lastResult t).getD (starvedResult 0)

/-- The registers of a fresh instance in sub-state `st`. -/
def regsIn (st : SubState) : Regs := { Regs.reset 7 with state := st }

/-- The registers at a frame boundary, inside a fragmented message or not. -/
def boundary (ce : Bool) : Regs := { Regs.reset 7 with continuationExpected := ce }

/-- Between two calls, with registers `r`; the host answers four events with success. -/
def idle (r : Regs) : State :=
  { State.reset with decoder := .decoding r, answers := [0, 0, 0, 0] }

/-- Inside a call on `bytes` whose event the host answers with `cbs`. -/
def inCall (r : Regs) (bytes : List Byte) (cbs : CbStatus) : State :=
  { State.reset with decoder := .decoding r, call := some (Call.start bytes cbs) }

/-- A Failed instance between two calls. -/
def failed : State := { State.reset with decoder := .failed }

/-- The header of an empty unmasked final frame. -/
def emptyHeader (op : BitVec 8) : Header :=
  { fin := true, rsv := ⟨false, false, false⟩, masked := false, opcode := op, payloadLength := 0,
    maskingKey := #v[0, 0, 0, 0] }

/-- The empty unmasked final frame. -/
def emptyFrame : Frame := ⟨true, ⟨false, false, false⟩, false, .len7 0, #v[0, 0, 0, 0], []⟩

/-- "accepted" of V3: `consumed = 2`, the HEADER event, `frame_complete`, Ok, and the flag after. -/
def accepted (op : BitVec 8) (ce : Bool) (o : Host.Outcome State Fault Refusal) : Bool :=
  goesTo o fun t =>
    t.results == [⟨2, .header (emptyHeader op) 7, true, .ok⟩] &&
      (regsOf t).continuationExpected == ce && (regsOf t).state == .opcodeByte

/-- A rejection of V3: `consumed = 1`, no event, `E_FRAG`, Failed. -/
def rejected (cause : FragCause) (o : Host.Outcome State Fault Refusal) : Bool :=
  goesTo o fun t =>
    t.results == [⟨1, .none, false, .err (.eFrag cause)⟩] && t.decoder == .failed

/-! ### WellFormed refuses ill-formed terms -/

theorem test_wf_refuses_literal_code_126 : (Instr.len7 false 126).wf = false := by decide

theorem test_wf_refuses_literal_code_127 : (Instr.unmasked (.len7 127)).wf = false := by decide

theorem test_wf_refuses_key_of_unmasked_frame :
    (Instr.text { emptyFrame with key := #v[1, 0, 0, 0] }).wf = false := by decide

theorem test_wf_refuses_key_after_reserved_length :
    (Instr.masked (.len64 0x8000000000000000) #v[0, 0, 0, 1]).wf = false := by decide

theorem test_wf_refuses_payload_shorter_than_length :
    (Instr.ping { emptyFrame with len := .len7 1 }).wf = false := by decide

theorem test_wf_refuses_payload_after_reserved_length :
    (Instr.binary { emptyFrame with len := .len64 0x8000000000000001, payload := [1] }).wf = false := by
  decide

theorem test_wf_admits_literal_code_125 : (Instr.len7 true 125).wf = true := by decide

/-! ### Decoding: one word per constructor, written out from the layouts (R91 to R96, R22) -/

/-- P3a -/
theorem test_decode_continuation :
    decode .byte0 [0x80, 0x02, 0x6C, 0x6F] =
      .ok (.continuation ⟨true, ⟨false, false, false⟩, false, .len7 2, #v[0, 0, 0, 0], [0x6C, 0x6F]⟩) [] := by decide

/-- S1 -/
theorem test_decode_text :
    decode .byte0 [0x81, 0x05, 0x48, 0x65, 0x6C, 0x6C, 0x6F] =
      .ok (.text ⟨true, ⟨false, false, false⟩, false, .len7 5, #v[0, 0, 0, 0], [0x48, 0x65, 0x6C, 0x6C, 0x6F]⟩) [] := by decide

/-- S2 -/
theorem test_decode_binary :
    decode .byte0 [0x82, 0x84, 0xA1, 0xB2, 0xC3, 0xD4, 0x7F, 0x1F, 0x7D, 0x3B] =
      .ok (.binary ⟨true, ⟨false, false, false⟩, true, .len7 4, #v[0xA1, 0xB2, 0xC3, 0xD4], [0xDE, 0xAD, 0xBE, 0xEF]⟩) [] := by decide

/-- V33 -/
theorem test_decode_data3 :
    decode .byte0 [0x83, 0x00] =
      .ok (.data3 ⟨true, ⟨false, false, false⟩, false, .len7 0, #v[0, 0, 0, 0], []⟩) [] := by decide

/-- R91, R93 -/
theorem test_decode_data4 :
    decode .byte0 [0xC4, 0x7E, 0x00, 0x02, 0xAA, 0xBB] =
      .ok (.data4 ⟨true, ⟨true, false, false⟩, false, .len16 2, #v[0, 0, 0, 0], [0xAA, 0xBB]⟩) [] := by decide

/-- R91 -/
theorem test_decode_data5 :
    decode .byte0 [0xA5, 0x00] =
      .ok (.data5 ⟨true, ⟨false, true, false⟩, false, .len7 0, #v[0, 0, 0, 0], []⟩) [] := by decide

/-- R91 -/
theorem test_decode_data6 :
    decode .byte0 [0x96, 0x00] =
      .ok (.data6 ⟨true, ⟨false, false, true⟩, false, .len7 0, #v[0, 0, 0, 0], []⟩) [] := by decide

/-- R91 -/
theorem test_decode_data7 :
    decode .byte0 [0x77, 0x00] =
      .ok (.data7 ⟨false, ⟨true, true, true⟩, false, .len7 0, #v[0, 0, 0, 0], []⟩) [] := by decide

/-- V30 -/
theorem test_decode_close :
    decode .byte0 [0x88, 0x00] =
      .ok (.close ⟨true, ⟨false, false, false⟩, false, .len7 0, #v[0, 0, 0, 0], []⟩) [] := by decide

/-- V11 -/
theorem test_decode_ping :
    decode .byte0 [0x89, 0x80, 0x01, 0x02, 0x03, 0x04] =
      .ok (.ping ⟨true, ⟨false, false, false⟩, true, .len7 0, #v[1, 2, 3, 4], []⟩) [] := by decide

/-- P5 -/
theorem test_decode_pong :
    decode .byte0 [0x8A, 0x82, 0xFF, 0xFF, 0xFF, 0xFF, 0xFF, 0x00] =
      .ok (.pong ⟨true, ⟨false, false, false⟩, true, .len7 2, #v[0xFF, 0xFF, 0xFF, 0xFF], [0x00, 0xFF]⟩) [] := by decide

/-- V33 -/
theorem test_decode_ctrlb :
    decode .byte0 [0x8B, 0x00] =
      .ok (.ctrlb ⟨true, ⟨false, false, false⟩, false, .len7 0, #v[0, 0, 0, 0], []⟩) [] := by decide

/-- R96 -/
theorem test_decode_ctrlc :
    decode .byte0 [0x8C, 0x01, 0x55] =
      .ok (.ctrlc ⟨true, ⟨false, false, false⟩, false, .len7 1, #v[0, 0, 0, 0], [0x55]⟩) [] := by decide

/-- R94, R103 -/
theorem test_decode_ctrld :
    decode .byte0 [0x8D, 0x7F, 0x00, 0x00, 0x00, 0x00, 0x00, 0x00, 0x00, 0x01, 0xAA] =
      .ok (.ctrld ⟨true, ⟨false, false, false⟩, false, .len64 1, #v[0, 0, 0, 0], [0xAA]⟩) [] := by decide

/-- R94: no key after a reserved length -/
theorem test_decode_ctrle :
    decode .byte0 [0x8E, 0xFF, 0x80, 0x00, 0x00, 0x00, 0x00, 0x00, 0x00, 0x00] =
      .ok (.ctrle ⟨true, ⟨false, false, false⟩, true, .len64 0x8000000000000000, #v[0, 0, 0, 0], []⟩) [] := by decide

/-- V2 -/
theorem test_decode_ctrlf :
    decode .byte0 [0xFF, 0x00] =
      .ok (.ctrlf ⟨true, ⟨true, true, true⟩, false, .len7 0, #v[0, 0, 0, 0], []⟩) [] := by decide

/-- R135 example -/
theorem test_decode_len16 :
    decode .byte1Length [0xFE, 0x01, 0x00] = .ok (.len16 true 256) [] := by decide

/-- V5 -/
theorem test_decode_len64 :
    decode .byte1Length [0x7F, 0x01, 0x02, 0x03, 0x04, 0x05, 0x06, 0x07, 0x08] = .ok (.len64 false 72623859790382856) [] := by decide

/-- V4 -/
theorem test_decode_len7 :
    decode .byte1Length [0xFD] = .ok (.len7 true 125) [] := by decide

/-- V9 -/
theorem test_decode_unmasked :
    decode .byte1Mask [0x7E, 0x00, 0x05] = .ok (.unmasked (.len16 5)) [] := by decide

/-- V10 -/
theorem test_decode_masked :
    decode .byte1Mask [0x85, 0x37, 0xFA, 0x21, 0x3D] = .ok (.masked (.len7 5) #v[0x37, 0xFA, 0x21, 0x3D]) [] := by decide

/-- R22: ordinal 1 -/
theorem test_decode_sOpcodeByte : decode .stateReg [0x01] = .ok .sOpcodeByte [] := by decide

/-- R22: ordinal 2 -/
theorem test_decode_sLengthByte : decode .stateReg [0x02] = .ok .sLengthByte [] := by decide

/-- R22: ordinal 3 -/
theorem test_decode_sExtendedLength : decode .stateReg [0x03] = .ok .sExtendedLength [] := by decide

/-- R22: ordinal 4 -/
theorem test_decode_sMaskingKeyCheck : decode .stateReg [0x04] = .ok .sMaskingKeyCheck [] := by decide

/-- R22: ordinal 5 -/
theorem test_decode_sMaskingKey : decode .stateReg [0x05] = .ok .sMaskingKey [] := by decide

/-- R22: ordinal 6 -/
theorem test_decode_sPayloadCheck : decode .stateReg [0x06] = .ok .sPayloadCheck [] := by decide

/-- R22: ordinal 7 -/
theorem test_decode_sPayload : decode .stateReg [0x07] = .ok .sPayload [] := by decide

/-- R22: ordinal 8 -/
theorem test_decode_sDone : decode .stateReg [0x08] = .ok .sDone [] := by decide

/-- R22: the values 0 and 9 to 15 are never produced -/
theorem test_decode_no_such_state :
    ∀ b ∈ ([0, 9, 10, 11, 12, 13, 14, 15] : List Byte),
      decode .stateReg [b] = .rejected .noSuchState := by decide

/-- D2: PROCESS and RESET have no bit encoding -/
theorem test_decode_host_operations : decode .hostOp [0x00] = .rejected .noEncoding := by decide

/-- R90: a frame cut inside its payload is no instruction -/
theorem test_decode_incomplete_payload :
    decode .byte0 [0x81, 0x05, 0x48] = .rejected .incompletePayload := by decide

set_option maxRecDepth 10000 in
/-- A table word whose bits are byte 0 of a TEXT frame, its later bytes zero -/
theorem test_table_word_text : decodeTableWord 8 0x81 = some (.text emptyFrame) := by decide

/-- A 4-bit table word is a value of `state` (R22) -/
theorem test_table_word_state : decodeTableWord 4 6 = some .sPayloadCheck := by decide

/-! ### Frames: V3, from reset and inside a fragmented message -/

theorem test_continuation :
    rejected .unexpectedContinuation (exec (.continuation emptyFrame) (idle (boundary false))) = true ∧
    accepted 0x0 false (exec (.continuation emptyFrame) (idle (boundary true))) = true := by decide

theorem test_text :
    accepted 0x1 false (exec (.text emptyFrame) (idle (boundary false))) = true ∧
    rejected .continuationExpected (exec (.text emptyFrame) (idle (boundary true))) = true := by decide

theorem test_binary :
    accepted 0x2 false (exec (.binary emptyFrame) (idle (boundary false))) = true ∧
    rejected .continuationExpected (exec (.binary emptyFrame) (idle (boundary true))) = true := by decide

theorem test_data3 :
    accepted 0x3 false (exec (.data3 emptyFrame) (idle (boundary false))) = true ∧
    rejected .continuationExpected (exec (.data3 emptyFrame) (idle (boundary true))) = true := by decide

theorem test_data4 :
    accepted 0x4 false (exec (.data4 emptyFrame) (idle (boundary false))) = true ∧
    rejected .continuationExpected (exec (.data4 emptyFrame) (idle (boundary true))) = true := by decide

theorem test_data5 :
    accepted 0x5 false (exec (.data5 emptyFrame) (idle (boundary false))) = true ∧
    rejected .continuationExpected (exec (.data5 emptyFrame) (idle (boundary true))) = true := by decide

theorem test_data6 :
    accepted 0x6 false (exec (.data6 emptyFrame) (idle (boundary false))) = true ∧
    rejected .continuationExpected (exec (.data6 emptyFrame) (idle (boundary true))) = true := by decide

theorem test_data7 :
    accepted 0x7 false (exec (.data7 emptyFrame) (idle (boundary false))) = true ∧
    rejected .continuationExpected (exec (.data7 emptyFrame) (idle (boundary true))) = true := by decide

theorem test_close :
    accepted 0x8 false (exec (.close emptyFrame) (idle (boundary false))) = true ∧
    accepted 0x8 true (exec (.close emptyFrame) (idle (boundary true))) = true := by decide

theorem test_ping :
    accepted 0x9 false (exec (.ping emptyFrame) (idle (boundary false))) = true ∧
    accepted 0x9 true (exec (.ping emptyFrame) (idle (boundary true))) = true := by decide

theorem test_pong :
    accepted 0xA false (exec (.pong emptyFrame) (idle (boundary false))) = true ∧
    accepted 0xA true (exec (.pong emptyFrame) (idle (boundary true))) = true := by decide

theorem test_ctrlb :
    accepted 0xB false (exec (.ctrlb emptyFrame) (idle (boundary false))) = true ∧
    accepted 0xB true (exec (.ctrlb emptyFrame) (idle (boundary true))) = true := by decide

theorem test_ctrlc :
    accepted 0xC false (exec (.ctrlc emptyFrame) (idle (boundary false))) = true ∧
    accepted 0xC true (exec (.ctrlc emptyFrame) (idle (boundary true))) = true := by decide

theorem test_ctrld :
    accepted 0xD false (exec (.ctrld emptyFrame) (idle (boundary false))) = true ∧
    accepted 0xD true (exec (.ctrld emptyFrame) (idle (boundary true))) = true := by decide

theorem test_ctrle :
    accepted 0xE false (exec (.ctrle emptyFrame) (idle (boundary false))) = true ∧
    accepted 0xE true (exec (.ctrle emptyFrame) (idle (boundary true))) = true := by decide

theorem test_ctrlf :
    accepted 0xF false (exec (.ctrlf emptyFrame) (idle (boundary false))) = true ∧
    accepted 0xF true (exec (.ctrlf emptyFrame) (idle (boundary true))) = true := by decide

/-- P2a: the masked TEXT frame, its two results and the last registers -/
theorem test_text_masked :
    goesTo (exec (.text ⟨true, ⟨false, false, false⟩, true, .len7 5, #v[0x37, 0xFA, 0x21, 0x3D],
        [0x48, 0x65, 0x6C, 0x6C, 0x6F]⟩) (idle (boundary false))) (fun t =>
      t.results.map (·.consumed) == [6, 5] &&
      resOf t == ⟨5, .payload [0x48, 0x65, 0x6C, 0x6C, 0x6F] 7, true, .ok⟩ &&
      regsOf t == { Regs.reset 7 with
        cur := ⟨true, ⟨false, false, false⟩, true, 0x1, 5, #v[0x37, 0xFA, 0x21, 0x3D]⟩
        scratch := #v[0x37, 0xFA, 0x21, 0x3D, 0, 0, 0, 0], scratchCount := 4, maskingPosition := 5 })
      = true := by decide

/-- V50 -/
theorem test_ping_not_final :
    rejected .fragmentedControl (exec (.ping { emptyFrame with fin := false }) (idle (boundary false)))
      = true := by decide

/-- V54 -/
theorem test_binary_reserved_length :
    goesTo (exec (.binary { emptyFrame with len := .len64 0x8000000000000000 }) (idle (boundary false)))
      (fun t => resOf t == ⟨10, .none, false, .err (.eRsvlen 0x8000000000000000)⟩ &&
        t.decoder == .failed) = true := by decide

/-! ### Byte 1: V4, V5 -/

/-- V5: 01 02 .. 08 = 72623859790382856 -/
theorem test_len64 :
    goesTo (exec (.len64 false 72623859790382856) (idle (regsIn .lengthByte))) (fun t =>
      (resOf t).consumed == 9 && (regsOf t).payloadRemaining == 72623859790382856 &&
        (regsOf t).state == .payload) = true := by decide

/-- V4: FE, then V5: 01 00 = 256; the key is awaited -/
theorem test_len16 :
    goesTo (exec (.len16 true 256) (idle (regsIn .lengthByte))) (fun t =>
      resOf t == starvedResult 3 && (regsOf t).cur.payloadLength == 256 &&
        (regsOf t).state == .maskingKey && (regsOf t).extWidth == .two) = true := by decide

/-- V4: 7D -/
theorem test_len7 :
    goesTo (exec (.len7 false 125) (idle (regsIn .lengthByte))) (fun t =>
      (resOf t).consumed == 1 && (resOf t).frameComplete == false &&
        (regsOf t).payloadRemaining == 125 && (regsOf t).state == .payload) = true := by decide

/-- V14: an unmasked header reports key 00 00 00 00, not the old key -/
theorem test_unmasked :
    goesTo (exec (.unmasked (.len7 0)) (idle { regsIn .lengthByte with
        cur := { Header.reset with maskingKey := #v[1, 2, 3, 4] } })) (fun t =>
      (regsOf t).cur.maskingKey == #v[0, 0, 0, 0] && (resOf t).frameComplete == true &&
        (regsOf t).state == .opcodeByte) = true := by decide

/-- V10 -/
theorem test_masked :
    goesTo (exec (.masked (.len7 5) #v[0x37, 0xFA, 0x21, 0x3D]) (idle (regsIn .lengthByte))) (fun t =>
      (resOf t).consumed == 5 && (regsOf t).cur.maskingKey == #v[0x37, 0xFA, 0x21, 0x3D] &&
        (regsOf t).payloadRemaining == 5 && (regsOf t).state == .payload) = true := by decide

/-! ### Handlers: the examples of R131 to R137, R170 to R175 -/

/-- V2: byte F1 -/
theorem test_sOpcodeByte :
    goesTo (exec .sOpcodeByte (inCall (regsIn .opcodeByte) [0xF1] 0)) (fun t =>
      (regsOf t).cur.fin == true && (regsOf t).cur.rsv == ⟨true, true, true⟩ &&
        (regsOf t).cur.opcode == 0x1 && (regsOf t).state == .lengthByte) = true := by decide

/-- V2: byte 09 -/
theorem test_sOpcodeByte_raises :
    rejected .fragmentedControl (exec .sOpcodeByte (inCall (regsIn .opcodeByte) [0x09] 0)) = true := by
  decide

/-- R133: byte 05, and byte FE -/
theorem test_sLengthByte :
    goesTo (exec .sLengthByte (inCall (regsIn .lengthByte) [0x05] 0)) (fun t =>
      (regsOf t).cur.masked == false && (regsOf t).cur.payloadLength == 5 &&
        (regsOf t).state == .maskingKeyCheck) = true ∧
    goesTo (exec .sLengthByte (inCall (regsIn .lengthByte) [0xFE] 0)) (fun t =>
      (regsOf t).cur.masked == true && (regsOf t).extWidth == .two &&
        (regsOf t).state == .extendedLength) = true := by decide

/-- V55: the length split 2 + 6 -/
theorem test_sExtendedLength_partial :
    goesTo (exec .sExtendedLength
        (inCall { regsIn .extendedLength with extWidth := .eight } [0xFF, 0xFE] 0)) (fun t =>
      resOf t == starvedResult 2 && (regsOf t).scratchCount == 2 &&
        (regsOf t).scratch == #v[0xFF, 0xFE, 0, 0, 0, 0, 0, 0] &&
        (regsOf t).state == .extendedLength) = true := by decide

/-- R135: `ext_width = 2`, input 01 00 -/
theorem test_sExtendedLength :
    goesTo (exec .sExtendedLength
        (inCall { regsIn .extendedLength with extWidth := .two } [0x01, 0x00, 0x99] 0)) (fun t =>
      (regsOf t).cur.payloadLength == 256 && (regsOf t).state == .maskingKeyCheck &&
        t.call.map (·.consumed) == some 2) = true := by decide

/-- R136: `masked = 0` clears the key -/
theorem test_sMaskingKeyCheck :
    goesTo (exec .sMaskingKeyCheck (inCall { regsIn .maskingKeyCheck with
        cur := { Header.reset with maskingKey := #v[1, 2, 3, 4] } } [] 0)) (fun t =>
      (regsOf t).cur.maskingKey == #v[0, 0, 0, 0] && (regsOf t).state == .payloadCheck) = true := by
  decide

/-- R137: input 37, then FA 21 3D -/
theorem test_sMaskingKey :
    goesTo (exec .sMaskingKey (inCall { regsIn .maskingKey with
        scratchCount := 1, scratch := #v[0x37, 0, 0, 0, 0, 0, 0, 0] } [0xFA, 0x21, 0x3D, 0x4D] 0)) (fun t =>
      (regsOf t).cur.maskingKey == #v[0x37, 0xFA, 0x21, 0x3D] && (regsOf t).state == .payloadCheck &&
        t.call.map (·.consumed) == some 3) = true := by decide

/-- V59: a failing callback on an empty frame -/
theorem test_sPayloadCheck_raises :
    goesTo (exec .sPayloadCheck (inCall (regsIn .payloadCheck) [] 1)) (fun t =>
      resOf t == ⟨0, .header Header.reset 7, false, .err (.eCallback 1)⟩ && t.decoder == .failed)
      = true := by decide

/-- V31: an empty TEXT.NF sets `continuation_expected` -/
theorem test_sPayloadCheck :
    goesTo (exec .sPayloadCheck (inCall { regsIn .payloadCheck with
        cur := { Header.reset with opcode := 0x1 } } [] 0)) (fun t =>
      (resOf t).frameComplete == true && (regsOf t).continuationExpected == true &&
        (regsOf t).state == .opcodeByte) = true := by decide

/-- R172: key 37 FA 21 3D, position 2, remaining 3, span 4D -/
theorem test_sPayload :
    goesTo (exec .sPayload (inCall { regsIn .payload with
        cur := ⟨true, ⟨false, false, false⟩, true, 0x1, 5, #v[0x37, 0xFA, 0x21, 0x3D]⟩
        maskingPosition := 2, payloadRemaining := 3 } [0x4D] 0)) (fun t =>
      resOf t == ⟨1, .payload [0x6C] 7, false, .ok⟩ && (regsOf t).maskingPosition == 3 &&
        (regsOf t).payloadRemaining == 2 && (regsOf t).state == .payload) = true := by decide

/-- V41: the chunk stops at the end of the frame -/
theorem test_sPayload_stops_at_the_boundary :
    goesTo (exec .sPayload (inCall { regsIn .payload with
        cur := { emptyHeader 0x2 with payloadLength := 2 }, payloadRemaining := 2 }
        [0xAA, 0xBB, 0x81, 0x01, 0x43] 0)) (fun t =>
      resOf t == ⟨2, .payload [0xAA, 0xBB] 7, true, .ok⟩ &&
        (regsOf t).state == .opcodeByte) = true := by decide

/-- R175 -/
theorem test_sDone :
    goesTo (exec .sDone (inCall (regsIn .done) [] 0)) (fun t => regsOf t == regsIn .opcodeByte) = true := by
  decide

/-! ### PROCESS, RESET, the step -/

/-- V43: the longest header in one call -/
theorem test_process :
    goesTo (exec (.process [0x82, 0xFF, 0, 0, 0, 0, 0, 0, 0, 3, 0x0A, 0x0B, 0x0C, 0x0D, 0x0B, 0x09, 0x0F] 0)
        (idle (boundary false))) (fun t =>
      (resOf t).consumed == 14 && (resOf t).frameComplete == false &&
        (regsOf t).cur.maskingKey == #v[0x0A, 0x0B, 0x0C, 0x0D] &&
        (regsOf t).payloadRemaining == 3) = true := by decide

/-- V13: an empty span while the key is half received changes nothing -/
theorem test_process_empty_span :
    goesTo (exec (.process [] 0) (idle { regsIn .maskingKey with
        scratchCount := 2, scratch := #v[0x37, 0xFA, 0, 0, 0, 0, 0, 0] })) (fun t =>
      resOf t == ⟨0, .none, false, .ok⟩ && regsOf t == { regsIn .maskingKey with
        scratchCount := 2, scratch := #v[0x37, 0xFA, 0, 0, 0, 0, 0, 0] }) = true := by decide

/-- V60: RESET after a failure -/
theorem test_reset :
    goesTo (exec (.reset 7) failed) (fun t => t.decoder == .decoding (Regs.reset 7)) = true := by decide

/-- S1, call 1: the step presents the left-over bytes next -/
theorem test_step_presents_leftover :
    goesTo (step { idle (boundary false) with
        commands := [.process [0x81, 0x05, 0x48, 0x65, 0x6C, 0x6C, 0x6F]] }) (fun t =>
      t.commands == [.process [0x48, 0x65, 0x6C, 0x6C, 0x6F]] && t.answers == [0, 0, 0] &&
        (resOf t).consumed == 2) = true := by decide

set_option maxRecDepth 10000 in
/-- The first step after reset runs a table word placed for it -/
theorem test_step_runs_placed_word :
    goesTo (step (State.reset.withFetchWord 8 0x89)) (fun t =>
      resOf t == ⟨2, .header (emptyHeader 0x9) 0, true, .ok⟩ && t.commands == []) = true := by decide

/-! ### Witnesses: encoding -/

theorem witness_DecodeOfEncodeIsTheInstruction_frame :
    (Instr.ctrle ⟨true, ⟨false, false, false⟩, true, .len64 0x8000000000000000, #v[0, 0, 0, 0], []⟩).wf = true ∧
      (Instr.ctrle emptyFrame).format ≠ .hostOp := by decide

theorem witness_DecodeOfEncodeIsTheInstruction_byte1 :
    (Instr.len7 true 125).wf = true ∧ (Instr.len7 true 125).format ≠ .hostOp ∧
    (Instr.masked (.len16 0xFFFF) #v[1, 2, 3, 255]).wf = true ∧
      (Instr.masked (.len16 0xFFFF) #v[1, 2, 3, 255]).format ≠ .hostOp := by decide

theorem witness_DecodeOfEncodeIsTheInstruction_state :
    Instr.sDone.wf = true ∧ Instr.sDone.format ≠ .hostOp := by decide

theorem witness_EncodeOfDecodeIsTheBytes :
    decode .byte0 [0x81, 0x00, 0x99] = .ok (.text emptyFrame) [0x99] := by decide

theorem witness_FrameSizeIsHeaderPlusPayload :
    (⟨true, ⟨false, false, false⟩, true, .len64 1, #v[1, 2, 3, 4], [0xAA]⟩ : Frame).wf = true ∧
      (LenField.len64 1).reserved = false := by decide

theorem witness_UnmaskIsXorWithKeyByte :
    (0xFFFFFFFFFFFFFFFF : Word64).toNat % 4 = (3 : Fin 4).val ∧ (4 : Word64).toNat % 4 = (0 : Fin 4).val := by decide

theorem witness_UnmaskingIsChunkIndependent :
    1 < ([0x11, 0x13] : List Byte).length := by decide

/-! ### Witnesses: flags -/

theorem witness_FragCheckHasThreeFailingCases :
    ((0x8 : BitVec 8).getLsbD 3 = true ∧ false = false) ∧
    ((0x7 : BitVec 8).getLsbD 3 = false ∧ true = true ∧ (0x7 : BitVec 8) ≠ 0x0) ∧
    ((0x0 : BitVec 8).getLsbD 3 = false ∧ false = false ∧ (0x0 : BitVec 8) = 0x0) := by decide

/-- A call on `span` from `s` gives the next state `nextOf ..` and reports the one result `resOf ..`. -/
def oneCall (s : State) (span : List Byte) (cbs : CbStatus) : Bool :=
  isNext (exec (.process span cbs) s) &&
    (nextOf (exec (.process span cbs) s)).results ==
      s.results ++ [resOf (nextOf (exec (.process span cbs) s))]

/-- The next state of a call. -/
def afterCall (s : State) (span : List Byte) (cbs : CbStatus) : State :=
  nextOf (exec (.process span cbs) s)

theorem exec_of_oneCall {s : State} {span : List Byte} {cbs : CbStatus} (h : oneCall s span cbs = true) :
    exec (.process span cbs) s = .next (afterCall s span cbs) ∧
      (afterCall s span cbs).results = s.results ++ [resOf (afterCall s span cbs)] := by
  unfold oneCall at h
  rw [Bool.and_eq_true] at h
  exact ⟨eq_nextOf h.1, eq_of_beq h.2⟩

theorem witness_ContinuationExpectedChangesOnCompletionOnly_complete :
    (idle (boundary false)).Idle (boundary false) ∧
    exec (.process [0x01, 0x00] 0) (idle (boundary false)) = .next (afterCall (idle (boundary false)) [0x01, 0x00] 0) ∧
    (afterCall (idle (boundary false)) [0x01, 0x00] 0).results =
      (idle (boundary false)).results ++ [resOf (afterCall (idle (boundary false)) [0x01, 0x00] 0)] ∧
    (resOf (afterCall (idle (boundary false)) [0x01, 0x00] 0)).frameComplete = true ∧ (afterCall (idle (boundary false)) [0x01, 0x00] 0).decoder = .decoding (regsOf (afterCall (idle (boundary false)) [0x01, 0x00] 0)) := by
  have h := exec_of_oneCall (s := idle (boundary false)) (span := [0x01, 0x00]) (cbs := 0) (by decide)
  exact ⟨⟨rfl, rfl⟩, h.1, h.2, by decide, by decide⟩

theorem witness_ContinuationExpectedChangesOnCompletionOnly_otherwise :
    (idle (boundary false)).Idle (boundary false) ∧
    exec (.process [0x01] 0) (idle (boundary false)) = .next (afterCall (idle (boundary false)) [0x01] 0) ∧
    (afterCall (idle (boundary false)) [0x01] 0).results =
      (idle (boundary false)).results ++ [resOf (afterCall (idle (boundary false)) [0x01] 0)] ∧
    (resOf (afterCall (idle (boundary false)) [0x01] 0)).frameComplete = false ∧ (afterCall (idle (boundary false)) [0x01] 0).decoder = .decoding (regsOf (afterCall (idle (boundary false)) [0x01] 0)) := by
  have h := exec_of_oneCall (s := idle (boundary false)) (span := [0x01]) (cbs := 0) (by decide)
  exact ⟨⟨rfl, rfl⟩, h.1, h.2, by decide, by decide⟩

/-! ### Witnesses: the handlers -/

theorem witness_OpcodeByteTakesByteZero_starved :
    (inCall (regsIn .opcodeByte) [] 0).InCall (regsIn .opcodeByte) (Call.start [] 0) ∧
    (Call.start [] 0).unread = [] := ⟨⟨rfl, rfl⟩, rfl⟩

theorem witness_OpcodeByteTakesByteZero_accepted :
    (inCall (regsIn .opcodeByte) [0x81] 0).InCall (regsIn .opcodeByte) (Call.start [0x81] 0) ∧
    (Call.start [0x81] 0).unread = 0x81 :: [] ∧
    fragCheck ((0x81 : Byte).getLsbD 7) (0x81 &&& 0x0F) (regsIn .opcodeByte).continuationExpected = none := ⟨⟨rfl, rfl⟩, rfl, by decide⟩

theorem witness_OpcodeByteTakesByteZero_rejected :
    (inCall (regsIn .opcodeByte) [0x80] 0).InCall (regsIn .opcodeByte) (Call.start [0x80] 0) ∧
    (Call.start [0x80] 0).unread = 0x80 :: [] ∧
    fragCheck ((0x80 : Byte).getLsbD 7) (0x80 &&& 0x0F) (regsIn .opcodeByte).continuationExpected =
      some .unexpectedContinuation := ⟨⟨rfl, rfl⟩, rfl, by decide⟩

theorem witness_LengthByteTakesByteOne_starved :
    (inCall (regsIn .lengthByte) [] 0).InCall (regsIn .lengthByte) (Call.start [] 0) ∧
    (Call.start [] 0).unread = [] := ⟨⟨rfl, rfl⟩, rfl⟩

theorem witness_LengthByteTakesByteOne_literal :
    (inCall (regsIn .lengthByte) [0xFD] 0).InCall (regsIn .lengthByte) (Call.start [0xFD] 0) ∧
    (Call.start [0xFD] 0).unread = 0xFD :: [] ∧ ((0xFD : Byte) &&& 0x7F).toNat ≤ 125 := ⟨⟨rfl, rfl⟩, rfl, by decide⟩

theorem witness_LengthByteTakesByteOne_two :
    (inCall (regsIn .lengthByte) [0x7E] 0).InCall (regsIn .lengthByte) (Call.start [0x7E] 0) ∧
    (Call.start [0x7E] 0).unread = 0x7E :: [] ∧ ((0x7E : Byte) &&& 0x7F).toNat = 126 := ⟨⟨rfl, rfl⟩, rfl, by decide⟩

theorem witness_LengthByteTakesByteOne_eight :
    (inCall (regsIn .lengthByte) [0xFF] 0).InCall (regsIn .lengthByte) (Call.start [0xFF] 0) ∧
    (Call.start [0xFF] 0).unread = 0xFF :: [] ∧ ((0xFF : Byte) &&& 0x7F).toNat = 127 := ⟨⟨rfl, rfl⟩, rfl, by decide⟩

/-- Waiting for a 16-bit length of which one byte is in. -/
def regsTwo : Regs :=
  { regsIn .extendedLength with extWidth := .two, scratchCount := 1, scratch := #v[0x01, 0, 0, 0, 0, 0, 0, 0] }

/-- Waiting for a 64-bit length of which seven bytes are in, the first `b`. -/
def regsEight (b : Byte) : Regs :=
  { regsIn .extendedLength with
      extWidth := .eight, scratchCount := 7, scratch := #v[b, 0xFF, 0xFF, 0xFF, 0xFF, 0xFF, 0xFF, 0] }

/-- Waiting for a key of which three bytes are in. -/
def regsKey : Regs :=
  { regsIn .maskingKey with
      cur := { Header.reset with masked := true, fin := true, opcode := 0x1 }
      scratchCount := 3, scratch := #v[0x37, 0xFA, 0x21, 0, 0, 0, 0, 0] }

/-- In the payload of a masked frame of five bytes, two of them delivered. -/
def regsPayload : Regs :=
  { regsIn .payload with
      cur := ⟨true, ⟨false, false, false⟩, true, 0x1, 5, #v[0x37, 0xFA, 0x21, 0x3D]⟩
      maskingPosition := 2, payloadRemaining := 3 }

theorem witness_ExtendedLengthAssemblesBigEndian_starved :
    (inCall regsTwo [] 0).InCall regsTwo (Call.start [] 0) ∧
    regsTwo.extWidth ≠ .none ∧ regsTwo.scratchCount.toNat ≤ regsTwo.extWidth.bytes ∧
    ([] : List Byte) = (Call.start [] 0).unread.take (regsTwo.extWidth.bytes - regsTwo.scratchCount.toNat) ∧
    regsTwo.scratchCount.toNat + ([] : List Byte).length < regsTwo.extWidth.bytes := ⟨⟨rfl, rfl⟩, by decide, by decide, by decide, by decide⟩

theorem witness_ExtendedLengthAssemblesBigEndian_two :
    (inCall regsTwo [0x00, 0x99] 0).InCall regsTwo (Call.start [0x00, 0x99] 0) ∧
    regsTwo.extWidth ≠ .none ∧ regsTwo.scratchCount.toNat ≤ regsTwo.extWidth.bytes ∧
    ([0x00] : List Byte) = (Call.start [0x00, 0x99] 0).unread.take (regsTwo.extWidth.bytes - regsTwo.scratchCount.toNat) ∧
    regsTwo.scratchCount.toNat + ([0x00] : List Byte).length = regsTwo.extWidth.bytes ∧
      regsTwo.extWidth = .two := ⟨⟨rfl, rfl⟩, by decide, by decide, by decide, by decide, rfl⟩

theorem witness_ExtendedLengthAssemblesBigEndian_eight :
    (inCall (regsEight 0x7F) [0xFF] 0).InCall (regsEight 0x7F) (Call.start [0xFF] 0) ∧
    (regsEight 0x7F).extWidth ≠ .none ∧ (regsEight 0x7F).scratchCount.toNat ≤ (regsEight 0x7F).extWidth.bytes ∧
    ([0xFF] : List Byte) = (Call.start [0xFF] 0).unread.take ((regsEight 0x7F).extWidth.bytes - (regsEight 0x7F).scratchCount.toNat) ∧
    (regsEight 0x7F).scratchCount.toNat + ([0xFF] : List Byte).length = (regsEight 0x7F).extWidth.bytes ∧
    (regsEight 0x7F).extWidth = .eight ∧
    (filled [0xFF] (regsEight 0x7F)).scratch[0].getLsbD 7 = false := ⟨⟨rfl, rfl⟩, by decide, by decide, by decide, by decide, rfl, by decide⟩

theorem witness_ExtendedLengthAssemblesBigEndian_reserved :
    (inCall (regsEight 0x80) [0x00] 0).InCall (regsEight 0x80) (Call.start [0x00] 0) ∧
    (regsEight 0x80).extWidth ≠ .none ∧ (regsEight 0x80).scratchCount.toNat ≤ (regsEight 0x80).extWidth.bytes ∧
    ([0x00] : List Byte) = (Call.start [0x00] 0).unread.take ((regsEight 0x80).extWidth.bytes - (regsEight 0x80).scratchCount.toNat) ∧
    (regsEight 0x80).scratchCount.toNat + ([0x00] : List Byte).length = (regsEight 0x80).extWidth.bytes ∧
    (regsEight 0x80).extWidth = .eight ∧
    (filled [0x00] (regsEight 0x80)).scratch[0].getLsbD 7 = true := ⟨⟨rfl, rfl⟩, by decide, by decide, by decide, by decide, rfl, by decide⟩

theorem witness_MaskingKeyCheckDecides_unmasked :
    (inCall (regsIn .maskingKeyCheck) [] 0).InCall (regsIn .maskingKeyCheck) (Call.start [] 0) ∧
    (regsIn .maskingKeyCheck).cur.masked = false := ⟨⟨rfl, rfl⟩, rfl⟩

theorem witness_MaskingKeyCheckDecides_masked :
    (inCall regsKey [] 0).InCall regsKey (Call.start [] 0) ∧
    regsKey.cur.masked = true := ⟨⟨rfl, rfl⟩, rfl⟩

theorem witness_MaskingKeyTakesFourBytes_starved :
    (inCall regsKey [] 0).InCall regsKey (Call.start [] 0) ∧
    regsKey.scratchCount.toNat ≤ 4 ∧
    ([] : List Byte) = (Call.start [] 0).unread.take (4 - regsKey.scratchCount.toNat) ∧
    regsKey.scratchCount.toNat + ([] : List Byte).length < 4 := ⟨⟨rfl, rfl⟩, by decide, by decide, by decide⟩

theorem witness_MaskingKeyTakesFourBytes_complete :
    (inCall regsKey [0x3D, 0x7F] 0).InCall regsKey (Call.start [0x3D, 0x7F] 0) ∧
    regsKey.scratchCount.toNat ≤ 4 ∧
    ([0x3D] : List Byte) = (Call.start [0x3D, 0x7F] 0).unread.take (4 - regsKey.scratchCount.toNat) ∧
    regsKey.scratchCount.toNat + ([0x3D] : List Byte).length = 4 := ⟨⟨rfl, rfl⟩, by decide, by decide, by decide⟩

theorem witness_PayloadCheckFiresTheHeader_failing :
    (inCall (regsIn .payloadCheck) [] 0xFFFFFFFF).InCall (regsIn .payloadCheck) (Call.start [] 0xFFFFFFFF) ∧
    (Call.start [] 0xFFFFFFFF).cbs ≠ 0 := ⟨⟨rfl, rfl⟩, by decide⟩

theorem witness_PayloadCheckFiresTheHeader_empty :
    (inCall (regsIn .payloadCheck) [] 0).InCall (regsIn .payloadCheck) (Call.start [] 0) ∧
    (Call.start [] 0).cbs = 0 ∧ (regsIn .payloadCheck).cur.payloadLength = 0 := ⟨⟨rfl, rfl⟩, rfl, rfl⟩

theorem witness_PayloadCheckFiresTheHeader_payload :
    (inCall regsPayload [] 0).InCall regsPayload (Call.start [] 0) ∧
    (Call.start [] 0).cbs = 0 ∧ regsPayload.cur.payloadLength ≠ 0 := ⟨⟨rfl, rfl⟩, rfl, by decide⟩

theorem witness_PayloadDeliversTheMinimum_starved :
    (inCall regsPayload [] 0).InCall regsPayload (Call.start [] 0) ∧
    (Call.start [] 0).avail = 0 := ⟨⟨rfl, rfl⟩, rfl⟩

theorem witness_PayloadDeliversTheMinimum_failing :
    (inCall regsPayload [0x4D] 9).InCall regsPayload (Call.start [0x4D] 9) ∧
    1 = min (Call.start [0x4D] 9).avail regsPayload.payloadRemaining.toNat ∧
    (Call.start [0x4D] 9).avail ≠ 0 ∧ (Call.start [0x4D] 9).cbs ≠ 0 := ⟨⟨rfl, rfl⟩, by decide, by decide, by decide⟩

theorem witness_PayloadDeliversTheMinimum_completes :
    (inCall regsPayload [0x4D, 0x51, 0x58] 0).InCall regsPayload (Call.start [0x4D, 0x51, 0x58] 0) ∧
    3 = min (Call.start [0x4D, 0x51, 0x58] 0).avail regsPayload.payloadRemaining.toNat ∧
    (Call.start [0x4D, 0x51, 0x58] 0).avail ≠ 0 ∧ (Call.start [0x4D, 0x51, 0x58] 0).cbs = 0 ∧
    regsPayload.payloadRemaining.toNat ≤ 3 := ⟨⟨rfl, rfl⟩, by decide, by decide, rfl, by decide⟩

theorem witness_PayloadDeliversTheMinimum_goesOn :
    (inCall regsPayload [0x4D, 0x51] 0).InCall regsPayload (Call.start [0x4D, 0x51] 0) ∧
    2 = min (Call.start [0x4D, 0x51] 0).avail regsPayload.payloadRemaining.toNat ∧
    (Call.start [0x4D, 0x51] 0).avail ≠ 0 ∧ (Call.start [0x4D, 0x51] 0).cbs = 0 ∧
    2 < regsPayload.payloadRemaining.toNat := ⟨⟨rfl, rfl⟩, by decide, by decide, rfl, by decide⟩

theorem witness_DoneIsTheImplicitReset :
    (inCall (regsIn .done) [] 0).InCall (regsIn .done) (Call.start [] 0) := ⟨rfl, rfl⟩

theorem witness_HandlersRunInsideACallOnly :
    failed.decoder = .failed ∧ (idle (boundary true)).Idle (boundary true) := ⟨rfl, rfl, rfl⟩

theorem witness_AccumulatorOverrunStops :
    (inCall { regsIn .extendedLength with scratchCount := 5 } [] 0).InCall { regsIn .extendedLength with scratchCount := 5 } (Call.start [] 0) ∧
    ({ regsIn .extendedLength with scratchCount := 5 } : Regs).extWidth.bytes <
      ({ regsIn .extendedLength with scratchCount := 5 } : Regs).scratchCount.toNat ∧
    4 < ({ regsIn .extendedLength with scratchCount := 5 } : Regs).scratchCount.toNat := ⟨⟨rfl, rfl⟩, by decide, by decide⟩

theorem witness_TransitionsAreForwardOnly_goesOn :
    (inCall (regsIn .opcodeByte) [0x81] 0).InCall (regsIn .opcodeByte) (Call.start [0x81] 0) ∧
    exec (handlerInstr (regsIn .opcodeByte).state) (inCall (regsIn .opcodeByte) [0x81] 0) =
      .next (nextOf (exec .sOpcodeByte (inCall (regsIn .opcodeByte) [0x81] 0))) ∧
    (nextOf (exec .sOpcodeByte (inCall (regsIn .opcodeByte) [0x81] 0))).InCall
      (regsOf (nextOf (exec .sOpcodeByte (inCall (regsIn .opcodeByte) [0x81] 0))))
      { span := [0x81], consumed := 1, event := .none, frameComplete := false, cbs := 0 } := ⟨⟨rfl, rfl⟩, eq_nextOf (by decide), by decide, by decide⟩

theorem witness_TransitionsAreForwardOnly_ends :
    (inCall regsPayload [0x4D] 0).InCall regsPayload (Call.start [0x4D] 0) ∧
    exec (handlerInstr regsPayload.state) (inCall regsPayload [0x4D] 0) =
      .next (nextOf (exec .sPayload (inCall regsPayload [0x4D] 0))) ∧
    (nextOf (exec .sPayload (inCall regsPayload [0x4D] 0))).Idle
      (regsOf (nextOf (exec .sPayload (inCall regsPayload [0x4D] 0)))) := ⟨⟨rfl, rfl⟩, eq_nextOf (by decide), by decide, by decide⟩

/-! ### Witnesses: PROCESS and RESET -/

theorem witness_ProcessRunsTheSelectedHandlers :
    (idle regsKey).Idle regsKey := ⟨rfl, rfl⟩

theorem witness_ProcessIsRefusedAfterFailure :
    (failed.decoder = .failed ∧ failed.call = none) ∧
    (inCall (regsIn .payload) [] 0).call = some (Call.start [] 0) := ⟨⟨rfl, rfl⟩, rfl⟩

/-- The invariant of the registers, as it is decided on concrete registers. -/
theorem inv_regsPayload : regsPayload.Inv := by constructor <;> decide

theorem inv_regsKey : regsKey.Inv := by constructor <;> decide

theorem inv_regsTwo : ({ regsTwo with cur := { Header.reset with opcode := 0x1 } } : Regs).Inv := by
  constructor <;> decide

theorem inv_boundary : ∀ ce, (boundary ce).Inv := by intro ce; cases ce <;> constructor <;> decide

theorem inv_state : (idle regsPayload).Inv :=
  ⟨rfl, fun _ h => by cases h; exact inv_regsPayload, by decide⟩

theorem inv_failed : failed.Inv := ⟨rfl, fun _ h => (by cases h), by decide⟩

theorem witness_ProcessCompletesBetweenCalls :
    (idle regsKey).Idle regsKey ∧ regsKey.Inv := ⟨⟨rfl, rfl⟩, inv_regsKey⟩

/-- the other clause: the empty span -/
theorem witness_ProcessMakesProgress :
    (idle regsPayload).Idle regsPayload ∧ regsPayload.Inv ∧ ([0x4D] : List Byte) ≠ [] := ⟨⟨rfl, rfl⟩, inv_regsPayload, by decide⟩

theorem witness_ProcessIsBounded_header :
    (idle regsKey).Idle regsKey ∧ regsKey.state ≠ .done ∧
    exec (.process [0x3D] 0) (idle regsKey) = .next (afterCall (idle regsKey) [0x3D] 0) ∧
    (afterCall (idle regsKey) [0x3D] 0).results =
      (idle regsKey).results ++ [resOf (afterCall (idle regsKey) [0x3D] 0)] ∧
    regsKey.state ≠ .payload := by
  have h := exec_of_oneCall (s := idle regsKey) (span := [0x3D]) (cbs := 0) (by decide)
  exact ⟨⟨rfl, rfl⟩, by decide, h.1, h.2, by decide⟩

theorem witness_ProcessIsBounded_payload :
    (idle regsPayload).Idle regsPayload ∧
    exec (.process [0x4D, 0x51, 0x58, 0x81] 0) (idle regsPayload) = .next (afterCall (idle regsPayload) [0x4D, 0x51, 0x58, 0x81] 0) ∧
    (afterCall (idle regsPayload) [0x4D, 0x51, 0x58, 0x81] 0).results =
      (idle regsPayload).results ++ [resOf (afterCall (idle regsPayload) [0x4D, 0x51, 0x58, 0x81] 0)] ∧
    regsPayload.state = .payload := by
  have h := exec_of_oneCall (s := idle regsPayload) (span := [0x4D, 0x51, 0x58, 0x81]) (cbs := 0) (by decide)
  exact ⟨⟨rfl, rfl⟩, h.1, h.2, rfl⟩

theorem witness_LeftoverOnlyAfterAnEvent :
    (idle regsPayload).Idle regsPayload ∧
    exec (.process [0x4D, 0x51, 0x58, 0x81] 0) (idle regsPayload) = .next (afterCall (idle regsPayload) [0x4D, 0x51, 0x58, 0x81] 0) ∧
    (afterCall (idle regsPayload) [0x4D, 0x51, 0x58, 0x81] 0).results =
      (idle regsPayload).results ++ [resOf (afterCall (idle regsPayload) [0x4D, 0x51, 0x58, 0x81] 0)] ∧
    regsPayload.Inv ∧ (resOf (afterCall (idle regsPayload) [0x4D, 0x51, 0x58, 0x81] 0)).status = .ok ∧
    (resOf (afterCall (idle regsPayload) [0x4D, 0x51, 0x58, 0x81] 0)).consumed < 4 := by
  have h := exec_of_oneCall (s := idle regsPayload) (span := [0x4D, 0x51, 0x58, 0x81]) (cbs := 0) (by decide)
  exact ⟨⟨rfl, rfl⟩, h.1, h.2, inv_regsPayload, by decide, by decide⟩

theorem witness_FrameCompleteAtTheBoundary :
    (idle regsPayload).Idle regsPayload ∧
    exec (.process [0x4D, 0x51, 0x58, 0x81] 0) (idle regsPayload) = .next (afterCall (idle regsPayload) [0x4D, 0x51, 0x58, 0x81] 0) ∧
    (afterCall (idle regsPayload) [0x4D, 0x51, 0x58, 0x81] 0).results =
      (idle regsPayload).results ++ [resOf (afterCall (idle regsPayload) [0x4D, 0x51, 0x58, 0x81] 0)] ∧
    (resOf (afterCall (idle regsPayload) [0x4D, 0x51, 0x58, 0x81] 0)).frameComplete = true := by
  have h := exec_of_oneCall (s := idle regsPayload) (span := [0x4D, 0x51, 0x58, 0x81]) (cbs := 0) (by decide)
  exact ⟨⟨rfl, rfl⟩, h.1, h.2, by decide⟩

theorem witness_EventsCarryHeaderAndContext_header :
    (idle regsKey).Idle regsKey ∧
    exec (.process [0x3D] 0) (idle regsKey) = .next (afterCall (idle regsKey) [0x3D] 0) ∧
    (afterCall (idle regsKey) [0x3D] 0).results =
      (idle regsKey).results ++ [resOf (afterCall (idle regsKey) [0x3D] 0)] ∧
    regsKey.Inv ∧ (resOf (afterCall (idle regsKey) [0x3D] 0)).event =
      .header (regsOf (afterCall (idle regsKey) [0x3D] 0)).cur 7 ∧
    (afterCall (idle regsKey) [0x3D] 0).decoder = .decoding (regsOf (afterCall (idle regsKey) [0x3D] 0)) := by
  have h := exec_of_oneCall (s := idle regsKey) (span := [0x3D]) (cbs := 0) (by decide)
  exact ⟨⟨rfl, rfl⟩, h.1, h.2, inv_regsKey, by decide, by decide⟩

theorem witness_EventsCarryHeaderAndContext_payload :
    (idle regsPayload).Idle regsPayload ∧
    exec (.process [0x4D] 0) (idle regsPayload) = .next (afterCall (idle regsPayload) [0x4D] 0) ∧
    (afterCall (idle regsPayload) [0x4D] 0).results =
      (idle regsPayload).results ++ [resOf (afterCall (idle regsPayload) [0x4D] 0)] ∧
    regsPayload.Inv ∧ (resOf (afterCall (idle regsPayload) [0x4D] 0)).event = .payload [0x6C] 7 := by
  have h := exec_of_oneCall (s := idle regsPayload) (span := [0x4D]) (cbs := 0) (by decide)
  exact ⟨⟨rfl, rfl⟩, h.1, h.2, inv_regsPayload, by decide⟩

theorem witness_CallbackAnswerMattersOnlyByZero_failing :
    (idle regsPayload).Idle regsPayload ∧
    exec (.process [0x4D] 9) (idle regsPayload) = .next (afterCall (idle regsPayload) [0x4D] 9) ∧
    (afterCall (idle regsPayload) [0x4D] 9).results =
      (idle regsPayload).results ++ [resOf (afterCall (idle regsPayload) [0x4D] 9)] ∧
    (9 : CbStatus) ≠ 0 ∧
    (resOf (afterCall (idle regsPayload) [0x4D] 9)).event ≠ .none ∧ ((7 : CbStatus) = 0 ↔ (9 : CbStatus) = 0) := by
  have h := exec_of_oneCall (s := idle regsPayload) (span := [0x4D]) (cbs := 9) (by decide)
  exact ⟨⟨rfl, rfl⟩, h.1, h.2, by decide, by decide, by decide⟩

theorem witness_CallbackAnswerMattersOnlyByZero_success :
    (idle regsKey).Idle regsKey ∧
    exec (.process [0x3D] 0) (idle regsKey) = .next (afterCall (idle regsKey) [0x3D] 0) ∧
    (afterCall (idle regsKey) [0x3D] 0).results =
      (idle regsKey).results ++ [resOf (afterCall (idle regsKey) [0x3D] 0)] ∧
    (0 : CbStatus) = 0 := by
  have h := exec_of_oneCall (s := idle regsKey) (span := [0x3D]) (cbs := 0) (by decide)
  exact ⟨⟨rfl, rfl⟩, h.1, h.2, rfl⟩

theorem witness_ContextNeverSteersACall :
    (idle regsPayload).Idle regsPayload ∧
    exec (.process [0x4D] 0) (idle regsPayload) = .next (afterCall (idle regsPayload) [0x4D] 0) ∧
    (afterCall (idle regsPayload) [0x4D] 0).results =
      (idle regsPayload).results ++ [resOf (afterCall (idle regsPayload) [0x4D] 0)] ∧
    (resOf (afterCall (idle regsPayload) [0x4D] 0)).event = .payload [0x6C] 7 := by
  have h := exec_of_oneCall (s := idle regsPayload) (span := [0x4D]) (cbs := 0) (by decide)
  exact ⟨⟨rfl, rfl⟩, h.1, h.2, by decide⟩

theorem witness_ResetGivesTheResetRegisters :
    failed.call = none := rfl

/-! ### Witnesses: the step -/

theorem witness_StepRunsTheOldestCommand_idle :
    (idle regsKey).call = none ∧ (idle regsKey).commands = [] := ⟨rfl, rfl⟩

theorem witness_StepRunsTheOldestCommand_reset :
    failed.call = none ∧
    ({ failed with commands := [.reset 3] } : State).commands = .reset 3 :: [] := ⟨rfl, rfl⟩

theorem witness_StepRunsTheOldestCommand_process :
    ({ idle regsKey with commands := [.process [0x3D]] } : State).commands = .process [0x3D] :: [] ∧
    isNext (exec (.process [0x3D] (nextAnswer (idle regsKey))) (idle regsKey)) = true := ⟨rfl, by decide⟩

theorem witness_StepRunsTheOldestCommand_refused :
    ({ failed with commands := [.process []] } : State).commands = .process [] :: [] ∧
    exec (.process [] (nextAnswer { failed with commands := [.process []] })) failed =
      .refused .processAfterFailure := ⟨rfl, rfl⟩

theorem witness_StepRunsTheHandlerStateSelects_next :
    (inCall regsPayload [0x4D] 0).InCall regsPayload (Call.start [0x4D] 0) ∧
    decode .stateReg [regsPayload.state.code.setWidth 8] = .ok .sPayload [] ∧
    isNext (exec .sPayload (inCall regsPayload [0x4D] 0)) = true := ⟨⟨rfl, rfl⟩, by decide, by decide⟩

theorem witness_StepRunsTheHandlerStateSelects_fault :
    (inCall { regsKey with scratchCount := 5 } [] 0).InCall { regsKey with scratchCount := 5 }
      (Call.start [] 0) ∧
    decode .stateReg [regsKey.state.code.setWidth 8] = .ok .sMaskingKey [] ∧
    exec .sMaskingKey (inCall { regsKey with scratchCount := 5 } [] 0) = .fault .accumulatorOverrun := ⟨⟨rfl, rfl⟩, by decide, rfl⟩

theorem witness_StepRunsTheFetchedWord :
    (idle regsKey).Idle regsKey ∧ (255 : Nat) < 256 := ⟨⟨rfl, rfl⟩, by decide⟩

theorem witness_StepsRunTheDecodedFrame :
    ({ idle (boundary false) with commands := [.process (encodeFrame 0x9 emptyFrame)] } : State).Idle
      (boundary false) ∧ (boundary false).Inv ∧ emptyFrame.wf = true ∧
    exec (Instr.ofOpcode 0x9 emptyFrame) (idle (boundary false)) =
      .next (nextOf (exec (Instr.ofOpcode 0x9 emptyFrame) (idle (boundary false)))) := ⟨⟨rfl, rfl⟩, inv_boundary _, by decide, eq_nextOf (by decide)⟩

theorem witness_ModeChangesByErrorOrReset_reset :
    step { failed with commands := [.reset 3] } =
      .next (nextOf (step { failed with commands := [.reset 3] })) ∧
    failed.mode = .failed ∧ (nextOf (step { failed with commands := [.reset 3] })).mode = .decoding := ⟨eq_nextOf (by decide), by decide, by decide⟩

theorem witness_ModeChangesByErrorOrReset_error :
    step { idle (boundary true) with commands := [.process [0x81]] } =
      .next (nextOf (step { idle (boundary true) with commands := [.process [0x81]] })) ∧
    (idle (boundary true)).mode = .decoding ∧
    (nextOf (step { idle (boundary true) with commands := [.process [0x81]] })).mode = .failed := ⟨eq_nextOf (by decide), by decide, by decide⟩

theorem witness_StepKeepsTheInvariant :
    ({ idle regsPayload with commands := [.process [0x4D]] } : State).Inv ∧
    step { idle regsPayload with commands := [.process [0x4D]] } =
      .next (nextOf (step { idle regsPayload with commands := [.process [0x4D]] })) := ⟨⟨rfl, inv_state.regs, by decide⟩, eq_nextOf (by decide)⟩

theorem witness_StepStopsOnlyAfterFailure :
    (idle regsPayload).Inv ∧ failed.Inv := ⟨inv_state, inv_failed⟩

/-! ### Witnesses: frames and the forms of byte 1 -/

/-- A masked frame of one payload byte. -/
def oneByteFrame : Frame := ⟨true, ⟨true, false, true⟩, true, .len7 1, #v[1, 2, 3, 4], [0xAA]⟩

theorem idle_answered (r : Regs) (f : Frame) : (idle r).Answered (frameEvents f) := by
  unfold frameEvents
  split
  · exact ⟨[0, 0, 0], rfl⟩
  · exact ⟨[0, 0], rfl⟩

theorem witness_ContinuationFrameRuns :
    (idle (boundary true)).Idle (boundary true) ∧ (boundary true).state = .opcodeByte ∧
    oneByteFrame.wf = true ∧ oneByteFrame.len.reserved = false ∧
    (idle (boundary true)).Answered (frameEvents oneByteFrame) ∧
    (boundary true).continuationExpected = true := ⟨⟨rfl, rfl⟩, rfl, by decide, by decide, idle_answered _ _, rfl⟩

theorem witness_StartingDataFramesRun :
    (idle (boundary false)).Idle (boundary false) ∧ (boundary false).state = .opcodeByte ∧
    oneByteFrame.wf = true ∧ oneByteFrame.len.reserved = false ∧
    (idle (boundary false)).Answered (frameEvents oneByteFrame) ∧
    (boundary false).continuationExpected = false ∧
    ((0x7 : BitVec 4), Instr.data7 oneByteFrame) ∈
      [((0x1 : BitVec 4), Instr.text oneByteFrame), (0x2, .binary oneByteFrame), (0x3, .data3 oneByteFrame),
        (0x4, .data4 oneByteFrame), (0x5, .data5 oneByteFrame), (0x6, .data6 oneByteFrame),
        (0x7, .data7 oneByteFrame)] := ⟨⟨rfl, rfl⟩, rfl, by decide, by decide, idle_answered _ _, rfl, by simp⟩

theorem witness_ControlFramesRun :
    (idle (boundary true)).Idle (boundary true) ∧ (boundary true).state = .opcodeByte ∧
    oneByteFrame.wf = true ∧ oneByteFrame.len.reserved = false ∧
    (idle (boundary true)).Answered (frameEvents oneByteFrame) ∧
    oneByteFrame.fin = true ∧
    ((0xF : BitVec 4), Instr.ctrlf oneByteFrame) ∈
      [((0x8 : BitVec 4), Instr.close oneByteFrame), (0x9, .ping oneByteFrame), (0xA, .pong oneByteFrame),
        (0xB, .ctrlb oneByteFrame), (0xC, .ctrlc oneByteFrame), (0xD, .ctrld oneByteFrame),
        (0xE, .ctrle oneByteFrame), (0xF, .ctrlf oneByteFrame)] := ⟨⟨rfl, rfl⟩, rfl, by decide, by decide, idle_answered _ _, rfl, by simp⟩

theorem witness_MisplacedFramesRaiseEFrag_continuation :
    (idle (boundary false)).Idle (boundary false) ∧ (boundary false).state = .opcodeByte ∧
    (0x0 : BitVec 4) = 0x0 ∧ (boundary false).continuationExpected = false := ⟨⟨rfl, rfl⟩, rfl, rfl, rfl⟩

theorem witness_MisplacedFramesRaiseEFrag_data :
    (idle (boundary true)).Idle (boundary true) ∧ (boundary true).state = .opcodeByte ∧
    (0x1 : BitVec 4) ≤ 0x7 ∧ (0x7 : BitVec 4) ≤ 0x7 ∧ (boundary true).continuationExpected = true := ⟨⟨rfl, rfl⟩, rfl, by decide, by decide, rfl⟩

theorem witness_MisplacedFramesRaiseEFrag_control :
    (idle (boundary true)).Idle (boundary true) ∧ (boundary true).state = .opcodeByte ∧
    (0x8 : BitVec 4) ≤ 0x8 ∧ ({ emptyFrame with fin := false } : Frame).fin = false := ⟨⟨rfl, rfl⟩, rfl, by decide, rfl⟩

theorem witness_ReservedLengthRaisesERsvlen :
    (idle (boundary false)).Idle (boundary false) ∧ (boundary false).state = .opcodeByte ∧
    ({ emptyFrame with masked := true, len := .len64 0x8000000000000000 } : Frame).wf = true ∧
    (0x8000000000000000 : Word64).getLsbD 63 = true ∧
    fragCheck true ((0x2 : BitVec 4).setWidth 8) (boundary false).continuationExpected = none := ⟨⟨rfl, rfl⟩, rfl, by decide, by decide, by decide⟩

theorem witness_FailingHeaderCallbackEndsTheFrame :
    ({ idle (boundary false) with answers := [7] } : State).Idle (boundary false) ∧
    (boundary false).state = .opcodeByte ∧ oneByteFrame.wf = true ∧ oneByteFrame.len.reserved = false ∧
    nextAnswer { idle (boundary false) with answers := [7] } ≠ 0 ∧
    fragCheck oneByteFrame.fin ((0x2 : BitVec 4).setWidth 8) (boundary false).continuationExpected = none := ⟨⟨rfl, rfl⟩, rfl, by decide, by decide, by decide, by decide⟩

theorem witness_UnmaskedFormsCompleteTheHeader_len7 :
    (idle (regsIn .lengthByte)).Idle (regsIn .lengthByte) ∧ (regsIn .lengthByte).state = .lengthByte ∧
    (LenField.len7 125).wf = true ∧ (LenField.len7 125).reserved = false ∧
    (idle (regsIn .lengthByte)).Answered 1 ∧
    (∃ code, (LenField.len7 125) = .len7 code ∧ Instr.len7 false 125 = .len7 false code) := ⟨⟨rfl, rfl⟩, rfl, by decide, by decide, ⟨[0, 0, 0], rfl⟩, _, rfl, rfl⟩

theorem witness_MaskedLengthsWaitForTheKey_len7 :
    (idle (regsIn .lengthByte)).Idle (regsIn .lengthByte) ∧ (regsIn .lengthByte).state = .lengthByte ∧
    (LenField.len7 125).wf = true ∧ (LenField.len7 125).reserved = false ∧
    (∃ code, (LenField.len7 125) = .len7 code ∧ Instr.len7 true 125 = .len7 true code) := ⟨⟨rfl, rfl⟩, rfl, by decide, by decide, _, rfl, rfl⟩

theorem witness_UnmaskedFormsCompleteTheHeader_len16 :
    (idle (regsIn .lengthByte)).Idle (regsIn .lengthByte) ∧ (regsIn .lengthByte).state = .lengthByte ∧
    (LenField.len16 0).wf = true ∧ (LenField.len16 0).reserved = false ∧
    (idle (regsIn .lengthByte)).Answered 1 ∧
    (∃ v, (LenField.len16 0) = .len16 v ∧ Instr.len16 false 0 = .len16 false v) := ⟨⟨rfl, rfl⟩, rfl, by decide, by decide, ⟨[0, 0, 0], rfl⟩, _, rfl, rfl⟩

theorem witness_MaskedLengthsWaitForTheKey_len16 :
    (idle (regsIn .lengthByte)).Idle (regsIn .lengthByte) ∧ (regsIn .lengthByte).state = .lengthByte ∧
    (LenField.len16 0).wf = true ∧ (LenField.len16 0).reserved = false ∧
    (∃ v, (LenField.len16 0) = .len16 v ∧ Instr.len16 true 0 = .len16 true v) := ⟨⟨rfl, rfl⟩, rfl, by decide, by decide, _, rfl, rfl⟩

theorem witness_UnmaskedFormsCompleteTheHeader_len64 :
    (idle (regsIn .lengthByte)).Idle (regsIn .lengthByte) ∧ (regsIn .lengthByte).state = .lengthByte ∧
    (LenField.len64 0x7FFFFFFFFFFFFFFF).wf = true ∧ (LenField.len64 0x7FFFFFFFFFFFFFFF).reserved = false ∧
    (idle (regsIn .lengthByte)).Answered 1 ∧
    (∃ v, (LenField.len64 0x7FFFFFFFFFFFFFFF) = .len64 v ∧ Instr.len64 false 0x7FFFFFFFFFFFFFFF = .len64 false v) := ⟨⟨rfl, rfl⟩, rfl, by decide, by decide, ⟨[0, 0, 0], rfl⟩, _, rfl, rfl⟩

theorem witness_MaskedLengthsWaitForTheKey_len64 :
    (idle (regsIn .lengthByte)).Idle (regsIn .lengthByte) ∧ (regsIn .lengthByte).state = .lengthByte ∧
    (LenField.len64 0x7FFFFFFFFFFFFFFF).wf = true ∧ (LenField.len64 0x7FFFFFFFFFFFFFFF).reserved = false ∧
    (∃ v, (LenField.len64 0x7FFFFFFFFFFFFFFF) = .len64 v ∧ Instr.len64 true 0x7FFFFFFFFFFFFFFF = .len64 true v) := ⟨⟨rfl, rfl⟩, rfl, by decide, by decide, _, rfl, rfl⟩

theorem witness_UnmaskedFormsCompleteTheHeader_unmasked :
    (idle (regsIn .lengthByte)).Idle (regsIn .lengthByte) ∧ (regsIn .lengthByte).state = .lengthByte ∧
    (LenField.len7 0).wf = true ∧ (LenField.len7 0).reserved = false ∧
    (idle (regsIn .lengthByte)).Answered 1 := ⟨⟨rfl, rfl⟩, rfl, by decide, by decide, ⟨[0, 0, 0], rfl⟩⟩

theorem witness_MaskedFormCompletesTheHeader :
    (idle (regsIn .lengthByte)).Idle (regsIn .lengthByte) ∧ (regsIn .lengthByte).state = .lengthByte ∧
    (LenField.len64 0x7FFFFFFFFFFFFFFF).wf = true ∧ (LenField.len64 0x7FFFFFFFFFFFFFFF).reserved = false ∧
    (idle (regsIn .lengthByte)).Answered 1 := ⟨⟨rfl, rfl⟩, rfl, by decide, by decide, ⟨[0, 0, 0], rfl⟩⟩

theorem witness_ReservedFormsRaiseERsvlen :
    (idle (regsIn .lengthByte)).Idle (regsIn .lengthByte) ∧ (regsIn .lengthByte).state = .lengthByte ∧
    (0x8000000000000000 : Word64).getLsbD 63 = true ∧
    Instr.masked (.len64 0x8000000000000000) #v[1, 2, 3, 4] ∈
      [Instr.len64 false 0x8000000000000000, .len64 true 0x8000000000000000,
        .unmasked (.len64 0x8000000000000000), .masked (.len64 0x8000000000000000) #v[1, 2, 3, 4]] := ⟨⟨rfl, rfl⟩, rfl, by decide, by simp⟩

/-! ### Witnesses: the stream -/

theorem witness_PartitionInvariance :
    (idle (boundary false)).Idle (boundary false) ∧ (boundary false).Inv ∧
    (idle (boundary false)).Answered ([[0x81, 0x01], [0x41]] : List (List Byte)).flatten.length ∧
    ([[0x81, 0x01], [0x41]] : List (List Byte)).flatten =
      ([[0x81], [], [0x01, 0x41]] : List (List Byte)).flatten ∧
    feedAll [[0x81, 0x01], [0x41]] (idle (boundary false)) =
      .next (nextOf (feedAll [[0x81, 0x01], [0x41]] (idle (boundary false)))) := ⟨⟨rfl, rfl⟩, inv_boundary _, ⟨[0], rfl⟩, rfl, eq_nextOf (by decide)⟩

theorem witness_RoundTripThroughAnyPartition :
    ({ idle (boundary false) with answers := List.replicate 7 0 } : State).Idle (boundary false) ∧
    (boundary false).Inv ∧ (boundary false).state = .opcodeByte ∧ oneByteFrame.wf = true ∧
    oneByteFrame.len.reserved = false ∧
    fragCheck oneByteFrame.fin ((0x2 : BitVec 4).setWidth 8) (boundary false).continuationExpected = none ∧
    ({ idle (boundary false) with answers := List.replicate 7 0 } : State).Answered
      (encodeFrame 0x2 oneByteFrame).length ∧
    ([[0xD2, 0x81, 0x01], [0x02, 0x03], [0x04, 0xAB]] : List (List Byte)).flatten =
      encodeFrame 0x2 oneByteFrame := ⟨⟨rfl, rfl⟩, inv_boundary _, rfl, by decide, by decide, by decide, ⟨[], rfl⟩, by decide⟩

end Sys2Proof.Tests
end

section
/-! What the user context can and cannot reach (00_scope.md R7, 10_state.md R41). Each operation of a call
commutes with replacing the context: of the registers, and in the event a call carries. The equations
`…_withCtx` say so from the accumulator up to the dispatcher. -/

namespace Sys2Proof.Machine

/-! ### Another context -/

/-- The registers with another context. -/
def Regs.withCtx (ctx : Ctx) (r : Regs) : Regs := { r with userCtx := ctx }

/-- The event passed with another context. -/
def Event.withCtx (ctx : Ctx) : Event → Event
  | .none => .none
  | .header h _ => .header h ctx
  | .payload bytes _ => .payload bytes ctx

/-- The call with another context in its event. -/
def Call.withCtx (ctx : Ctx) (c : Call) : Call := { c with event := c.event.withCtx ctx }

/-- The result with another context in its event. -/
def CallResult.withCtx (ctx : Ctx) (res : CallResult) : CallResult :=
  { res with event := res.event.withCtx ctx }

/-- What `Accumulate` ends in, with another context. -/
def AccOut.withCtx (ctx : Ctx) : AccOut → AccOut
  | .overrun => .overrun
  | .partly r c => .partly (r.withCtx ctx) (c.withCtx ctx)
  | .complete r c => .complete (r.withCtx ctx) (c.withCtx ctx)

/-- A handler's end with another context. -/
def HandlerOut.withCtx (ctx : Ctx) : HandlerOut → HandlerOut
  | .advance r c => .advance (r.withCtx ctx) (c.withCtx ctx)
  | .starved r c => .starved (r.withCtx ctx) (c.withCtx ctx)
  | .fired r c => .fired (r.withCtx ctx) (c.withCtx ctx)
  | .raised e c => .raised e (c.withCtx ctx)
  | .stuck f => .stuck f

/-! ### The shared operations -/

theorem setByte1_withCtx (ctx : Ctx) (b : Byte) (r : Regs) :
    setByte1 b (r.withCtx ctx) = (setByte1 b r).withCtx ctx := by
  unfold setByte1
  dsimp only
  split <;> rfl

theorem completeRegs_withCtx (ctx : Ctx) (r : Regs) :
    completeRegs (r.withCtx ctx) = (completeRegs r).withCtx ctx := by
  simp only [completeRegs_eq, Regs.withCtx]

theorem accumulate_withCtx (ctx : Ctx) (width : Nat) (r : Regs) (c : Call) :
    accumulate width (r.withCtx ctx) (c.withCtx ctx) = (accumulate width r c).withCtx ctx := by
  unfold accumulate
  rw [apply_ite (AccOut.withCtx ctx)]
  dsimp only
  rw [apply_ite (AccOut.withCtx ctx)]
  rfl

/-! ### The handlers -/

theorem opcodeByteBody_withCtx (ctx : Ctx) (r : Regs) (c : Call) :
    opcodeByteBody (r.withCtx ctx) (c.withCtx ctx) = (opcodeByteBody r c).withCtx ctx := by
  cases hu : c.unread with
  | nil =>
    rw [opcodeByteBody_starved hu, opcodeByteBody_starved (c := c.withCtx ctx) hu]
    rfl
  | cons b rest =>
    cases hf : fragCheck (byte0Fin b) (b &&& 0x0F) r.continuationExpected with
    | some cause =>
      rw [opcodeByteBody_raised hu hf,
        opcodeByteBody_raised (r := r.withCtx ctx) (c := c.withCtx ctx) hu hf]
      rfl
    | none =>
      rw [opcodeByteBody_advance hu hf,
        opcodeByteBody_advance (r := r.withCtx ctx) (c := c.withCtx ctx) hu hf]
      rfl

theorem lengthByteBody_withCtx (ctx : Ctx) (r : Regs) (c : Call) :
    lengthByteBody (r.withCtx ctx) (c.withCtx ctx) = (lengthByteBody r c).withCtx ctx := by
  cases hu : c.unread with
  | nil =>
    rw [lengthByteBody_starved hu, lengthByteBody_starved (c := c.withCtx ctx) hu]
    rfl
  | cons b rest =>
    rw [lengthByteBody_advance hu, lengthByteBody_advance (c := c.withCtx ctx) hu, setByte1_withCtx]
    rfl

theorem extendedLengthBody_withCtx (ctx : Ctx) (r : Regs) (c : Call) :
    extendedLengthBody (r.withCtx ctx) (c.withCtx ctx) = (extendedLengthBody r c).withCtx ctx := by
  have hacc := accumulate_withCtx ctx r.extWidth.bytes r c
  unfold extendedLengthBody
  change accumulate (r.withCtx ctx).extWidth.bytes _ _ = _ at hacc
  rw [hacc]
  cases accumulate r.extWidth.bytes r c with
  | overrun => rfl
  | partly r' c' => rfl
  | complete r' c' =>
    dsimp only [AccOut.withCtx]
    rw [apply_ite (HandlerOut.withCtx ctx)]
    rfl

theorem maskingKeyCheckBody_withCtx (ctx : Ctx) (r : Regs) (c : Call) :
    maskingKeyCheckBody (r.withCtx ctx) (c.withCtx ctx) = (maskingKeyCheckBody r c).withCtx ctx := by
  cases hm : r.cur.masked with
  | false =>
    rw [maskingKeyCheckBody_unmasked c hm, maskingKeyCheckBody_unmasked (r := r.withCtx ctx) _ hm]
    rfl
  | true =>
    rw [maskingKeyCheckBody_masked c hm, maskingKeyCheckBody_masked (r := r.withCtx ctx) _ hm]
    rfl

theorem maskingKeyBody_withCtx (ctx : Ctx) (r : Regs) (c : Call) :
    maskingKeyBody (r.withCtx ctx) (c.withCtx ctx) = (maskingKeyBody r c).withCtx ctx := by
  unfold maskingKeyBody
  rw [accumulate_withCtx]
  cases accumulate 4 r c <;> rfl

theorem payloadCheckBody_withCtx (ctx : Ctx) (r : Regs) (c : Call) :
    payloadCheckBody (r.withCtx ctx) (c.withCtx ctx) = (payloadCheckBody r c).withCtx ctx := by
  by_cases hq : c.cbs = 0
  · by_cases hl : r.cur.payloadLength = 0
    · rw [payloadCheckBody_empty hq hl,
        payloadCheckBody_empty (r := r.withCtx ctx) (c := c.withCtx ctx) hq hl, completeRegs_withCtx]
      rfl
    · rw [payloadCheckBody_payload hq hl,
        payloadCheckBody_payload (r := r.withCtx ctx) (c := c.withCtx ctx) hq hl]
      rfl
  · rw [payloadCheckBody_raised hq, payloadCheckBody_raised (c := c.withCtx ctx) hq]
    rfl

theorem payloadBody_withCtx (ctx : Ctx) (r : Regs) (c : Call) :
    payloadBody (r.withCtx ctx) (c.withCtx ctx) = (payloadBody r c).withCtx ctx := by
  by_cases ha : c.avail = 0
  · rw [payloadBody_starved ha, payloadBody_starved (c := c.withCtx ctx) ha]
    rfl
  by_cases hq : c.cbs = 0
  · by_cases hz : r.payloadRemaining.toNat ≤ min c.avail r.payloadRemaining.toNat
    · rw [payloadBody_completes ha rfl hq hz,
        payloadBody_completes (r := r.withCtx ctx) (c := c.withCtx ctx) ha rfl hq hz]
      change HandlerOut.fired (completeRegs ((countPayload _ r).withCtx ctx)) _ = _
      rw [completeRegs_withCtx]
      rfl
    · rw [payloadBody_goesOn ha rfl hq (Nat.lt_of_not_le hz),
        payloadBody_goesOn (r := r.withCtx ctx) (c := c.withCtx ctx) ha rfl hq (Nat.lt_of_not_le hz)]
      rfl
  · rw [payloadBody_raised ha rfl hq, payloadBody_raised (c := c.withCtx ctx) ha rfl hq]
    rfl

/-- Every handler commutes with replacing the context. -/
theorem handlerBody_withCtx (ctx : Ctx) (st : SubState) (r : Regs) (c : Call) :
    handlerBody st (r.withCtx ctx) (c.withCtx ctx) = (handlerBody st r c).withCtx ctx := by
  cases st with
  | opcodeByte => exact opcodeByteBody_withCtx ctx r c
  | lengthByte => exact lengthByteBody_withCtx ctx r c
  | extendedLength => exact extendedLengthBody_withCtx ctx r c
  | maskingKeyCheck => exact maskingKeyCheckBody_withCtx ctx r c
  | maskingKey => exact maskingKeyBody_withCtx ctx r c
  | payloadCheck => exact payloadCheckBody_withCtx ctx r c
  | payload => exact payloadBody_withCtx ctx r c
  | done => rfl

/-- Replacing the context makes no handler's end an advance. -/
theorem HandlerOut.withCtx_ne_advance {ctx : Ctx} {out : HandlerOut}
    (hne : ∀ r c, out ≠ .advance r c) (r : Regs) (c : Call) : out.withCtx ctx ≠ .advance r c := by
  cases out with
  | advance r' c' => exact absurd rfl (hne r' c')
  | _ => simp [HandlerOut.withCtx]

/-! ### The call -/

/-- A call begins without an event, so without a context. -/
theorem Call.start_withCtx (ctx : Ctx) (span : List Byte) (cbs : CbStatus) :
    (Call.start span cbs).withCtx ctx = Call.start span cbs := rfl

/-- A call on `s` has led to `t`; `o` is what the same call from the context `ctx` on `s'` gives: the same end,
but for the context in the registers and in the event. -/
inductive EndsSameButCtx (ctx : Ctx) (s s' t : State) (o : Host.Outcome State Fault Refusal) : Prop
  | ok (r : Regs) (res : CallResult) (ht : t = returned r res s)
      (ho : o = .next (returned (r.withCtx ctx) (res.withCtx ctx) s'))
  | err (n : Nat) (ev : Event) (e : DecodeError) (ht : t = failedWith n ev e s)
      (ho : o = .next (failedWith n (ev.withCtx ctx) e s'))

/-- The end of a call commutes with replacing the context. -/
theorem conclude_withCtx (ctx : Ctx) {s t : State} (s' : State) {out : HandlerOut}
    (hne : ∀ r c, out ≠ .advance r c) (h : conclude s out = .next t) :
    EndsSameButCtx ctx s s' t (conclude s' (out.withCtx ctx)) := by
  cases out with
  | advance r c => exact absurd rfl (hne r c)
  | starved r c => cases h; exact .ok _ _ rfl rfl
  | fired r c => cases h; exact .ok _ _ rfl rfl
  | raised e c => cases h; exact .err _ _ e rfl rfl
  | stuck f => cases h

/-- The dispatcher's loop commutes with replacing the context. -/
theorem dispatch_withCtx (ctx : Ctx) {k : Nat} {s t : State} {r : Regs} {c : Call} (s' : State)
    (h : dispatch k s r c = .next t) :
    EndsSameButCtx ctx s s' t (dispatch k s' (r.withCtx ctx) (c.withCtx ctx)) := by
  induction k generalizing r c with
  | zero => cases h
  | succ k ih =>
    have hb' := handlerBody_withCtx ctx r.state r c
    by_cases hadv : ∃ r₁ c₁, handlerBody r.state r c = .advance r₁ c₁
    · obtain ⟨r₁, c₁, hb⟩ := hadv
      rw [hb] at hb'
      rw [dispatch_advance k s hb] at h
      rw [dispatch_advance k s' hb']
      exact ih h
    · have hne : ∀ r₁ c₁, handlerBody r.state r c ≠ .advance r₁ c₁ := fun r₁ c₁ hb =>
        hadv ⟨r₁, c₁, hb⟩
      rw [dispatch_ends k s rfl hne] at h
      rw [dispatch_ends k s' hb' (HandlerOut.withCtx_ne_advance hne)]
      exact conclude_withCtx ctx s' hne h

/-- The row PROCESS between two calls is the dispatcher's loop. -/
theorem exec_process_idle {s : State} {r : Regs} (hs : s.Idle r) (span : List Byte) (cbs : CbStatus) :
    exec (.process span cbs) s = dispatch Config.maxHandlers s r (Call.start span cbs) :=
  processCall_idle hs span cbs

/-- PROCESS commutes with replacing the context. -/
theorem exec_process_withCtx (ctx : Ctx) {s t : State} {r : Regs} {span : List Byte} {cbs : CbStatus}
    (hs : s.Idle r) (h : exec (.process span cbs) s = .next t) :
    EndsSameButCtx ctx s (s.setDecoder (.decoding (r.withCtx ctx))) t
      (exec (.process span cbs) (s.setDecoder (.decoding (r.withCtx ctx)))) := by
  have hs' : (s.setDecoder (.decoding (r.withCtx ctx))).Idle (r.withCtx ctx) := ⟨rfl, hs.2⟩
  rw [exec_process_idle hs] at h
  rw [exec_process_idle hs', ← Call.start_withCtx ctx]
  exact dispatch_withCtx ctx _ h

/-- Settles O30: the call ends the same way from either context, so its one result and the registers agree but
for the context. -/
theorem contextNeverSteersACall : Obligations.ContextNeverSteersACall := by
  intro s r span cbs ctx hs t res ht hres
  cases exec_process_withCtx ctx hs ht with
  | ok r₁ res₁ htr ho =>
    subst htr
    obtain rfl : res₁ = res := by simpa [returned] using hres
    refine ⟨_, res₁.withCtx ctx, ho, rfl, rfl, rfl, rfl, ?_, ?_, ?_, ?_, fun hf => ?_⟩
    · exact fun h d he => congrArg (Event.withCtx ctx) he
    · exact fun bytes d he => congrArg (Event.withCtx ctx) he
    · exact fun he => congrArg (Event.withCtx ctx) he
    · rintro r₂ ⟨⟩
      rfl
    · cases hf
  | err n ev e htr ho =>
    subst htr
    obtain rfl : (⟨n, ev, false, .err e⟩ : CallResult) = res := by simpa [failedWith] using hres
    refine ⟨_, CallResult.withCtx ctx ⟨n, ev, false, .err e⟩, ho, rfl, rfl, rfl, rfl, ?_, ?_, ?_,
      fun r₁ hr => ?_, fun _ => rfl⟩
    · exact fun h d he => congrArg (Event.withCtx ctx) he
    · exact fun bytes d he => congrArg (Event.withCtx ctx) he
    · exact fun he => congrArg (Event.withCtx ctx) he
    · cases hr

end Sys2Proof.Machine
end

section
/-! What a step between two calls does, one equation per oldest command (00_scope.md R9, 60_exceptions.md R288). -/

namespace Sys2Proof.Machine

theorem step_of_no_command {s : State} (hc : s.call = none) (hcmd : s.commands = []) :
    step s = .next s := by
  simp [step, hc, hcmd]

theorem step_of_reset {s : State} {ctx : Ctx} {rest : List Command} (hc : s.call = none)
    (hcmd : s.commands = .reset ctx :: rest) : step s = exec (.reset ctx) (s.setCommands rest) := by
  simp [step, hc, hcmd]

theorem step_of_process_next {s t : State} {span : List Byte} {rest : List Command}
    (hc : s.call = none) (hcmd : s.commands = .process span :: rest)
    (h : exec (.process span (nextAnswer s)) (s.setCommands rest) = .next t) :
    step s = .next (settle span t) := by
  simp [step, hc, hcmd, h]

theorem step_of_process_refused {s : State} {q : Refusal} {span : List Byte} {rest : List Command}
    (hc : s.call = none) (hcmd : s.commands = .process span :: rest)
    (h : exec (.process span (nextAnswer s)) (s.setCommands rest) = .refused q) :
    step s = .refused q := by
  simp [step, hc, hcmd, h]

/-- Settles O32, by the oldest command: none, RESET, PROCESS. -/
theorem stepRunsTheOldestCommand : Obligations.StepRunsTheOldestCommand := by
  intro s rest hc
  refine ⟨step_of_no_command hc, fun ctx hcmd => step_of_reset hc hcmd, fun span hcmd => ⟨?_, ?_⟩⟩
  · exact fun t h => step_of_process_next hc hcmd h
  · exact fun q h => step_of_process_refused hc hcmd h

end Sys2Proof.Machine
end

section
/-! The row that the value of `state` names, and a step inside a call (10_state.md R22, 42_process.md R201). -/

namespace Sys2Proof.Machine

/-- Each value of `state` decodes to the row of its own sub-state (10_state.md R22). -/
theorem decode_state_code (st : SubState) :
    decode .stateReg [st.code.setWidth 8] = .ok (handlerInstr st) [] := by
  cases st <;> decide

theorem step_inCall_next {s t : State} {r : Regs} {c : Call} (hs : s.InCall r c)
    (h : exec (handlerInstr r.state) s = .next t) : step s = .next (afterHandler c.span t) := by
  obtain ⟨hd, hc⟩ := hs
  simp [step, hd, hc, h]

theorem step_inCall_fault {s : State} {r : Regs} {c : Call} {f : Fault} (hs : s.InCall r c)
    (h : exec (handlerInstr r.state) s = .fault f) : step s = .fault f := by
  obtain ⟨hd, hc⟩ := hs
  simp [step, hd, hc, h]

/-- The dispatcher has an answer to every end of a handler. -/
theorem conclude_ne_refused (s : State) (out : HandlerOut) (q : Refusal) : conclude s out ≠ .refused q := by
  cases out <;> simp

/-- A handler's row inside a call is never refused (40_header_states.md R130). -/
theorem exec_handlerInstr_ne_refused {s : State} {r : Regs} {c : Call} (hs : s.InCall r c) (st : SubState)
    (q : Refusal) : exec (handlerInstr st) s ≠ .refused q := by
  rw [exec_handlerInstr, runHandler_inCall hs]
  exact conclude_ne_refused s _ q

/-- Settles O33: the decoded row is the one `state` selects, and the step inside a call runs that row. -/
theorem stepRunsTheHandlerStateSelects : Obligations.StepRunsTheHandlerStateSelects := by
  intro s r c i hs hi
  rw [decode_state_code] at hi
  cases hi
  exact ⟨fun t h => step_inCall_next hs h, fun f h => step_inCall_fault hs h,
    fun q => exec_handlerInstr_ne_refused hs r.state q⟩

end Sys2Proof.Machine
end

section
/-! The invariant, inside a call and between calls (10_state.md R24 to R40, 42_process.md R204 to R207).
Inside a call `state` may also be one of the two zero-byte states that never rest (R37), so the handlers keep
`Regs.MidInv`, and the ends of a call turn it into `Regs.Inv`. -/

namespace Sys2Proof.Machine

/-! ### What holds inside a call -/

/-- The bounds on the registers that hold whatever `state` is (10_state.md R25, R30, R31, R33, R40). -/
structure Regs.Bounded (r : Regs) : Prop where
  scratchCount : r.scratchCount.toNat ≤ 8
  scratchZero : ∀ i : Fin 8, r.scratchCount.toNat ≤ i.val → r.scratch[i] = 0
  opcode : r.cur.opcode.toNat ≤ 0x0F
  payloadLength : r.cur.payloadLength.toNat < 2 ^ 63
  position : r.maskingPosition.toNat < 2 ^ 63

/-- What the handler that `state` selects relies on. -/
def Regs.Ready (r : Regs) : Prop :=
  match r.state with
  | .opcodeByte => True
  | .lengthByte => True
  | .extendedLength =>
    (r.extWidth = .two ∨ r.extWidth = .eight) ∧ r.scratchCount.toNat < r.extWidth.bytes
  | .maskingKeyCheck => True
  | .maskingKey => r.cur.masked = true ∧ r.scratchCount.toNat < 4
  | .payloadCheck => r.cur.masked = false → r.cur.maskingKey = Key.zero
  | .payload =>
    (1 ≤ r.payloadRemaining.toNat ∧ r.payloadRemaining.toNat ≤ r.cur.payloadLength.toNat) ∧
      (r.cur.masked = true →
        r.maskingPosition.toNat + r.payloadRemaining.toNat = r.cur.payloadLength.toNat) ∧
      (r.cur.masked = false → r.cur.maskingKey = Key.zero)
  | .done => False

theorem Regs.Ready.extendedLength {r : Regs} (h : r.Ready) (hs : r.state = .extendedLength) :
    (r.extWidth = .two ∨ r.extWidth = .eight) ∧ r.scratchCount.toNat < r.extWidth.bytes := by
  simpa only [Regs.Ready, hs] using h

theorem Regs.Ready.maskingKey {r : Regs} (h : r.Ready) (hs : r.state = .maskingKey) :
    r.cur.masked = true ∧ r.scratchCount.toNat < 4 := by
  simpa only [Regs.Ready, hs] using h

theorem Regs.Ready.payloadCheck {r : Regs} (h : r.Ready) (hs : r.state = .payloadCheck) :
    r.cur.masked = false → r.cur.maskingKey = Key.zero := by
  simpa only [Regs.Ready, hs] using h

theorem Regs.Ready.payload {r : Regs} (h : r.Ready) (hs : r.state = .payload) :
    (1 ≤ r.payloadRemaining.toNat ∧ r.payloadRemaining.toNat ≤ r.cur.payloadLength.toNat) ∧
      (r.cur.masked = true →
        r.maskingPosition.toNat + r.payloadRemaining.toNat = r.cur.payloadLength.toNat) ∧
      (r.cur.masked = false → r.cur.maskingKey = Key.zero) := by
  simpa only [Regs.Ready, hs] using h

/-- No handler relies on S_DONE: no handler leaves the machine in it (41_payload_states.md R175). -/
theorem Regs.Ready.state_ne_done {r : Regs} (h : r.Ready) : r.state ≠ .done := fun hs => by
  simp only [Regs.Ready, hs] at h

/-- What holds of the registers between two handlers of a call. -/
structure Regs.MidInv (r : Regs) : Prop where
  bounded : r.Bounded
  remainingZero : r.state ≠ .payload → r.payloadRemaining = 0
  accepted : r.state ≠ .opcodeByte → fragCheck r.cur.fin r.cur.opcode r.continuationExpected = none
  ready : r.Ready

/-- A state that rests meets what its handler relies on. -/
theorem Regs.Inv.ready {r : Regs} (h : r.Inv) : r.Ready := by
  have hrest := h.resting
  unfold Regs.resting at hrest
  unfold Regs.Ready
  cases hs : r.state with
  | opcodeByte => trivial
  | lengthByte => trivial
  | extendedLength => exact ⟨h.extWidth hs, by simpa [hs] using hrest⟩
  | maskingKeyCheck => trivial
  | maskingKey => exact ⟨h.keyWanted hs, by simpa [hs] using hrest⟩
  | payloadCheck => simp [hs] at hrest
  | payload => exact ⟨h.remaining hs, h.counters hs, h.keyZero hs⟩
  | done => simp [hs] at hrest

theorem Regs.Inv.midInv {r : Regs} (h : r.Inv) : r.MidInv where
  bounded := ⟨h.scratchCount, h.scratchZero, h.opcode, h.payloadLength, h.position⟩
  remainingZero := h.remainingZero
  accepted := h.accepted
  ready := h.ready

/-- Ready registers outside the two zero-byte states rest (10_state.md R37). -/
theorem Regs.Ready.resting {r : Regs} (h : r.Ready) (hk : r.state ≠ .maskingKeyCheck)
    (hp : r.state ≠ .payloadCheck) : r.resting = true := by
  unfold Regs.resting
  cases hs : r.state with
  | opcodeByte => rfl
  | lengthByte => rfl
  | extendedLength => exact decide_eq_true (h.extendedLength hs).2
  | maskingKeyCheck => exact absurd hs hk
  | maskingKey => exact decide_eq_true (h.maskingKey hs).2
  | payloadCheck => exact absurd hs hp
  | payload => exact decide_eq_true (h.payload hs).1.1
  | done => exact absurd hs h.state_ne_done

/-- Inside a call as between calls, but for the two zero-byte states. -/
theorem Regs.MidInv.inv {r : Regs} (h : r.MidInv) (hk : r.state ≠ .maskingKeyCheck)
    (hp : r.state ≠ .payloadCheck) : r.Inv where
  resting := h.ready.resting hk hp
  extWidth hs := (h.ready.extendedLength hs).1
  scratchCount := h.bounded.scratchCount
  scratchZero := h.bounded.scratchZero
  opcode := h.bounded.opcode
  payloadLength := h.bounded.payloadLength
  remaining hs := (h.ready.payload hs).1
  remainingZero := h.remainingZero
  position := h.bounded.position
  counters hs := (h.ready.payload hs).2.1
  accepted := h.accepted
  keyWanted hs := (h.ready.maskingKey hs).1
  keyZero hs := (h.ready.payload hs).2.2

/-! ### Reset -/

theorem scratch_zero_getElem : ∀ i : Fin 8, Scratch.zero[i] = 0 := by decide

/-- The registers meet the invariant after RESET with any context (10_state.md R44). -/
theorem Regs.inv_reset (ctx : Ctx) : (Regs.reset ctx).Inv := by
  have hmid : (Regs.reset ctx).MidInv := {
    bounded := ⟨by simp [Regs.reset], fun i _ => scratch_zero_getElem i, by simp [Regs.reset, Header.reset],
      by simp [Regs.reset, Header.reset], by simp [Regs.reset]⟩
    remainingZero := fun _ => rfl
    accepted := fun hs => absurd rfl hs
    ready := trivial }
  exact hmid.inv (by simp [Regs.reset]) (by simp [Regs.reset])

/-- Settles O37: the registers are those after RESET, and nothing is reported. -/
theorem resetMeetsTheInvariant : Obligations.ResetMeetsTheInvariant where
  idle := rfl
  regs := by
    rintro r ⟨⟩
    exact Regs.inv_reset _
  results := by simp [State.reset]

/-! ### What the shared operations keep -/

/-- The accumulator stays clear behind the bytes that have arrived (10_state.md R33). -/
theorem Regs.Bounded.filled {r : Regs} {bs : List Byte} (h : r.Bounded)
    (hlen : r.scratchCount.toNat + bs.length ≤ 8) : (filled bs r).Bounded := by
  have hcount := filled_scratchCount_toNat (bs := bs) (r := r) (by omega)
  refine ⟨by omega, fun i hi => ?_, h.opcode, h.payloadLength, h.position⟩
  have hbs : bs.length ≤ i.val - r.scratchCount.toNat := by omega
  rw [Fin.getElem_fin, filled_scratch_getElem _ _ _ i.isLt, List.getD_eq_default _ _ hbs, ite_self]
  exact h.scratchZero i (by omega)

theorem Regs.Bounded.accReset {r : Regs} (h : r.Bounded) : (accReset r).Bounded where
  scratchCount := by simp
  scratchZero := fun i _ => scratch_zero_getElem i
  opcode := h.opcode
  payloadLength := h.payloadLength
  position := h.position

/-- At a frame boundary the bounds and a cleared counter are the whole invariant. -/
theorem Regs.Bounded.inv_completeRegs {r : Regs} (h : r.Bounded) (hz : r.payloadRemaining = 0) :
    (completeRegs r).Inv := by
  rw [completeRegs_eq]
  have hmid : Regs.MidInv { r with
      continuationExpected := ceAfter r.cur r.continuationExpected, state := .opcodeByte } :=
    ⟨{ h with }, fun _ => hz, fun hs => absurd rfl hs, trivial⟩
  exact hmid.inv (by simp) (by simp)

@[simp] theorem countPayload_state (n : Nat) (r : Regs) : (countPayload n r).state = r.state := rfl
@[simp] theorem countPayload_cur (n : Nat) (r : Regs) : (countPayload n r).cur = r.cur := rfl

theorem countPayload_remaining_toNat {n : Nat} {r : Regs} (h : n ≤ r.payloadRemaining.toNat) :
    (countPayload n r).payloadRemaining.toNat = r.payloadRemaining.toNat - n := by
  have hlt := r.payloadRemaining.isLt
  simp only [countPayload, BitVec.toNat_sub, BitVec.toNat_ofNat]
  omega

theorem countPayload_position_unmasked (n : Nat) {r : Regs} (hm : r.cur.masked = false) :
    (countPayload n r).maskingPosition = r.maskingPosition := by
  simp [countPayload, advancePosition, hm]

theorem countPayload_position_masked_toNat {n : Nat} {r : Regs} (hm : r.cur.masked = true)
    (h : r.maskingPosition.toNat + n < 2 ^ 64) :
    (countPayload n r).maskingPosition.toNat = r.maskingPosition.toNat + n := by
  simp only [countPayload, advancePosition, hm, if_true, BitVec.toNat_add, BitVec.toNat_ofNat]
  omega

/-- The position stays below the length of the payload, so it never wraps (10_state.md R40). -/
theorem Regs.Bounded.countPayload {r : Regs} {n : Nat} (h : r.Bounded)
    (hpos : r.cur.masked = true → r.maskingPosition.toNat + n ≤ r.cur.payloadLength.toNat) :
    (countPayload n r).Bounded where
  scratchCount := h.scratchCount
  scratchZero := h.scratchZero
  opcode := h.opcode
  payloadLength := h.payloadLength
  position := by
    have hlen := h.payloadLength
    cases hm : r.cur.masked with
    | false =>
      rw [countPayload_position_unmasked n hm]
      exact h.position
    | true =>
      have hle := hpos hm
      rw [countPayload_position_masked_toNat hm (by omega)]
      omega

/-- Only an empty chunk is delivered as one (41_payload_states.md R172). -/
theorem deliver_eq_nil {r : Regs} {ws : List Byte} : deliver r ws = [] ↔ ws = [] := by
  unfold deliver
  split <;> simp

/-! ### What every handler keeps -/

/-- A handler's end that keeps the invariant: the call goes on and has fired nothing, or it ends with registers
that rest and a result a call may report. No end is a stop. -/
def HandlerOut.Sound : HandlerOut → Prop
  | .advance r c => r.MidInv ∧ c.event = .none
  | .starved r _ => r.Inv
  | .fired r c => r.Inv ∧ c.event.good = true ∧ c.event ≠ .none
  | .raised e c => CallResult.good ⟨c.consumed, c.event, false, .err e⟩ = true
  | .stuck _ => False

/-- A failing callback is reported with its event (60_exceptions.md R270). -/
theorem raised_eCallback_sound {c : Call} {q : CbStatus} (hg : c.event.good = true) (he : c.event ≠ .none)
    (hq : q ≠ 0) : (HandlerOut.raised (.eCallback q) c).Sound := by
  simpa [HandlerOut.Sound, CallResult.good, hg, he] using hq

theorem opcodeByteBody_sound {r : Regs} {c : Call} (h : r.MidInv) (hs : r.state = .opcodeByte)
    (hc : c.event = .none) : (opcodeByteBody r c).Sound := by
  cases hu : c.unread with
  | nil =>
    rw [opcodeByteBody_starved hu]
    exact h.inv (by simp [hs]) (by simp [hs])
  | cons b rest =>
    cases hf : fragCheck (byte0Fin b) (b &&& 0x0F) r.continuationExpected with
    | some cause =>
      rw [opcodeByteBody_raised hu hf]
      simp [HandlerOut.Sound, CallResult.good, Event.good, hc]
    | none =>
      rw [opcodeByteBody_advance hu hf]
      have hop : ((byte0Opcode b).setWidth 8).toNat ≤ 0x0F := by
        rw [BitVec.toNat_setWidth_of_le (by decide)]
        exact Nat.le_of_lt_succ (byte0Opcode b).isLt
      rw [← byte0Opcode_setWidth] at hf
      exact ⟨⟨{ h.bounded with opcode := hop }, fun _ => h.remainingZero (by simp [hs]), fun _ => hf,
        trivial⟩, hc⟩

/-- Byte 1 leaves a literal length below 126, or the width of the length to come and a cleared accumulator. -/
theorem setByte1_midInv {r : Regs} (h : r.MidInv) (hs : r.state = .lengthByte) (b : Byte) :
    (setByte1 b r).MidInv := by
  have hz := h.remainingZero (by simp [hs])
  have ha := h.accepted (by simp [hs])
  unfold setByte1
  dsimp only
  split
  · have hlen : ((byte1Code b).setWidth 64).toNat < 2 ^ 63 := by
      rw [BitVec.toNat_setWidth_of_le (by decide)]
      have hlt := (byte1Code b).isLt
      omega
    exact ⟨{ h.bounded with payloadLength := hlen }, fun _ => hz, fun _ => ha, trivial⟩
  · refine ⟨{ h.bounded.accReset with }, fun _ => hz, fun _ => ha, ?_⟩
    simp only [Regs.Ready, accReset_extWidth, accReset_scratchCount]
    split <;> decide

theorem lengthByteBody_sound {r : Regs} {c : Call} (h : r.MidInv) (hs : r.state = .lengthByte)
    (hc : c.event = .none) : (lengthByteBody r c).Sound := by
  cases hu : c.unread with
  | nil =>
    rw [lengthByteBody_starved hu]
    exact h.inv (by simp [hs]) (by simp [hs])
  | cons b rest =>
    rw [lengthByteBody_advance hu]
    exact ⟨setByte1_midInv h hs b, hc⟩

/-- An extended length that is not refused is below 2^63 (10_state.md R31, conflict C11). -/
theorem scratchValue_lt {r r' : Regs} (hw : r.extWidth = .two ∨ r.extWidth = .eight)
    (hv : ¬ (r.extWidth = .eight ∧ (scratchValue r.extWidth.bytes r').getLsbD 63 = true)) :
    (scratchValue r.extWidth.bytes r').toNat < 2 ^ 63 := by
  rcases hw with hw | hw
  · rw [hw, show ExtWidth.two.bytes = 2 from rfl, scratchValue_two, BitVec.toNat_setWidth_of_le (by decide)]
    have hlt := (r'.scratch[0] ++ r'.scratch[1] : BitVec 16).isLt
    omega
  · have hmsb : (scratchValue r.extWidth.bytes r').msb = false := by
      simpa [hw, BitVec.msb_eq_getLsbD_last] using hv
    simpa using BitVec.toNat_lt_of_msb_false hmsb

/-- Taking at most the bytes that a field misses never fills it beyond its width. -/
theorem take_missing_length_le {got width : Nat} (h : got < width) (ws : List Byte) :
    got + (ws.take (width - got)).length ≤ width := by
  rw [List.length_take]
  omega

theorem extendedLengthBody_sound {r : Regs} {c : Call} (h : r.MidInv) (hs : r.state = .extendedLength)
    (hc : c.event = .none) : (extendedLengthBody r c).Sound := by
  obtain ⟨hw, hlt⟩ := h.ready.extendedLength hs
  have hz := h.remainingZero (by simp [hs])
  have ha := h.accepted (by simp [hs])
  have hw8 : r.extWidth.bytes ≤ 8 := by rcases hw with hw | hw <;> rw [hw] <;> decide
  obtain ⟨bs, hbs⟩ : ∃ bs, bs = c.unread.take (r.extWidth.bytes - r.scratchCount.toNat) := ⟨_, rfl⟩
  have hle : r.scratchCount.toNat + bs.length ≤ r.extWidth.bytes := hbs ▸ take_missing_length_le hlt _
  have hb : (filled bs r).Bounded := h.bounded.filled (by omega)
  rcases Nat.lt_or_eq_of_le hle with hl | hl
  · rw [extendedLengthBody_starved hbs hl]
    have hcount := filled_scratchCount_toNat (bs := bs) (r := r) (by omega)
    have hmid : (filled bs r).MidInv := ⟨hb, fun _ => hz, fun _ => ha, by
      simp only [Regs.Ready, filled_state, hs, filled_extWidth]
      exact ⟨hw, by omega⟩⟩
    exact hmid.inv (by simp [hs]) (by simp [hs])
  · by_cases hv : r.extWidth = .eight ∧ (scratchValue r.extWidth.bytes (filled bs r)).getLsbD 63 = true
    · rw [extendedLengthBody_raised hbs hl hv.1 hv.2]
      simp [HandlerOut.Sound, CallResult.good, Event.good, hc, -BitVec.getLsbD_eq_getElem, hv.2]
    · rw [extendedLengthBody_advance hbs hl hv]
      exact ⟨⟨{ hb with payloadLength := scratchValue_lt hw hv }, fun _ => hz, fun _ => ha, trivial⟩, hc⟩

theorem maskingKeyCheckBody_sound {r : Regs} {c : Call} (h : r.MidInv) (hs : r.state = .maskingKeyCheck)
    (hc : c.event = .none) : (maskingKeyCheckBody r c).Sound := by
  have hz := h.remainingZero (by simp [hs])
  have ha := h.accepted (by simp [hs])
  cases hm : r.cur.masked with
  | false =>
    rw [maskingKeyCheckBody_unmasked c hm]
    exact ⟨⟨{ h.bounded with }, fun _ => hz, fun _ => ha, fun _ => rfl⟩, hc⟩
  | true =>
    rw [maskingKeyCheckBody_masked c hm]
    exact ⟨⟨{ h.bounded.accReset with }, fun _ => hz, fun _ => ha, ⟨hm, by simp⟩⟩, hc⟩

theorem maskingKeyBody_sound {r : Regs} {c : Call} (h : r.MidInv) (hs : r.state = .maskingKey)
    (hc : c.event = .none) : (maskingKeyBody r c).Sound := by
  obtain ⟨hm, hlt⟩ := h.ready.maskingKey hs
  have hz := h.remainingZero (by simp [hs])
  have ha := h.accepted (by simp [hs])
  obtain ⟨bs, hbs⟩ : ∃ bs, bs = c.unread.take (4 - r.scratchCount.toNat) := ⟨_, rfl⟩
  have hle : r.scratchCount.toNat + bs.length ≤ 4 := hbs ▸ take_missing_length_le hlt _
  have hb : (filled bs r).Bounded := h.bounded.filled (by omega)
  rcases Nat.lt_or_eq_of_le hle with hl | hl
  · rw [maskingKeyBody_starved hbs hl]
    have hcount := filled_scratchCount_toNat (bs := bs) (r := r) (by omega)
    have hmid : (filled bs r).MidInv := ⟨hb, fun _ => hz, fun _ => ha, by
      simp only [Regs.Ready, filled_state, hs, filled_cur]
      exact ⟨hm, by omega⟩⟩
    exact hmid.inv (by simp [hs]) (by simp [hs])
  · rw [maskingKeyBody_advance hbs hl]
    exact ⟨⟨{ hb with }, fun _ => hz, fun _ => ha, fun hu => by simp [hm] at hu⟩, hc⟩

/-- The header that `S_PAYLOAD_CHECK` fires is one an event may carry (42_process.md R206). -/
theorem Regs.Bounded.header_good {r : Regs} (h : r.Bounded)
    (hkey : r.cur.masked = false → r.cur.maskingKey = Key.zero) : r.cur.good = true := by
  have hk : (r.cur.masked || r.cur.maskingKey == Key.zero) = true := by
    cases hm : r.cur.masked with
    | false => simp [hkey hm]
    | true => rfl
  simp only [Header.good, hk, h.opcode, h.payloadLength, decide_true, Bool.and_true]

/-- The payload counters start at the whole payload and at 0 (41_payload_states.md R170). -/
theorem startPayload_inv {r : Regs} (h : r.MidInv) (hs : r.state = .payloadCheck)
    (hkey : r.cur.masked = false → r.cur.maskingKey = Key.zero) (hl : r.cur.payloadLength ≠ 0) :
    (startPayload r).Inv := by
  have hpos : 1 ≤ r.cur.payloadLength.toNat :=
    Nat.one_le_iff_ne_zero.2 fun h0 => hl (BitVec.eq_of_toNat_eq h0)
  have hmid : (startPayload r).MidInv :=
    ⟨{ h.bounded with position := by simp [startPayload] }, fun hne => absurd rfl hne,
      fun _ => h.accepted (by simp [hs]), ⟨⟨hpos, Nat.le_refl _⟩, fun _ => by simp [startPayload], hkey⟩⟩
  exact hmid.inv (by simp [startPayload]) (by simp [startPayload])

theorem payloadCheckBody_sound {r : Regs} {c : Call} (h : r.MidInv) (hs : r.state = .payloadCheck) :
    (payloadCheckBody r c).Sound := by
  have hkey := h.ready.payloadCheck hs
  have hgood : (Event.header r.cur r.userCtx).good = true := h.bounded.header_good hkey
  by_cases hq : c.cbs = 0
  · by_cases hl : r.cur.payloadLength = 0
    · rw [payloadCheckBody_empty hq hl]
      exact ⟨h.bounded.inv_completeRegs (h.remainingZero (by simp [hs])), hgood, by simp⟩
    · rw [payloadCheckBody_payload hq hl]
      exact ⟨startPayload_inv h hs hkey hl, hgood, by simp⟩
  · rw [payloadCheckBody_raised hq]
    exact raised_eCallback_sound hgood (by simp) hq

/-- The payload counters still add up after some, but not all, of the bytes (10_state.md R36, R40). -/
theorem countPayload_inv {r : Regs} {n : Nat} (h : r.MidInv) (hs : r.state = .payload)
    (hn : n < r.payloadRemaining.toNat) : (countPayload n r).Inv := by
  obtain ⟨⟨-, hle⟩, hsum, hkey⟩ := h.ready.payload hs
  have hlen := h.bounded.payloadLength
  have hrem := countPayload_remaining_toNat (Nat.le_of_lt hn)
  have hb : (countPayload n r).Bounded := h.bounded.countPayload fun hm => by
    have hadd := hsum hm
    omega
  have hready : (countPayload n r).Ready := by
    simp only [Regs.Ready, countPayload_state, hs, countPayload_cur, hrem]
    refine ⟨by omega, fun hm => ?_, hkey⟩
    have hadd := hsum hm
    rw [countPayload_position_masked_toNat hm (by omega)]
    omega
  have hmid : (countPayload n r).MidInv :=
    ⟨hb, fun hne => absurd hs hne, fun _ => h.accepted (by simp [hs]), hready⟩
  exact hmid.inv (by simp [hs]) (by simp [hs])

theorem payloadBody_sound {r : Regs} {c : Call} (h : r.MidInv) (hs : r.state = .payload) :
    (payloadBody r c).Sound := by
  by_cases ha : c.avail = 0
  · rw [payloadBody_starved ha]
    exact h.inv (by simp [hs]) (by simp [hs])
  obtain ⟨⟨hpos, hle⟩, hsum, -⟩ := h.ready.payload hs
  obtain ⟨n, hn⟩ : ∃ n, n = min c.avail r.payloadRemaining.toNat := ⟨_, rfl⟩
  have hgood : (payloadCall n r c).event.good = true := by
    have hchunk : c.unread.take n ≠ [] := by
      rw [← List.length_pos_iff, List.length_take, c.unread_length]
      omega
    simpa [payloadCall, Event.good, deliver_eq_nil] using hchunk
  have hev : (payloadCall n r c).event ≠ .none := by simp [payloadCall]
  by_cases hq : c.cbs = 0
  · by_cases hz : r.payloadRemaining.toNat ≤ n
    · rw [payloadBody_completes ha hn hq hz]
      have hb : (countPayload n r).Bounded := h.bounded.countPayload fun hm => by
        have hadd := hsum hm
        omega
      exact ⟨hb.inv_completeRegs ((countPayload_zero (by omega)).2 hz), hgood, hev⟩
    · rw [payloadBody_goesOn ha hn hq (Nat.lt_of_not_le hz)]
      exact ⟨countPayload_inv h hs (Nat.lt_of_not_le hz), hgood, hev⟩
  · rw [payloadBody_raised ha hn hq]
    exact raised_eCallback_sound hgood hev hq

/-- The handler that `state` selects keeps the invariant, by the value of `state`. -/
theorem handlerBody_sound {r : Regs} {c : Call} (h : r.MidInv) (hc : c.event = .none) :
    (handlerBody r.state r c).Sound := by
  cases hs : r.state with
  | opcodeByte => exact opcodeByteBody_sound h hs hc
  | lengthByte => exact lengthByteBody_sound h hs hc
  | extendedLength => exact extendedLengthBody_sound h hs hc
  | maskingKeyCheck => exact maskingKeyCheckBody_sound h hs hc
  | maskingKey => exact maskingKeyBody_sound h hs hc
  | payloadCheck => exact payloadCheckBody_sound h hs
  | payload => exact payloadBody_sound h hs
  | done => exact absurd hs h.ready.state_ne_done

/-! ### The call and the step -/

theorem returned_inv {s : State} {r : Regs} {res : CallResult}
    (hs : ∀ res ∈ s.results, res.good = true) (hr : r.Inv) (hres : res.good = true) :
    (returned r res s).Inv where
  idle := rfl
  regs := by
    rintro r' ⟨⟩
    exact hr
  results := by
    simp only [returned, List.forall_mem_append, List.forall_mem_singleton]
    exact ⟨hs, hres⟩

theorem failedWith_inv {s : State} {n : Nat} {ev : Event} {e : DecodeError}
    (hs : ∀ res ∈ s.results, res.good = true) (hres : CallResult.good ⟨n, ev, false, .err e⟩ = true) :
    (failedWith n ev e s).Inv where
  idle := rfl
  regs := by
    rintro r ⟨⟩
  results := by
    simp only [failedWith, List.forall_mem_append, List.forall_mem_singleton]
    exact ⟨hs, hres⟩

/-- A call that a handler's sound end has ended leaves the machine between two calls. -/
theorem conclude_keeps_inv {s t : State} {out : HandlerOut} (hs : ∀ res ∈ s.results, res.good = true)
    (hout : out.Sound) (hne : ∀ r c, out ≠ .advance r c) (h : conclude s out = .next t) : t.Inv := by
  cases out with
  | advance r c => exact absurd rfl (hne r c)
  | starved r c =>
    cases h
    exact returned_inv hs hout rfl
  | fired r c =>
    obtain ⟨hr, hgood, hev⟩ := hout
    cases h
    exact returned_inv hs hr (by simp [CallResult.good, hgood, hev])
  | raised e c =>
    cases h
    exact failedWith_inv hs hout
  | stuck f => cases h

/-- The dispatcher's loop keeps the invariant, by the number of handlers it may still run. -/
theorem dispatch_keeps_inv {k : Nat} {s t : State} {r : Regs} {c : Call}
    (hs : ∀ res ∈ s.results, res.good = true) (hr : r.MidInv) (hc : c.event = .none)
    (h : dispatch k s r c = .next t) : t.Inv := by
  induction k generalizing r c with
  | zero => cases h
  | succ k ih =>
    have hout := handlerBody_sound hr hc
    by_cases hadv : ∃ r' c', handlerBody r.state r c = .advance r' c'
    · obtain ⟨r', c', hb⟩ := hadv
      rw [hb] at hout
      rw [dispatch_advance k s hb] at h
      exact ih hout.1 hout.2 h
    · have hne : ∀ r' c', handlerBody r.state r c ≠ .advance r' c' := fun r' c' hb => hadv ⟨r', c', hb⟩
      rw [dispatch_ends k s rfl hne] at h
      exact conclude_keeps_inv hs hout hne h

/-- PROCESS between two calls keeps the invariant. -/
theorem exec_process_keeps_inv {s t : State} {span : List Byte} {cbs : CbStatus} (hs : s.Inv)
    (h : exec (.process span cbs) s = .next t) : t.Inv := by
  cases hd : s.decoder with
  | failed =>
    change processCall span cbs s = _ at h
    simp [processCall, hs.idle, hd] at h
  | decoding r =>
    rw [exec_process_idle ⟨hd, hs.idle⟩] at h
    exact dispatch_keeps_inv hs.results (hs.regs r hd).midInv rfl h

/-- RESET between two calls keeps the invariant, in any mode (42_process.md R209). -/
theorem exec_reset_keeps_inv {s t : State} {ctx : Ctx} (hs : s.Inv)
    (h : exec (.reset ctx) s = .next t) : t.Inv := by
  change execReset ctx s = _ at h
  simp only [execReset, hs.idle] at h
  cases h
  refine ⟨hs.idle, ?_, hs.results⟩
  rintro r ⟨⟩
  exact Regs.inv_reset ctx

theorem State.Inv.setCommands {s : State} (h : s.Inv) (cs : List Command) : (s.setCommands cs).Inv :=
  ⟨h.idle, h.regs, h.results⟩

theorem State.Inv.useAnswer {t : State} (h : t.Inv) : (useAnswer t).Inv := by
  unfold Machine.useAnswer
  split
  · exact h
  · split
    · exact h
    · exact ⟨h.idle, h.regs, h.results⟩
    · exact ⟨h.idle, h.regs, h.results⟩

/-- The host's side of a call touches the channels only. -/
theorem State.Inv.settle {t : State} (h : t.Inv) (span : List Byte) : (settle span t).Inv := by
  unfold Machine.settle
  split
  · exact h.useAnswer
  · exact h.useAnswer.setCommands _

/-- Inversion of a step that runs a PROCESS. -/
theorem step_process_cases {s t : State} {span : List Byte} {rest : List Command} (hc : s.call = none)
    (hcmd : s.commands = .process span :: rest) (h : step s = .next t) :
    ∃ t', exec (.process span (nextAnswer s)) (s.setCommands rest) = .next t' ∧ t = settle span t' := by
  simp only [step, hc, hcmd] at h
  cases hx : exec (.process span (nextAnswer s)) (s.setCommands rest) with
  | next t' =>
    simp only [hx] at h
    cases h
    exact ⟨t', rfl, rfl⟩
  | fault f => simp [hx] at h
  | refused q => simp [hx] at h

/-- Settles O38, by the oldest command: none, RESET, PROCESS. -/
theorem stepKeepsTheInvariant : Obligations.StepKeepsTheInvariant := by
  intro s t hs h
  cases hcmd : s.commands with
  | nil =>
    rw [step_of_no_command hs.idle hcmd] at h
    cases h
    exact hs
  | cons cmd rest =>
    cases cmd with
    | reset ctx =>
      rw [step_of_reset hs.idle hcmd] at h
      exact exec_reset_keeps_inv (hs.setCommands rest) h
    | process span =>
      obtain ⟨t', hx, rfl⟩ := step_process_cases hs.idle hcmd h
      exact (exec_process_keeps_inv (hs.setCommands rest) hx).settle span

end Sys2Proof.Machine
end

section
/-! The encoder and the decoder are inverse to each other, layer by layer: the length field, the key, the rest of
the header, the frame (30_encoding.md R90 to R96). Each layer has a lemma per direction: `decodeX_encodeX`, and
`encodeX_of_decodeX` with what is well formed. -/

namespace Sys2Proof

/-! ### The parts of a word -/

/-- Masking is self-inverse: wire bytes and payload determine each other (41_payload_states.md R174). -/
theorem unmaskBytes_unmaskBytes (key : Key) (p : Word64) (ws : List Byte) :
    unmaskBytes key p (unmaskBytes key p ws) = ws := by
  induction ws generalizing p with
  | nil => rfl
  | cons w ws ih => simp only [unmaskBytes, unmask_unmask, ih]

theorem Key.toList_eq (key : Key) : key.toList = [key[0], key[1], key[2], key[3]] := by
  apply List.ext_getElem
  · simp
  · intro i _ hi
    have : i < 4 := hi
    interval_cases i <;> simp

/-- The two length bytes are determined by the value they assemble to (20_memory.md R62). -/
theorem extBytes_len16_bigEndian (y0 y1 : Byte) :
    (LenField.len16 (BitVec.ofNat 16 (bigEndian [y0, y1]))).extBytes = [y0, y1] := by
  have h0 := y0.isLt
  have h1 := y1.isLt
  simp only [LenField.extBytes, bigEndian, List.foldl, List.cons.injEq, and_true, ← BitVec.toNat_inj,
    BitVec.extractLsb'_toNat, BitVec.toNat_ofNat, Nat.shiftRight_eq_div_pow]
  omega

/-- The eight length bytes are determined by the value they assemble to (20_memory.md R62). -/
theorem extBytes_len64_bigEndian (y0 y1 y2 y3 y4 y5 y6 y7 : Byte) :
    (LenField.len64 (BitVec.ofNat 64 (bigEndian [y0, y1, y2, y3, y4, y5, y6, y7]))).extBytes =
      [y0, y1, y2, y3, y4, y5, y6, y7] := by
  have h0 := y0.isLt
  have h1 := y1.isLt
  have h2 := y2.isLt
  have h3 := y3.isLt
  have h4 := y4.isLt
  have h5 := y5.isLt
  have h6 := y6.isLt
  have h7 := y7.isLt
  simp only [LenField.extBytes, bigEndian, List.foldl, List.cons.injEq, and_true, ← BitVec.toNat_inj,
    BitVec.extractLsb'_toNat, BitVec.toNat_ofNat, Nat.shiftRight_eq_div_pow]
  omega

/-- A literal length code announces no extended length (30_encoding.md R105). -/
theorem LenField.len7_wf_iff (code : BitVec 7) :
    (LenField.len7 code).wf = true ↔ code ≠ 126 ∧ code ≠ 127 := by
  revert code
  decide

/-! ### Byte 1 to the end of the header -/

theorem decodeLength_encodeLength (m : Bool) {len : LenField} (rest : List Byte) (h : len.wf = true) :
    decodeLength (encodeLength m len ++ rest) = some (m, len, rest) := by
  cases len with
  | len7 code =>
    obtain ⟨h126, h127⟩ := (LenField.len7_wf_iff code).1 h
    simp only [encodeLength, LenField.code, LenField.extBytes, List.cons_append, List.nil_append, decodeLength,
      byte1Code_encodeByte1, byte1Masked_encodeByte1, if_neg h126, if_neg h127]
  | len16 v =>
    have hv := bigEndian_extBytes16 v
    simp only [LenField.extBytes] at hv
    simp [encodeLength, decodeLength, LenField.code, LenField.extBytes, hv]
  | len64 v =>
    have hv := bigEndian_extBytes64 v
    simp only [LenField.extBytes] at hv
    simp [encodeLength, decodeLength, LenField.code, LenField.extBytes, hv]

theorem encodeLength_of_decodeLength {bs rest : List Byte} {m : Bool} {len : LenField}
    (h : decodeLength bs = some (m, len, rest)) :
    encodeLength m len ++ rest = bs ∧ len.wf = true := by
  cases bs with
  | nil => cases h
  | cons b bs =>
    have hb : encodeByte1 (byte1Masked b) (byte1Code b) = b := encodeByte1_fields b
    simp only [decodeLength] at h
    split at h
    next h126 =>
      rw [h126] at hb
      split at h
      next y0 y1 ys =>
        cases h
        rw [encodeLength, extBytes_len16_bigEndian]
        exact ⟨congrArg (· :: y0 :: y1 :: rest) hb, rfl⟩
      next => cases h
    next h126 =>
      split at h
      next h127 =>
        rw [h127] at hb
        split at h
        next y0 y1 y2 y3 y4 y5 y6 y7 ys =>
          cases h
          rw [encodeLength, extBytes_len64_bigEndian]
          exact ⟨congrArg (· :: y0 :: y1 :: y2 :: y3 :: y4 :: y5 :: y6 :: y7 :: rest) hb, rfl⟩
        next => cases h
      next h127 =>
        cases h
        exact ⟨congrArg (· :: rest) hb, (LenField.len7_wf_iff _).2 ⟨h126, h127⟩⟩

theorem decodeKey_toList_append (key : Key) (rest : List Byte) :
    decodeKey (key.toList ++ rest) = some (key, rest) := by
  have hkey : #v[key[0], key[1], key[2], key[3]] = key :=
    Vector.toList_inj.1 key.toList_eq.symm
  rw [Key.toList_eq, ← hkey]
  rfl

theorem toList_append_of_decodeKey {bs rest : List Byte} {key : Key} (h : decodeKey bs = some (key, rest)) :
    key.toList ++ rest = bs := by
  unfold decodeKey at h
  split at h
  · cases h
    rfl
  · cases h

/-- The key follows the length of a masked frame whose length is not reserved (30_encoding.md R94, R95). -/
theorem encodeTail_of_key {m : Bool} {len : LenField} (key : Key) (hk : (m && !len.reserved) = true) :
    encodeTail m len key = encodeLength m len ++ key.toList := by
  rw [encodeTail, if_pos hk]

theorem encodeTail_of_no_key {m : Bool} {len : LenField} (key : Key) (hk : ¬ (m && !len.reserved) = true) :
    encodeTail m len key = encodeLength m len := by
  rw [encodeTail, if_neg hk, List.append_nil]

theorem keyWf_iff (m : Bool) (len : LenField) (key : Key) :
    keyWf m len key = true ↔ (m && !len.reserved) = true ∨ key = Key.zero := by
  rw [keyWf, Bool.or_eq_true, beq_iff_eq]

theorem decodeTail_encodeTail {m : Bool} {len : LenField} {key : Key} (rest : List Byte)
    (hlen : len.wf = true) (hkey : keyWf m len key = true) :
    decodeTail (encodeTail m len key ++ rest) = some (m, len, key, rest) := by
  by_cases hk : (m && !len.reserved) = true
  · rw [encodeTail_of_key key hk, List.append_assoc]
    simp only [decodeTail, decodeLength_encodeLength m _ hlen, hk, if_true, decodeKey_toList_append]
  · obtain rfl : key = Key.zero := ((keyWf_iff m len key).1 hkey).resolve_left hk
    rw [encodeTail_of_no_key _ hk]
    simp only [decodeTail, decodeLength_encodeLength m _ hlen, hk, if_false, Bool.false_eq_true]

theorem encodeTail_of_decodeTail {bs rest : List Byte} {m : Bool} {len : LenField} {key : Key}
    (h : decodeTail bs = some (m, len, key, rest)) :
    encodeTail m len key ++ rest = bs ∧ len.wf = true ∧ keyWf m len key = true := by
  unfold decodeTail at h
  split at h
  next => cases h
  next m' len' ys hl =>
    obtain ⟨hbytes, hlen⟩ := encodeLength_of_decodeLength hl
    split at h
    next hk =>
      split at h
      next => cases h
      next hkey =>
        cases h
        rw [encodeTail_of_key key hk, List.append_assoc, toList_append_of_decodeKey hkey]
        exact ⟨hbytes, hlen, (keyWf_iff m len key).2 (.inl hk)⟩
    next hk =>
      cases h
      rw [encodeTail_of_no_key _ hk]
      exact ⟨hbytes, hlen, (keyWf_iff m len _).2 (.inr rfl)⟩

/-! ### The frame -/

/-- The payload on the wire from the payload, and back: masked when `masked` is set (30_encoding.md R96). -/
def maskPayload (m : Bool) (key : Key) (bs : List Byte) : List Byte :=
  if m then unmaskBytes key 0 bs else bs

@[simp] theorem maskPayload_maskPayload (m : Bool) (key : Key) (bs : List Byte) :
    maskPayload m key (maskPayload m key bs) = bs := by
  cases m
  · rfl
  · exact unmaskBytes_unmaskBytes key 0 bs

@[simp] theorem maskPayload_length (m : Bool) (key : Key) (bs : List Byte) :
    (maskPayload m key bs).length = bs.length := by
  cases m
  · rfl
  · exact unmaskBytes_length key 0 bs

theorem encodeFrame_eq (op : BitVec 4) (f : Frame) :
    encodeFrame op f = encodeByte0 f.fin f.rsv op ::
      (encodeTail f.masked f.len f.key ++ maskPayload f.masked f.key f.payload) := rfl

/-- A frame whose header decodes, by whether the bytes hold its payload (30_encoding.md R90). -/
theorem decodeFrame_of_decodeTail {bs rest : List Byte} {m : Bool} {len : LenField} {key : Key} (b : Byte)
    (h : decodeTail bs = some (m, len, key, rest)) :
    decodeFrame (b :: bs) =
      if rest.length < len.payloadCount then .rejected .incompletePayload
      else .ok (.ofOpcode (byte0Opcode b)
        ⟨byte0Fin b, byte0Rsv b, m, len, key, maskPayload m key (rest.take len.payloadCount)⟩)
        (rest.drop len.payloadCount) := by
  simp only [decodeFrame, h]
  rfl

theorem Frame.wf_iff (f : Frame) :
    f.wf = true ↔ f.len.wf = true ∧ keyWf f.masked f.len f.key = true ∧
      f.payload.length = f.len.payloadCount := by
  simp only [Frame.wf, Bool.and_eq_true, beq_iff_eq, and_assoc]

theorem decodeFrame_encodeFrame (op : BitVec 4) (f : Frame) (rest : List Byte) (h : f.wf = true) :
    decodeFrame (encodeFrame op f ++ rest) = .ok (.ofOpcode op f) rest := by
  obtain ⟨hlen, hkey, hpay⟩ := f.wf_iff.1 h
  have hwire : (maskPayload f.masked f.key f.payload).length = f.len.payloadCount := by
    rw [maskPayload_length, hpay]
  rw [encodeFrame_eq, List.cons_append, List.append_assoc,
    decodeFrame_of_decodeTail _ (decodeTail_encodeTail _ hlen hkey), ← hwire, List.take_left, List.drop_left,
    if_neg (by simp)]
  simp

theorem encodeFrame_of_decodeFrame {bs rest : List Byte} {i : Instr} (h : decodeFrame bs = .ok i rest) :
    ∃ op f, i = .ofOpcode op f ∧ f.wf = true ∧ encodeFrame op f ++ rest = bs := by
  cases bs with
  | nil => cases h
  | cons b bs =>
    cases ht : decodeTail bs with
    | none => simp [decodeFrame, ht] at h
    | some tail =>
      obtain ⟨m, len, key, ys⟩ := tail
      obtain ⟨hbytes, hlen, hkey⟩ := encodeTail_of_decodeTail ht
      rw [decodeFrame_of_decodeTail b ht] at h
      split at h
      next => cases h
      next hcount =>
        cases h
        refine ⟨_, _, rfl, ?_, ?_⟩
        · refine (Frame.wf_iff _).2 ⟨hlen, hkey, ?_⟩
          rw [maskPayload_length, List.length_take_of_le (Nat.le_of_not_lt hcount)]
        · rw [encodeFrame_eq, encodeByte0_fields, maskPayload_maskPayload, List.cons_append,
            List.append_assoc, List.take_append_drop, hbytes]

end Sys2Proof
end

section
/-! The rows of the table, by their format, and the two directions of the encoding (30_encoding.md R90 to R96,
10_state.md R22). -/

namespace Sys2Proof

/-! ### The rows of a frame -/

/-- The row that an opcode selects is encoded as the frame with that opcode (30_encoding.md R98). -/
theorem ofOpcode_encoding (op : BitVec 4) (f : Frame) :
    encode (.ofOpcode op f) = encodeFrame op f ∧ (Instr.ofOpcode op f).wf = f.wf ∧
      (Instr.ofOpcode op f).format = .byte0 := by
  obtain ⟨op⟩ := op
  fin_cases op <;> exact ⟨rfl, rfl, rfl⟩

/-! ### The rows of byte 1 -/

/-- The LEN row of a mask bit and a length field. -/
def Instr.ofLength (m : Bool) : LenField → Instr
  | .len7 code => .len7 m code
  | .len16 v => .len16 m v
  | .len64 v => .len64 m v

theorem ofLength_encoding (m : Bool) (len : LenField) :
    encode (.ofLength m len) = encodeLength m len ∧ (Instr.ofLength m len).wf = len.wf ∧
      (Instr.ofLength m len).format = .byte1Length := by
  cases len <;> exact ⟨rfl, rfl, rfl⟩

theorem decodeByte1Length_of_decodeLength {bs rest : List Byte} {m : Bool} {len : LenField}
    (h : decodeLength bs = some (m, len, rest)) : decodeByte1Length bs = .ok (.ofLength m len) rest := by
  unfold decodeByte1Length
  rw [h]
  cases len <;> rfl

theorem decodeByte1Length_encodeLength (m : Bool) {len : LenField} (rest : List Byte) (h : len.wf = true) :
    decodeByte1Length (encodeLength m len ++ rest) = .ok (.ofLength m len) rest :=
  decodeByte1Length_of_decodeLength (decodeLength_encodeLength m rest h)

theorem encodeLength_of_decodeByte1Length {bs rest : List Byte} {i : Instr}
    (h : decodeByte1Length bs = .ok i rest) :
    ∃ m len, i = .ofLength m len ∧ len.wf = true ∧ encodeLength m len ++ rest = bs := by
  cases hd : decodeLength bs with
  | none => simp [decodeByte1Length, hd] at h
  | some p =>
    obtain ⟨m, len, ys⟩ := p
    obtain ⟨hbytes, hlen⟩ := encodeLength_of_decodeLength hd
    rw [decodeByte1Length_of_decodeLength hd] at h
    cases h
    exact ⟨m, len, rfl, hlen, hbytes⟩

/-- The mask row of a mask bit, a length field and a key. -/
def Instr.ofTail (m : Bool) (len : LenField) (key : Key) : Instr :=
  if m then .masked len key else .unmasked len

theorem ofTail_encoding {m : Bool} {len : LenField} {key : Key} (hlen : len.wf = true)
    (hkey : keyWf m len key = true) :
    encode (.ofTail m len key) = encodeTail m len key ∧ (Instr.ofTail m len key).wf = true ∧
      (Instr.ofTail m len key).format = .byte1Mask := by
  cases m
  · exact ⟨rfl, hlen, rfl⟩
  · exact ⟨rfl, Bool.and_eq_true_iff.2 ⟨hlen, hkey⟩, rfl⟩

theorem decodeByte1Mask_of_decodeTail {bs rest : List Byte} {m : Bool} {len : LenField} {key : Key}
    (h : decodeTail bs = some (m, len, key, rest)) : decodeByte1Mask bs = .ok (.ofTail m len key) rest := by
  unfold decodeByte1Mask
  rw [h]
  cases m <;> rfl

theorem decodeByte1Mask_encodeTail {m : Bool} {len : LenField} {key : Key} (rest : List Byte)
    (hlen : len.wf = true) (hkey : keyWf m len key = true) :
    decodeByte1Mask (encodeTail m len key ++ rest) = .ok (.ofTail m len key) rest :=
  decodeByte1Mask_of_decodeTail (decodeTail_encodeTail rest hlen hkey)

theorem encodeTail_of_decodeByte1Mask {bs rest : List Byte} {i : Instr}
    (h : decodeByte1Mask bs = .ok i rest) :
    ∃ m len key, i = .ofTail m len key ∧ len.wf = true ∧ keyWf m len key = true ∧
      encodeTail m len key ++ rest = bs := by
  cases hd : decodeTail bs with
  | none => simp [decodeByte1Mask, hd] at h
  | some p =>
    obtain ⟨m, len, key, ys⟩ := p
    obtain ⟨hbytes, hlen, hkey⟩ := encodeTail_of_decodeTail hd
    rw [decodeByte1Mask_of_decodeTail hd] at h
    cases h
    exact ⟨m, len, key, rfl, hlen, hkey, hbytes⟩

/-! ### The values of `state` -/

theorem encode_of_decodeState {bs rest : List Byte} {i : Instr} (h : decodeState bs = .ok i rest) :
    encode i ++ rest = bs ∧ i.wf = true ∧ i.format = .stateReg := by
  cases bs with
  | nil => cases h
  | cons b bs =>
    simp only [decodeState] at h
    split_ifs at h <;> cases h
    all_goals
      subst b
      exact ⟨rfl, rfl, rfl⟩

/-! ### The two directions -/

/-- Settles O1, by the row: a frame, a LEN row, a mask row, a value of `state`. -/
theorem decodeOfEncodeIsTheInstruction : Obligations.DecodeOfEncodeIsTheInstruction := by
  intro i rest hwf hfmt
  cases i with
  | continuation f | text f | binary f | data3 f | data4 f | data5 f | data6 f | data7 f
  | close f | ping f | pong f | ctrlb f | ctrlc f | ctrld f | ctrle f | ctrlf f =>
    exact decodeFrame_encodeFrame _ f rest hwf
  | len16 m v => exact decodeByte1Length_encodeLength m (len := .len16 v) rest rfl
  | len64 m v => exact decodeByte1Length_encodeLength m (len := .len64 v) rest rfl
  | len7 m code => exact decodeByte1Length_encodeLength m (len := .len7 code) rest hwf
  | unmasked len =>
    exact decodeByte1Mask_encodeTail rest hwf ((keyWf_iff false len _).2 (.inr rfl))
  | masked len key =>
    obtain ⟨hlen, hkey⟩ := Bool.and_eq_true_iff.1 hwf
    exact decodeByte1Mask_encodeTail rest hlen hkey
  | sOpcodeByte | sLengthByte | sExtendedLength | sMaskingKeyCheck | sMaskingKey | sPayloadCheck
  | sPayload | sDone => rfl
  | process span cbs | reset ctx => exact absurd rfl hfmt

/-- Settles O2, by the format. -/
theorem encodeOfDecodeIsTheBytes : Obligations.EncodeOfDecodeIsTheBytes := by
  intro fmt bytes rest i h
  cases fmt with
  | byte0 =>
    obtain ⟨op, f, rfl, hwf, hbytes⟩ := encodeFrame_of_decodeFrame h
    obtain ⟨henc, hw, hfmt⟩ := ofOpcode_encoding op f
    exact ⟨henc ▸ hbytes, hw.trans hwf, hfmt⟩
  | byte1Length =>
    obtain ⟨m, len, rfl, hlen, hbytes⟩ := encodeLength_of_decodeByte1Length h
    obtain ⟨henc, hw, hfmt⟩ := ofLength_encoding m len
    exact ⟨henc ▸ hbytes, hw.trans hlen, hfmt⟩
  | byte1Mask =>
    obtain ⟨m, len, key, rfl, hlen, hkey, hbytes⟩ := encodeTail_of_decodeByte1Mask h
    obtain ⟨henc, hw, hfmt⟩ := ofTail_encoding hlen hkey
    exact ⟨henc ▸ hbytes, hw, hfmt⟩
  | stateReg => exact encode_of_decodeState h
  | hostOp => cases h

/-- Settles O4, by evaluating the decoder on each of the ten words. -/
theorem sampleWordsDecode : Obligations.SampleWordsDecode := by
  unfold Obligations.SampleWordsDecode
  decide

end Sys2Proof
end

section
/-! The sizes of the parts of a frame (30_encoding.md R90). -/

namespace Sys2Proof

theorem extBytes_length (len : LenField) : len.extBytes.length = Machine.extBytesOf len := by
  cases len <;> rfl

theorem headerBytes_bounds (m : Bool) (len : LenField) :
    2 ≤ Machine.headerBytes m len ∧ Machine.headerBytes m len ≤ 14 := by
  have hext : Machine.extBytesOf len ≤ 8 := by cases len <;> simp [Machine.extBytesOf]
  unfold Machine.headerBytes
  split <;> omega

theorem encodeLength_length (m : Bool) (len : LenField) :
    (encodeLength m len).length = Machine.extBytesOf len + 1 := by
  rw [encodeLength, List.length_cons, extBytes_length]

/-- Byte 0 and the rest are the whole header, when the length is not reserved. -/
theorem encodeTail_length {m : Bool} {len : LenField} (key : Key) (h : len.reserved = false) :
    (encodeTail m len key).length + 1 = Machine.headerBytes m len := by
  cases m with
  | false =>
    rw [encodeTail_of_no_key key (by simp), encodeLength_length, Machine.headerBytes, if_neg (by simp)]
    omega
  | true =>
    rw [encodeTail_of_key key (by simp [h]), List.length_append, encodeLength_length, Vector.length_toList,
      Machine.headerBytes, if_pos rfl]
    omega

/-- Settles O3: byte 0, the rest of the header, and a payload as long as its length says. -/
theorem frameSizeIsHeaderPlusPayload : Obligations.FrameSizeIsHeaderPlusPayload := by
  intro op f hwf hres
  obtain ⟨-, -, hpay⟩ := f.wf_iff.1 hwf
  have htail := encodeTail_length (m := f.masked) f.key hres
  have hcount : f.len.payloadCount = f.len.value.toNat := by simp [LenField.payloadCount, hres]
  refine ⟨?_, headerBytes_bounds f.masked f.len⟩
  rw [encodeFrame_eq, List.length_cons, List.length_append, maskPayload_length]
  omega

end Sys2Proof
end

section
/-! A reserved 64-bit length on its way through the handlers: `S_LENGTH_BYTE` prepares the accumulator,
`S_EXTENDED_LENGTH` fills it and raises `E_RSVLEN` (30_encoding.md R94, decision D14). -/

namespace Sys2Proof.Machine

/-! ### A field that arrives whole -/

/-- A cleared accumulator that has received the whole of a field holds the field (40_header_states.md R134). -/
theorem filled_scratch_take {r : Regs} {bs : List Byte} (h0 : r.scratchCount = 0) (hl : bs.length ≤ 8) :
    (filled bs r).scratch.toList.take bs.length = bs := by
  apply List.ext_getElem
  · simpa using hl
  · intro i _ hi
    rw [List.getElem_take, Vector.getElem_toList, filled_scratch_getElem _ _ _ (by omega)]
    simp [h0, hi]

/-- The value of a cleared accumulator that has received the whole of a field (40_header_states.md R135). -/
theorem scratchValue_filled {r : Regs} {bs : List Byte} (h0 : r.scratchCount = 0) (hl : bs.length ≤ 8) :
    scratchValue bs.length (filled bs r) = BitVec.ofNat 64 (bigEndian bs) := by
  rw [scratchValue, filled_scratch_take h0 hl]

/-- `S_EXTENDED_LENGTH` on a reserved length that arrives whole (40_header_states.md R135). -/
theorem extendedLengthBody_reserved {r : Regs} {c : Call} {v : Word64} {rest : List Byte} (h8 : r.extWidth = .eight)
    (h0 : r.scratchCount = 0) (hu : c.unread = (LenField.len64 v).extBytes ++ rest) (hv : v.getLsbD 63 = true) :
    extendedLengthBody r c = .raised (.eRsvlen v) (c.consume 8) := by
  have hval : scratchValue r.extWidth.bytes (filled (LenField.len64 v).extBytes r) = v := by
    have hfull := scratchValue_filled (bs := (LenField.len64 v).extBytes) h0 (Nat.le_refl 8)
    rw [bigEndian_extBytes64, BitVec.ofNat_toNat, BitVec.setWidth_eq] at hfull
    rw [h8]
    exact hfull
  have htake : (LenField.len64 v).extBytes = c.unread.take (r.extWidth.bytes - r.scratchCount.toNat) := by
    rw [hu, h8, h0]
    rfl
  rw [extendedLengthBody_raised htake (by rw [h0, h8]; rfl) h8 (by rw [hval]; exact hv), hval]
  rfl

/-- `S_LENGTH_BYTE` on code 127 prepares for eight bytes (40_header_states.md R133). -/
theorem setByte1_code_127 (m : Bool) (r : Regs) :
    (setByte1 (encodeByte1 m 127) r).state = .extendedLength ∧
      (setByte1 (encodeByte1 m 127) r).extWidth = .eight ∧
      (setByte1 (encodeByte1 m 127) r).scratchCount = 0 := by
  simp only [setByte1, byte1Code_encodeByte1]
  exact ⟨rfl, rfl, rfl⟩

/-! ### The call -/

/-- From `S_LENGTH_BYTE` a reserved 64-bit length ends the call with `E_RSVLEN` at its last byte, whatever follows
it. -/
theorem dispatch_reserved_length {r : Regs} {c : Call} {m : Bool} {v : Word64} {rest : List Byte} (k : Nat)
    (s : State) (hs : r.state = .lengthByte) (hu : c.unread = encodeLength m (.len64 v) ++ rest)
    (hv : v.getLsbD 63 = true) :
    dispatch (k + 2) s r c = .next (failedWith (c.consumed + 9) c.event (.eRsvlen v) s) := by
  obtain ⟨hst, h8, h0⟩ := setByte1_code_127 m r
  have hu' : (c.consume 1).unread = (LenField.len64 v).extBytes ++ rest := by
    rw [Call.unread_consume, hu]
    rfl
  have hbyte1 : handlerBody r.state r c = .advance (setByte1 (encodeByte1 m 127) r) (c.consume 1) := by
    rw [hs]
    exact lengthByteBody_advance hu
  have hraise : handlerBody (setByte1 (encodeByte1 m 127) r).state (setByte1 (encodeByte1 m 127) r)
      (c.consume 1) = .raised (.eRsvlen v) ((c.consume 1).consume 8) := by
    rw [hst]
    exact extendedLengthBody_reserved h8 h0 hu' hv
  rw [dispatch_advance (k + 1) s hbyte1]
  exact dispatch_ends k s hraise (by simp)

/-- FEED of a span whose first call raises an error without an event ends with that call. -/
theorem present_of_raised {s : State} {span : List Byte} {n : Nat} {e : DecodeError}
    (h : processCall span (nextAnswer s) s = .next (failedWith n .none e s)) :
    present span s = .next (failedWith n .none e s) := by
  have hlast := lastResult_failedWith n .none e s
  rw [present, feed_done h (leftover_err hlast rfl), useAnswer_none hlast rfl]

/-- The bytes from byte 1 on, presented in `S_LENGTH_BYTE`. -/
theorem present_reserved_length {s : State} {r : Regs} {m : Bool} {v : Word64} (h : s.Idle r)
    (hs : r.state = .lengthByte) (hv : v.getLsbD 63 = true) :
    present (encodeLength m (.len64 v)) s = .next (failedWith 9 .none (.eRsvlen v) s) := by
  apply present_of_raised
  rw [processCall_idle h]
  exact dispatch_reserved_length (m := m) 5 s hs (List.append_nil _).symm hv

/-- No key follows a reserved length, masked or not (30_encoding.md R94). -/
theorem encodeTail_of_reserved (m : Bool) {v : Word64} (key : Key) (hv : v.getLsbD 63 = true) :
    encodeTail m (.len64 v) key = encodeLength m (.len64 v) := by
  apply encodeTail_of_no_key
  rw [LenField.reserved, hv]
  simp

/-- Settles O49: each form presents byte 1 and the length alone. -/
theorem reservedFormsRaiseERsvlen : Obligations.ReservedFormsRaiseERsvlen := by
  intro s r v key i hidle hs hv hi
  have hraise : ∀ m, present (encodeLength m (.len64 v)) s = .next (failedWith 9 .none (.eRsvlen v) s) :=
    fun m => present_reserved_length hidle hs hv
  have hraiseTail : ∀ m key,
      present (encodeTail m (.len64 v) key) s = .next (failedWith 9 .none (.eRsvlen v) s) := fun m key => by
    rw [encodeTail_of_reserved m key hv]
    exact hraise m
  simp only [List.mem_cons, List.not_mem_nil, or_false] at hi
  obtain rfl | rfl | rfl | rfl := hi
  · exact hraise false
  · exact hraise true
  · exact hraiseTail false Key.zero
  · exact hraiseTail true key

/-! ### The frame -/

/-- The row an opcode selects is the frame with that opcode. -/
theorem exec_ofOpcode (op : BitVec 4) (f : Frame) (s : State) :
    exec (.ofOpcode op f) s = present (encodeFrame op f) s := by
  obtain ⟨op⟩ := op
  fin_cases op <;> rfl

/-- An accepted byte 0 is consumed and leads to `S_LENGTH_BYTE` (40_header_states.md R131). -/
theorem dispatch_byte0 {r : Regs} {c : Call} {fin : Bool} {rsv : Rsv} {op : BitVec 4} {rest : List Byte} (k : Nat)
    (s : State) (hs : r.state = .opcodeByte) (hu : c.unread = encodeByte0 fin rsv op :: rest)
    (hf : fragCheck fin (op.setWidth 8) r.continuationExpected = none) :
    dispatch (k + 1) s r c =
      dispatch k s { setByte0 (encodeByte0 fin rsv op) r with state := .lengthByte } (c.consume 1) := by
  apply dispatch_advance
  rw [hs]
  apply opcodeByteBody_advance hu
  rw [← byte0Opcode_setWidth, byte0Fin_encodeByte0, byte0Opcode_encodeByte0]
  exact hf

/-- Settles O44: an accepted byte 0, then the length field as in `S_LENGTH_BYTE`. -/
theorem reservedLengthRaisesERsvlen : Obligations.ReservedLengthRaisesERsvlen := by
  intro s r f op v hidle hs _ hlen hv hf
  rw [exec_ofOpcode]
  apply present_of_raised
  rw [processCall_idle hidle, encodeFrame_eq, hlen, encodeTail_of_reserved f.masked f.key hv,
    show Config.maxHandlers = 6 + 1 from rfl, dispatch_byte0 6 s hs (Call.start_unread _ _) hf]
  exact dispatch_reserved_length 4 s rfl (by rw [Call.unread_consume]; rfl) hv

end Sys2Proof.Machine
end

section
/-! The header handlers' rows inside a call, each as what its body does (40_header_states.md R130 to R137), and
where no handler runs. -/

namespace Sys2Proof.Machine

/-! ### `FragCheck` (40_header_states.md R132) -/

theorem fragCheck_control {op : BitVec 8} (fin ce : Bool) (h : op.getLsbD 3 = true) :
    fragCheck fin op ce = if fin then none else some .fragmentedControl := by
  rw [fragCheck, isControl, if_pos h]
  cases fin <;> rfl

theorem fragCheck_data_open {op : BitVec 8} (fin : Bool) (h : op.getLsbD 3 = false) :
    fragCheck fin op true = if op = 0x0 then none else some .continuationExpected := by
  rw [fragCheck, isControl, h]
  by_cases hz : op = 0x0 <;> simp [hz]

theorem fragCheck_data_closed {op : BitVec 8} (fin : Bool) (h : op.getLsbD 3 = false) :
    fragCheck fin op false = if op = 0x0 then some .unexpectedContinuation else none := by
  rw [fragCheck, isControl, h]
  by_cases hz : op = 0x0 <;> simp [hz]

/-- Settles O8, by the kind of the opcode and whether a message is open. -/
theorem fragCheckHasThreeFailingCases : Obligations.FragCheckHasThreeFailingCases := by
  intro fin op ce
  cases hop : op.getLsbD 3 with
  | true =>
    rw [fragCheck_control fin ce hop]
    cases fin <;> simp
  | false =>
    cases ce with
    | true =>
      rw [fragCheck_data_open fin hop]
      by_cases hz : op = 0x0 <;> simp [hz]
    | false =>
      rw [fragCheck_data_closed fin hop]
      by_cases hz : op = 0x0 <;> simp [hz]

/-! ### Where a row runs -/

/-- Inside a call the row of a sub-state is the dispatcher's reaction to what its body answers. -/
theorem exec_handlerInstr_of_body {s : State} {r : Regs} {c : Call} {st : SubState} {out : HandlerOut}
    (h : s.InCall r c) (hb : handlerBody st r c = out) : exec (handlerInstr st) s = conclude s out := by
  rw [exec_handlerInstr, runHandler_inCall h, hb]

/-- Settles O18: every handler's row goes through `runHandler`, which runs a body in a call only. -/
theorem handlersRunInsideACallOnly : Obligations.HandlersRunInsideACallOnly := by
  intro s st
  rw [exec_handlerInstr]
  exact ⟨fun hf => runHandler_failed hf _, fun r hidle => runHandler_idle hidle _⟩

theorem extendedLengthBody_overrun {r : Regs} (c : Call) (h : r.extWidth.bytes < r.scratchCount.toNat) :
    extendedLengthBody r c = .stuck .accumulatorOverrun := by
  rw [extendedLengthBody, accumulate_overrun c h]

theorem maskingKeyBody_overrun {r : Regs} (c : Call) (h : 4 < r.scratchCount.toNat) :
    maskingKeyBody r c = .stuck .accumulatorOverrun := by
  rw [maskingKeyBody, accumulate_overrun c h]

/-- Settles O19: outside its requirement `Accumulate` answers an overrun, and both bodies stop on it. -/
theorem accumulatorOverrunStops : Obligations.AccumulatorOverrunStops := fun _ _ c hs =>
  ⟨fun h => exec_handlerInstr_of_body (st := .extendedLength) hs (extendedLengthBody_overrun c h),
    fun h => exec_handlerInstr_of_body (st := .maskingKey) hs (maskingKeyBody_overrun c h)⟩

/-! ### `S_OPCODE_BYTE` and `S_LENGTH_BYTE` -/

/-- Settles O10, by whether a byte is left and what `FragCheck` says of it. -/
theorem opcodeByteTakesByteZero : Obligations.OpcodeByteTakesByteZero := by
  intro s r c hs
  refine ⟨fun hu => ?_, fun b rest hu => ⟨fun hf => ?_, fun cause hf => ?_⟩⟩
  · exact exec_handlerInstr_of_body (st := .opcodeByte) hs (opcodeByteBody_starved hu)
  · rw [← byte0Opcode_setWidth]
    exact exec_handlerInstr_of_body (st := .opcodeByte) hs (opcodeByteBody_advance hu hf)
  · exact exec_handlerInstr_of_body (st := .opcodeByte) hs (opcodeByteBody_raised hu hf)

/-- A literal length code is the length (40_header_states.md R133). -/
theorem setByte1_literal {b : Byte} (r : Regs) (h : byte1Code b ≤ 125) :
    setByte1 b r = { r with
      cur := { r.cur with masked := byte1Masked b, payloadLength := (byte1Code b).setWidth 64 }
      state := .maskingKeyCheck } := if_pos h

/-- The codes 126 and 127 announce two and eight bytes of length, for which the accumulator is cleared
(40_header_states.md R133). -/
theorem setByte1_extended {b : Byte} (r : Regs) (h : ¬ byte1Code b ≤ 125) :
    setByte1 b r = { r with
      cur := { r.cur with masked := byte1Masked b }
      extWidth := if byte1Code b = 126 then .two else .eight
      scratchCount := 0, scratch := Scratch.zero
      state := .extendedLength } := if_neg h

theorem byte1Code_toNat (b : Byte) : (byte1Code b).toNat = (b &&& 0x7F).toNat := by
  rw [← byte1Code_setWidth, BitVec.toNat_setWidth_of_le (by decide)]

theorem byte1Code_setWidth_64 (b : Byte) : (byte1Code b).setWidth 64 = (b &&& 0x7F).setWidth 64 := by
  apply BitVec.eq_of_toNat_eq
  rw [BitVec.toNat_setWidth_of_le (by decide), BitVec.toNat_setWidth_of_le (by decide), byte1Code_toNat]

/-- Settles O11, by whether a byte is left and its length code. -/
theorem lengthByteTakesByteOne : Obligations.LengthByteTakesByteOne := by
  intro s r c hs
  refine ⟨fun hu => ?_, fun b rest hu => ?_⟩
  · exact exec_handlerInstr_of_body (st := .lengthByte) hs (lengthByteBody_starved hu)
  have hrow : exec .sLengthByte s = .next (running (setByte1 b r) (c.consume 1) s) :=
    exec_handlerInstr_of_body (st := .lengthByte) hs (lengthByteBody_advance hu)
  rw [hrow, ← byte1Code_toNat, ← byte1Code_setWidth_64]
  refine ⟨fun hcode => ?_, fun hcode => ?_, fun hcode => ?_⟩
  · rw [setByte1_literal r hcode]
    rfl
  · have h126 : byte1Code b = 126 := BitVec.eq_of_toNat_eq hcode
    rw [setByte1_extended r (by rw [h126]; decide), if_pos h126]
    rfl
  · have h127 : byte1Code b = 127 := BitVec.eq_of_toNat_eq hcode
    rw [setByte1_extended r (by rw [h127]; decide), if_neg (by rw [h127]; decide)]
    rfl

/-! ### The accumulating handlers and the check between them -/

/-- Settles O12: the accumulator misses bytes, or holds two, or holds eight with bit 63 clear or set. -/
theorem extendedLengthAssemblesBigEndian : Obligations.ExtendedLengthAssemblesBigEndian := by
  rintro s r _ c _ bs hs - - hbs rfl rfl
  refine ⟨fun hl => ?_, fun hl h2 => ?_, fun hl h8 => ?_⟩
  · exact exec_handlerInstr_of_body (st := .extendedLength) hs (extendedLengthBody_starved hbs hl)
  · have hval := scratchValue_two (filled bs r)
    have hbody := extendedLengthBody_advance hbs hl (by simp [h2])
    rw [h2, show ExtWidth.two.bytes = 2 from rfl, hval] at hbody
    exact exec_handlerInstr_of_body (st := .extendedLength) hs hbody
  · have hval := scratchValue_eight (filled bs r)
    have htop := scratchValue_eight_top (filled bs r)
    have hbytes : r.extWidth.bytes = 8 := by rw [h8]; rfl
    refine ⟨fun h0 => ?_, fun h1 => ?_⟩
    · have hbody := extendedLengthBody_advance hbs hl (by rw [hbytes, htop, h0]; simp)
      rw [hbytes, hval] at hbody
      exact exec_handlerInstr_of_body (st := .extendedLength) hs hbody
    · have hbody := extendedLengthBody_raised hbs hl h8 (by rw [hbytes, htop, h1])
      rw [hbytes, hval] at hbody
      exact exec_handlerInstr_of_body (st := .extendedLength) hs hbody

/-- Settles O13, by the bit `masked`. -/
theorem maskingKeyCheckDecides : Obligations.MaskingKeyCheckDecides := fun _ _ c hs =>
  ⟨fun hm => exec_handlerInstr_of_body (st := .maskingKeyCheck) hs (maskingKeyCheckBody_unmasked c hm),
    fun hm => exec_handlerInstr_of_body (st := .maskingKeyCheck) hs (maskingKeyCheckBody_masked c hm)⟩

/-- Settles O14, by whether all four key bytes are there. -/
theorem maskingKeyTakesFourBytes : Obligations.MaskingKeyTakesFourBytes := by
  rintro s r _ c _ bs hs - hbs rfl rfl
  exact ⟨fun hl => exec_handlerInstr_of_body (st := .maskingKey) hs (maskingKeyBody_starved hbs hl),
    fun hl => exec_handlerInstr_of_body (st := .maskingKey) hs (maskingKeyBody_advance hbs hl)⟩

end Sys2Proof.Machine
end

section
/-! A header on its way through the handlers of one call, from `S_LENGTH_BYTE` to the HEADER event
(40_header_states.md R133 to R137, 41_payload_states.md R170). The number of handlers depends on the form of the
length, so the lemmas about the dispatcher's loop give it more than it needs. -/

namespace Sys2Proof

/-- Bit 63 of a length is what makes it reserved (30_encoding.md R102). -/
theorem LenField.value_getLsbD_63 (len : LenField) : len.value.getLsbD 63 = len.reserved := by
  cases len <;> simp [LenField.value, LenField.reserved]

/-- The extended length bytes are the length, most significant first (20_memory.md R62). -/
theorem LenField.bigEndian_extBytes {len : LenField} (h : len.extBytes ≠ []) :
    BitVec.ofNat 64 (bigEndian len.extBytes) = len.value := by
  cases len with
  | len7 code => exact absurd rfl h
  | len16 v => rw [bigEndian_extBytes16, BitVec.ofNat_toNat]; rfl
  | len64 v => rw [bigEndian_extBytes64, BitVec.ofNat_toNat, BitVec.setWidth_eq]; rfl

end Sys2Proof

namespace Sys2Proof.Machine

/-! ### The loop and the call -/

/-- A call that ends within `k` handlers ends the same within more. -/
theorem dispatch_succ {k : Nat} {s t : State} {r : Regs} {c : Call} (h : dispatch k s r c = .next t) :
    dispatch (k + 1) s r c = .next t := by
  induction k generalizing r c with
  | zero => cases h
  | succ k ih =>
    by_cases hadv : ∃ r' c', handlerBody r.state r c = .advance r' c'
    · obtain ⟨r', c', hb⟩ := hadv
      rw [dispatch_advance _ s hb] at h ⊢
      exact ih h
    · have hne : ∀ r' c', handlerBody r.state r c ≠ .advance r' c' := fun r' c' hb => hadv ⟨r', c', hb⟩
      rw [dispatch_ends _ s rfl hne] at h ⊢
      exact h

/-- The dispatcher goes on after the handler of the named sub-state has advanced. -/
theorem dispatch_advance_of_state {st : SubState} {r r' : Regs} {c c' : Call} (k : Nat) (s : State)
    (hs : r.state = st) (hb : handlerBody st r c = .advance r' c') :
    dispatch (k + 1) s r c = dispatch k s r' c' :=
  dispatch_advance k s (by rw [hs, hb])

/-- The dispatcher ends the call after the handler of the named sub-state has not advanced. -/
theorem dispatch_ends_of_state {st : SubState} {r : Regs} {c : Call} {out : HandlerOut} (k : Nat) (s : State)
    (hs : r.state = st) (hb : handlerBody st r c = out) (hne : ∀ r' c', out ≠ .advance r' c') :
    dispatch (k + 1) s r c = conclude s out :=
  dispatch_ends k s (by rw [hs, hb]) hne

theorem Call.consume_consume (m n : Nat) (c : Call) : (c.consume m).consume n = c.consume (m + n) := by
  simp [Call.consume, Nat.add_assoc]

/-- FEED of a span that one call takes whole, without an event. -/
theorem present_of_starved {s : State} {r : Regs} {span : List Byte}
    (h : processCall span (nextAnswer s) s = .next (returned r (starvedResult span.length) s)) :
    present span s = .next (returned r (starvedResult span.length) s) := by
  have hlast := lastResult_returned r (starvedResult span.length) s
  rw [present, feed_done h ((leftover_ok hlast rfl).trans List.drop_length), useAnswer_none hlast rfl]

/-- FEED of a span that one call takes whole, with an event: one answer is used up. -/
theorem present_of_event {s : State} {r : Regs} {span : List Byte} {res : CallResult}
    (h : processCall span (nextAnswer s) s = .next (returned r res s)) (hok : res.status = .ok)
    (hall : res.consumed = span.length) (hev : res.event ≠ .none) :
    present span s = .next (useAnswers 1 (returned r res s)) := by
  have hlast := lastResult_returned r res s
  rw [present, feed_done h (by rw [leftover_ok hlast hok, hall, List.drop_length]), useAnswer_event hlast hev]

theorem nextAnswer_of_answered {s : State} {n : Nat} (h : s.Answered (n + 1)) : nextAnswer s = 0 := by
  obtain ⟨more, hmore⟩ := h
  exact nextAnswer_cons hmore

/-! ### The accumulator -/

/-- The scratch buffer that holds `bs` and is 00 behind it (10_state.md R33). -/
def paddedScratch (bs : List Byte) : Scratch := Vector.ofFn fun i : Fin 8 => bs.getD i.val 0

/-- A cleared accumulator holds what arrives and is 00 behind it (40_header_states.md R134). -/
theorem filled_of_cleared {r : Regs} (bs : List Byte) (h0 : r.scratchCount = 0) (hz : r.scratch = Scratch.zero) :
    filled bs r = { r with scratch := paddedScratch bs, scratchCount := BitVec.ofNat 4 bs.length } := by
  have hzero : ∀ i : Fin 8, Scratch.zero[i.val] = 0 := scratch_zero_getElem
  simp [filled, paddedScratch, h0, hz, hzero]

theorem filled_nil (r : Regs) : filled [] r = r := by
  simp [filled]

/-- The key is the first four bytes of the accumulator (40_header_states.md R137). -/
theorem scratchKey_padded {r : Regs} {key : Key} (h : r.scratch = paddedScratch key.toList) :
    scratchKey r = key := by
  apply Vector.ext
  intro i hi
  rw [scratchKey, h]
  interval_cases i <;> simp [paddedScratch]

/-! ### The length on its way -/

/-- The registers between the length and the key (40_header_states.md R133, R135). -/
def lengthRegs (m : Bool) (len : LenField) (r : Regs) : Regs :=
  { r with
      cur := { r.cur with masked := m, payloadLength := len.value }
      scratch := (scratchAfter false len Key.zero r).1
      scratchCount := (scratchAfter false len Key.zero r).2
      extWidth := extWidthAfter len r
      state := .maskingKeyCheck }

/-- The registers of a frame that waits for the whole of its extended length (40_header_states.md R133). -/
def awaitLengthRegs (m : Bool) (len : LenField) (r : Regs) : Regs :=
  { accReset { r with cur := { r.cur with masked := m }, extWidth := extWidthAfter len r } with
      state := .extendedLength }

/-- Byte 1 of the literal form is the whole length (40_header_states.md R133). -/
theorem setByte1_len7 (m : Bool) {code : BitVec 7} (r : Regs) (h : (LenField.len7 code).wf = true) :
    setByte1 (encodeByte1 m code) r = lengthRegs m (.len7 code) r := by
  have hcode : byte1Code (encodeByte1 m code) ≤ 125 := by
    rw [byte1Code_encodeByte1]
    exact of_decide_eq_true h
  rw [setByte1_literal r hcode, byte1Code_encodeByte1, byte1Masked_encodeByte1]
  rfl

/-- Byte 1 of an extended form announces the length (40_header_states.md R133). -/
theorem setByte1_extBytes (m : Bool) {len : LenField} (r : Regs) (h : len.extBytes ≠ []) :
    setByte1 (encodeByte1 m len.code) r = awaitLengthRegs m len r := by
  have hcode : ¬ len.code ≤ 125 := by
    cases len with
    | len7 code => exact absurd rfl h
    | len16 v | len64 v => simp [LenField.code]
  rw [setByte1_extended r (by rw [byte1Code_encodeByte1]; exact hcode), byte1Code_encodeByte1,
    byte1Masked_encodeByte1]
  cases len with
  | len7 code => exact absurd rfl h
  | len16 v | len64 v => rfl

theorem extWidthAfter_bytes {len : LenField} (r : Regs) (h : len.extBytes ≠ []) :
    (extWidthAfter len r).bytes = len.extBytes.length := by
  cases len with
  | len7 code => exact absurd rfl h
  | len16 v | len64 v => rfl

/-- Before the key the accumulator holds the extended length (10_state.md R33). -/
theorem scratchAfter_extBytes {len : LenField} (r : Regs) (h : len.extBytes ≠ []) :
    scratchAfter false len Key.zero r = (paddedScratch len.extBytes, BitVec.ofNat 4 len.extBytes.length) := by
  cases len with
  | len7 code => exact absurd rfl h
  | len16 v | len64 v => rfl

/-- `S_EXTENDED_LENGTH` on a length that arrives whole and is not reserved (40_header_states.md R135). -/
theorem extendedLengthBody_whole {r : Regs} {c : Call} {m : Bool} {len : LenField} {rest : List Byte}
    (hne : len.extBytes ≠ []) (hres : len.reserved = false) (hu : c.unread = len.extBytes ++ rest) :
    extendedLengthBody (awaitLengthRegs m len r) c =
      .advance (lengthRegs m len r) (c.consume len.extBytes.length) := by
  have hlen : len.extBytes.length ≤ 8 := by cases len <;> simp [LenField.extBytes]
  have hw : (awaitLengthRegs m len r).extWidth.bytes = len.extBytes.length := extWidthAfter_bytes r hne
  have hcount : (awaitLengthRegs m len r).scratchCount = 0 := rfl
  have hval : scratchValue (awaitLengthRegs m len r).extWidth.bytes (filled len.extBytes (awaitLengthRegs m len r)) =
      len.value := by
    rw [hw, scratchValue_filled hcount hlen, LenField.bigEndian_extBytes hne]
  have htake : len.extBytes = c.unread.take
      ((awaitLengthRegs m len r).extWidth.bytes - (awaitLengthRegs m len r).scratchCount.toNat) := by
    rw [hu, hw, hcount]
    exact List.take_left.symm
  have hbody := extendedLengthBody_advance htake (by rw [hcount, hw]; exact Nat.zero_add _)
    (by rw [hval, LenField.value_getLsbD_63, hres]; simp)
  rw [hval, filled_of_cleared _ hcount rfl] at hbody
  rw [hbody, lengthRegs, scratchAfter_extBytes r hne]
  rfl

/-- From `S_LENGTH_BYTE` a whole length leads to `S_MASKING_KEY_CHECK`, by one handler or by two. -/
theorem dispatch_length {k : Nat} {s t : State} {r : Regs} {c : Call} {m : Bool} {len : LenField}
    {rest : List Byte} (hs : r.state = .lengthByte) (hwf : len.wf = true) (hres : len.reserved = false)
    (hu : c.unread = encodeLength m len ++ rest)
    (h : dispatch k s (lengthRegs m len r) (c.consume (encodeLength m len).length) = .next t) :
    dispatch (k + 2) s r c = .next t := by
  rw [dispatch_advance_of_state _ s hs (lengthByteBody_advance hu)]
  by_cases hne : len.extBytes = []
  · cases len with
    | len7 code =>
      change dispatch (k + 1) s (setByte1 (encodeByte1 m code) r) (c.consume 1) = _
      rw [setByte1_len7 m r hwf]
      exact dispatch_succ h
    | len16 v | len64 v => cases hne
  · have hu' : (c.consume 1).unread = len.extBytes ++ rest := by
      rw [Call.unread_consume, hu]
      rfl
    rw [encodeLength, List.length_cons, Nat.add_comm, ← Call.consume_consume] at h
    rw [setByte1_extBytes m r hne,
      dispatch_advance_of_state k s (st := .extendedLength) rfl (extendedLengthBody_whole hne hres hu')]
    exact h

/-! ### The key -/

theorem dispatch_no_key {k : Nat} {s : State} {r : Regs} {c : Call} (len : LenField) :
    dispatch (k + 1) s (lengthRegs false len r) c =
      dispatch k s { headerRegs false len Key.zero r with state := .payloadCheck } c :=
  dispatch_advance k s (maskingKeyCheckBody_unmasked c rfl)

/-- The registers of a masked frame that waits for its key (40_header_states.md R136). -/
def awaitKeyRegs (len : LenField) (r : Regs) : Regs :=
  { accReset (lengthRegs true len r) with state := .maskingKey }

theorem dispatch_await_key {k : Nat} {s : State} {r : Regs} {c : Call} (len : LenField) :
    dispatch (k + 1) s (lengthRegs true len r) c = dispatch k s (awaitKeyRegs len r) c :=
  dispatch_advance k s (maskingKeyCheckBody_masked c rfl)

/-- `S_MASKING_KEY` on a key that arrives whole (40_header_states.md R137). -/
theorem dispatch_key {k : Nat} {s : State} {r : Regs} {c : Call} {len : LenField} {key : Key} {rest : List Byte}
    (hu : c.unread = key.toList ++ rest) :
    dispatch (k + 1) s (awaitKeyRegs len r) c =
      dispatch k s { headerRegs true len key r with state := .payloadCheck } (c.consume 4) := by
  have hlen : key.toList.length = 4 := Vector.length_toList
  have hfill := filled_of_cleared (r := awaitKeyRegs len r) key.toList rfl rfl
  have hscratch : paddedScratch key.toList = #v[key[0], key[1], key[2], key[3], 0, 0, 0, 0] := by
    rw [Key.toList_eq]
    rfl
  have htake : key.toList = c.unread.take (4 - (awaitKeyRegs len r).scratchCount.toNat) := by
    rw [hu]
    exact (List.take_left' hlen).symm
  have hbody := maskingKeyBody_advance htake (by rw [hlen]; rfl)
  rw [scratchKey_padded (congrArg Regs.scratch hfill), hfill, hscratch, hlen] at hbody
  exact dispatch_advance_of_state k s (st := .maskingKey) rfl hbody

/-- `S_MASKING_KEY` with no byte left changes nothing and ends the call (40_header_states.md R137). -/
theorem dispatch_awaiting_key {k : Nat} {s : State} {r : Regs} {c : Call} {len : LenField} (hu : c.unread = []) :
    dispatch (k + 1) s (awaitKeyRegs len r) c =
      .next (returned (awaitKeyRegs len r) (starvedResult c.consumed) s) := by
  have hstarved : (awaitKeyRegs len r).scratchCount.toNat + ([] : List Byte).length < 4 := Nat.zero_lt_succ 3
  have hbody := maskingKeyBody_starved (by rw [hu]; rfl) hstarved
  rw [filled_nil] at hbody
  exact dispatch_ends_of_state k s (st := .maskingKey) rfl hbody (by simp)

/-! ### The HEADER event -/

/-- `S_PAYLOAD_CHECK` of a call whose event is answered with success (41_payload_states.md R170). -/
theorem dispatch_payloadCheck {k : Nat} {s : State} {r : Regs} {c : Call} (hs : r.state = .payloadCheck)
    (hq : c.cbs = 0) (hf : c.frameComplete = false) :
    dispatch (k + 1) s r c = .next (returned (afterHeader r) (headerResult c.consumed r) s) := by
  unfold afterHeader headerResult
  by_cases hl : r.cur.payloadLength = 0
  · rw [dispatch_ends_of_state k s hs (payloadCheckBody_empty hq hl) (by simp), completeRegs_eq, if_pos hl]
    simp [hl]
  · have hlen : (r.cur.payloadLength == 0) = false := beq_false_of_ne hl
    rw [dispatch_ends_of_state k s hs (payloadCheckBody_payload hq hl) (by simp), if_neg hl, hlen]
    simp [hf, startPayload]

/-- From `S_LENGTH_BYTE` the rest of a whole header ends the call with its HEADER event, whatever follows it. -/
theorem dispatch_header {k : Nat} {s : State} {r : Regs} {c : Call} {m : Bool} {len : LenField} {key : Key}
    {rest : List Byte} (hs : r.state = .lengthByte) (hwf : len.wf = true) (hres : len.reserved = false)
    (hkey : keyWf m len key = true) (hu : c.unread = encodeTail m len key ++ rest) (hq : c.cbs = 0)
    (hf : c.frameComplete = false) :
    dispatch (k + 5) s r c = .next (returned (afterHeader (headerRegs m len key r))
      (headerResult (c.consumed + (encodeTail m len key).length) (headerRegs m len key r)) s) := by
  cases m with
  | false =>
    obtain rfl : key = Key.zero := ((keyWf_iff false len key).1 hkey).resolve_left (by simp)
    rw [encodeTail_of_no_key _ (by simp)] at hu ⊢
    apply dispatch_length hs hwf hres hu
    rw [dispatch_no_key]
    exact dispatch_payloadCheck rfl hq hf
  | true =>
    rw [encodeTail_of_key key (by simp [hres])] at hu ⊢
    rw [List.append_assoc] at hu
    have hukey : (c.consume (encodeLength true len).length).unread = key.toList ++ rest := by
      rw [Call.unread_consume, hu, List.drop_left]
    apply dispatch_length hs hwf hres hu
    rw [dispatch_await_key, dispatch_key hukey, Call.consume_consume, List.length_append, Vector.length_toList]
    exact dispatch_payloadCheck rfl hq hf

/-! ### The forms of byte 1 -/

/-- The bytes from byte 1 to the end of a header, presented in `S_LENGTH_BYTE`. -/
theorem present_header {s : State} {r : Regs} {m : Bool} {len : LenField} {key : Key} (hidle : s.Idle r)
    (hs : r.state = .lengthByte) (hwf : len.wf = true) (hres : len.reserved = false)
    (hkey : keyWf m len key = true) (hans : s.Answered 1) :
    present (encodeTail m len key) s = .next (useAnswers 1 (returned (afterHeader (headerRegs m len key r))
      (headerResult (encodeTail m len key).length (headerRegs m len key r)) s)) := by
  refine present_of_event ?_ rfl rfl (by simp [headerResult])
  rw [processCall_idle hidle, nextAnswer_of_answered hans, show Config.maxHandlers = 2 + 5 from rfl,
    dispatch_header hs hwf hres hkey (List.append_nil _).symm rfl rfl, Call.start_consumed, Nat.zero_add]

/-- Settles O46: without a key the four forms present the same bytes, which are the rest of the header. -/
theorem unmaskedFormsCompleteTheHeader : Obligations.UnmaskedFormsCompleteTheHeader := by
  rintro s r _ len i hidle hs hwf hres hans hi rfl
  have htail : encodeTail false len Key.zero = encodeLength false len := encodeTail_of_no_key _ (by simp)
  have hexec : exec i s = present (encodeTail false len Key.zero) s := by
    obtain rfl | ⟨code, rfl, rfl⟩ | ⟨v, rfl, rfl⟩ | ⟨v, rfl, rfl⟩ := hi
    · rfl
    all_goals
      rw [htail]
      rfl
  rw [hexec, present_header hidle hs hwf hres ((keyWf_iff false len _).2 (.inr rfl)) hans, htail,
    encodeLength_length, Nat.add_comm]

/-- Settles O47: the masked forms present the length alone, after which `S_MASKING_KEY` starves. -/
theorem maskedLengthsWaitForTheKey : Obligations.MaskedLengthsWaitForTheKey := by
  intro s r len i hidle hs hwf hres hi
  have hexec : exec i s = present (encodeLength true len) s := by
    obtain ⟨code, rfl, rfl⟩ | ⟨v, rfl, rfl⟩ | ⟨v, rfl, rfl⟩ := hi <;> rfl
  have hcall : processCall (encodeLength true len) (nextAnswer s) s =
      .next (returned (awaitKeyRegs len r) (starvedResult (encodeLength true len).length) s) := by
    rw [processCall_idle hidle]
    apply dispatch_length (k := 5) hs hwf hres (List.append_nil _).symm
    rw [dispatch_await_key, dispatch_awaiting_key (by rw [Call.unread_consume]; exact List.drop_length),
      Call.consume_consumed, Call.start_consumed, Nat.zero_add]
  rw [hexec, present_of_starved hcall, encodeLength_length, Nat.add_comm]
  rfl

/-- Settles O48: the bytes of the row are the rest of a masked header. -/
theorem maskedFormCompletesTheHeader : Obligations.MaskedFormCompletesTheHeader := by
  rintro s r _ len key hidle hs hwf hres hans rfl
  have hlen : (encodeTail true len key).length = 5 + extBytesOf len := by
    rw [encodeTail_of_key key (by simp [hres]), List.length_append, encodeLength_length, Vector.length_toList]
    omega
  change present (encodeTail true len key) s = _
  rw [present_header hidle hs hwf hres ((keyWf_iff true len key).2 (.inl (by simp [hres]))) hans, hlen]

end Sys2Proof.Machine
end

section
/-! The XOR datapath, byte by byte: which key byte a wire byte meets, and what that says of a run of bytes and of
its chunks (41_payload_states.md R173, R174). -/

namespace Sys2Proof

/-- The key byte that a wire byte meets, named by any number with the position's remainder. -/
theorem unmask_of_mod_eq (w : Byte) (key : Key) {p : Word64} {n : Nat} (h : p.toNat % 4 = n % 4) :
    unmask w key p = w ^^^ key[n % 4]'(Nat.mod_lt _ (by decide)) :=
  congrArg (w ^^^ ·) (getElem_congr_idx h)

/-- Settles O5: the index is its own remainder modulo 4. -/
theorem unmaskIsXorWithKeyByte : Obligations.UnmaskIsXorWithKeyByte := by
  intro w key p i h
  have hi : i.val % 4 = i.val := Nat.mod_eq_of_lt i.isLt
  rw [unmask_of_mod_eq w key (h.trans hi.symm), Fin.getElem_fin]
  exact congrArg (w ^^^ ·) (getElem_congr_idx hi)

/-- Settles O6, by the round trip of a run of bytes, which holds from any position. -/
theorem unmaskingIsSelfInverse : Obligations.UnmaskingIsSelfInverse := unmaskBytes_unmaskBytes

/-- The position advances by one per byte, so a run goes on where the run before it has stopped. -/
theorem unmaskBytes_append (key : Key) (p : Word64) (xs ys : List Byte) :
    unmaskBytes key p (xs ++ ys) =
      unmaskBytes key p xs ++ unmaskBytes key (p + BitVec.ofNat 64 xs.length) ys := by
  induction xs generalizing p with
  | nil => simp [unmaskBytes]
  | cons x xs ih =>
    have hpos : p + 1 + BitVec.ofNat 64 xs.length = p + BitVec.ofNat 64 (x :: xs).length := by
      rw [List.length_cons, Nat.add_comm, BitVec.ofNat_add, BitVec.add_assoc]
      rfl
    simp only [List.cons_append, unmaskBytes, ih, hpos]

/-- Byte `i` of a run meets key byte `(p + i) mod 4`: 4 divides 2^64, so a position that wraps keeps its
remainder. -/
theorem unmaskBytes_eq_mapIdx (key : Key) (p : Word64) (ws : List Byte) :
    unmaskBytes key p ws =
      ws.mapIdx fun i w => w ^^^ key[(p.toNat + i) % 4]'(Nat.mod_lt _ (by decide)) := by
  induction ws generalizing p with
  | nil => rfl
  | cons w ws ih =>
    have hnext : ∀ i, ((p + 1).toNat + i) % 4 = (p.toNat + (i + 1)) % 4 := fun i => by
      rw [BitVec.toNat_add, show (1 : Word64).toNat = 1 from rfl]
      omega
    simp only [unmaskBytes, ih, List.mapIdx_cons, hnext]
    rfl

/-- Settles O7: the first half is `unmaskBytes_append`, the second the byte-wise form at `i`. -/
theorem unmaskingIsChunkIndependent : Obligations.UnmaskingIsChunkIndependent := by
  intro key p xs ys
  refine ⟨unmaskBytes_append key p xs ys, fun i h => ?_⟩
  rw [unmaskBytes_eq_mapIdx, List.getElem?_mapIdx, List.getElem?_eq_getElem h, Option.map_some]

end Sys2Proof
end

section
/-! The payload handlers' rows inside a call, each as what its body does (41_payload_states.md R170 to R175). -/

namespace Sys2Proof.Machine

/-- Settles O15, by the callback's answer and whether the payload is empty. -/
theorem payloadCheckFiresTheHeader : Obligations.PayloadCheckFiresTheHeader := by
  intro s r c hs
  refine ⟨fun hq => ?_, fun hq hl => ?_, fun hq hl => ?_⟩
  · exact exec_handlerInstr_of_body (st := .payloadCheck) hs (payloadCheckBody_raised hq)
  · rw [← completeRegs_eq]
    exact exec_handlerInstr_of_body (st := .payloadCheck) hs (payloadCheckBody_empty hq hl)
  · exact exec_handlerInstr_of_body (st := .payloadCheck) hs (payloadCheckBody_payload hq hl)

/-- What is delivered, byte by byte: unmasked at the position the payload has reached, or as it is
(41_payload_states.md R172, R173). -/
theorem deliver_eq_mapIdx (r : Regs) (ws : List Byte) :
    deliver r ws = ws.mapIdx fun i w =>
      if r.cur.masked then
        w ^^^ r.cur.maskingKey[(r.maskingPosition.toNat + i) % 4]'(Nat.mod_lt _ (by decide))
      else w := by
  cases hm : r.cur.masked with
  | false => exact List.ext_getElem? fun i => by simp [deliver, hm]
  | true => simp [deliver, hm, unmaskBytes_eq_mapIdx]

/-- Settles O16, by whether a byte is left, the callback's answer, and whether the payload ends here. -/
theorem payloadDeliversTheMinimum : Obligations.PayloadDeliversTheMinimum := by
  rintro s r _ c n _ hs hn rfl rfl
  rw [← deliver_eq_mapIdx]
  refine ⟨fun ha => ?_, fun ha hq => ?_, fun ha hq hz => ?_, fun ha hq hz => ?_⟩
  · exact exec_handlerInstr_of_body (st := .payload) hs (payloadBody_starved ha)
  · exact exec_handlerInstr_of_body (st := .payload) hs (payloadBody_raised ha hn hq)
  · have hrow := exec_handlerInstr_of_body (st := .payload) hs (payloadBody_completes ha hn hq hz)
    rw [completeRegs_eq] at hrow
    exact hrow
  · exact exec_handlerInstr_of_body (st := .payload) hs (payloadBody_goesOn ha hn hq hz)

/-- Settles O17: the body of `S_DONE` advances with the implicit reset alone. -/
theorem doneIsTheImplicitReset : Obligations.DoneIsTheImplicitReset := fun _ _ _ hs =>
  exec_handlerInstr_of_body (st := .done) hs rfl

end Sys2Proof.Machine
end

section
/-! `continuation_expected` over a call (10_state.md R23, 41_payload_states.md R171): a handler after which the
call goes on leaves it alone (`handlerBody_advance_keeps`), and one that ends the call updates it if it completes
the frame. -/

namespace Sys2Proof.Machine

/-- What a completed frame, or none, makes of `continuation_expected` (41_payload_states.md R171). -/
def Regs.CeFrom (ce complete : Bool) (r : Regs) : Prop :=
  r.continuationExpected = if complete then ceAfter r.cur ce else ce

/-- A handler's end that updates `continuation_expected`, which was `ce`, as R171 says. -/
def HandlerOut.EndUpdatesCe (ce : Bool) : HandlerOut → Prop
  | .advance _ _ => True
  | .starved r _ => r.CeFrom ce false
  | .fired r c => r.CeFrom ce c.frameComplete
  | .raised _ _ => True
  | .stuck _ => True

theorem completeRegs_ceFrom {r : Regs} {ce : Bool} (h : r.continuationExpected = ce) :
    (completeRegs r).CeFrom ce true := by
  rw [completeRegs_eq, ← h]
  rfl

/-- Storing bytes in the accumulator is not the fragmentation update. -/
theorem accumulate_partly_ceFrom {width : Nat} {r r' : Regs} {c c' : Call} (hw : width ≤ 8)
    (h : accumulate width r c = .partly r' c') : r'.CeFrom r.continuationExpected false := by
  obtain ⟨-, bs, -, rfl, -⟩ := accumulate_takes hw (.inr h)
  rfl

theorem opcodeByteBody_endUpdatesCe (r : Regs) (c : Call) :
    (opcodeByteBody r c).EndUpdatesCe r.continuationExpected := by
  cases hu : c.unread with
  | nil =>
    rw [opcodeByteBody_starved hu]
    rfl
  | cons b rest =>
    cases hf : fragCheck (byte0Fin b) (b &&& 0x0F) r.continuationExpected with
    | some cause =>
      rw [opcodeByteBody_raised hu hf]
      trivial
    | none =>
      rw [opcodeByteBody_advance hu hf]
      trivial

theorem lengthByteBody_endUpdatesCe (r : Regs) (c : Call) :
    (lengthByteBody r c).EndUpdatesCe r.continuationExpected := by
  cases hu : c.unread with
  | nil =>
    rw [lengthByteBody_starved hu]
    rfl
  | cons b rest =>
    rw [lengthByteBody_advance hu]
    trivial

theorem extendedLengthBody_endUpdatesCe (r : Regs) (c : Call) :
    (extendedLengthBody r c).EndUpdatesCe r.continuationExpected := by
  have hw : r.extWidth.bytes ≤ 8 := by cases r.extWidth <;> decide
  unfold extendedLengthBody
  cases hacc : accumulate r.extWidth.bytes r c with
  | overrun => trivial
  | partly r' c' => exact accumulate_partly_ceFrom hw hacc
  | complete r' c' =>
    dsimp only
    split <;> trivial

theorem maskingKeyCheckBody_endUpdatesCe (r : Regs) (c : Call) :
    (maskingKeyCheckBody r c).EndUpdatesCe r.continuationExpected := by
  cases hm : r.cur.masked with
  | false =>
    rw [maskingKeyCheckBody_unmasked c hm]
    trivial
  | true =>
    rw [maskingKeyCheckBody_masked c hm]
    trivial

theorem maskingKeyBody_endUpdatesCe (r : Regs) (c : Call) :
    (maskingKeyBody r c).EndUpdatesCe r.continuationExpected := by
  unfold maskingKeyBody
  cases hacc : accumulate 4 r c with
  | overrun => trivial
  | partly r' c' => exact accumulate_partly_ceFrom (by decide) hacc
  | complete r' c' => trivial

/-- Only an empty frame is complete with its HEADER event (41_payload_states.md R170). -/
theorem payloadCheckBody_endUpdatesCe (r : Regs) {c : Call} (hf : c.frameComplete = false) :
    (payloadCheckBody r c).EndUpdatesCe r.continuationExpected := by
  by_cases hq : c.cbs = 0
  · by_cases hl : r.cur.payloadLength = 0
    · rw [payloadCheckBody_empty hq hl]
      exact completeRegs_ceFrom rfl
    · rw [payloadCheckBody_payload hq hl, HandlerOut.EndUpdatesCe, fire_frameComplete, hf]
      rfl
  · rw [payloadCheckBody_raised hq]
    trivial

/-- The chunk that leaves no byte of the payload completes the frame (41_payload_states.md R172). -/
theorem payloadBody_endUpdatesCe (r : Regs) {c : Call} (hf : c.frameComplete = false) :
    (payloadBody r c).EndUpdatesCe r.continuationExpected := by
  by_cases ha : c.avail = 0
  · rw [payloadBody_starved ha]
    rfl
  by_cases hq : c.cbs = 0
  · by_cases hz : r.payloadRemaining.toNat ≤ min c.avail r.payloadRemaining.toNat
    · rw [payloadBody_completes ha rfl hq hz]
      exact completeRegs_ceFrom rfl
    · rw [payloadBody_goesOn ha rfl hq (Nat.lt_of_not_le hz), HandlerOut.EndUpdatesCe, payloadCall,
        fire_frameComplete, Call.consume_frameComplete, hf]
      rfl
  · rw [payloadBody_raised ha rfl hq]
    trivial

/-- Every handler that ends a call updates `continuation_expected` as R171 says. -/
theorem handlerBody_endUpdatesCe (st : SubState) (r : Regs) {c : Call} (hf : c.frameComplete = false) :
    (handlerBody st r c).EndUpdatesCe r.continuationExpected := by
  cases st with
  | opcodeByte => exact opcodeByteBody_endUpdatesCe r c
  | lengthByte => exact lengthByteBody_endUpdatesCe r c
  | extendedLength => exact extendedLengthBody_endUpdatesCe r c
  | maskingKeyCheck => exact maskingKeyCheckBody_endUpdatesCe r c
  | maskingKey => exact maskingKeyBody_endUpdatesCe r c
  | payloadCheck => exact payloadCheckBody_endUpdatesCe r hf
  | payload => exact payloadBody_endUpdatesCe r hf
  | done => trivial

/-- The one result of a call that ended without an error is the one it returned. -/
theorem returned_results_inj {r : Regs} {res₁ res : CallResult} {s : State}
    (h : (returned r res₁ s).results = s.results ++ [res]) : res₁ = res := by
  simpa [returned] using h

/-- The end of a call on a Decoding instance, with the one result it reports. -/
theorem conclude_ceFrom {s t : State} {out : HandlerOut} {r' : Regs} {res : CallResult} {ce : Bool}
    (hout : out.EndUpdatesCe ce) (hne : ∀ r c, out ≠ .advance r c) (h : conclude s out = .next t)
    (ht : t.decoder = .decoding r') (hres : t.results = s.results ++ [res]) :
    r'.CeFrom ce res.frameComplete := by
  cases out with
  | advance r c => exact absurd rfl (hne r c)
  | starved r c =>
    cases h
    cases ht
    rw [← returned_results_inj hres]
    exact hout
  | fired r c =>
    cases h
    cases ht
    rw [← returned_results_inj hres]
    exact hout
  | raised e c =>
    cases h
    cases ht
  | stuck f => cases h

/-- The dispatcher's loop: the handlers before the last leave `continuation_expected` alone. -/
theorem dispatch_ceFrom {k : Nat} {s t : State} {r r' : Regs} {c : Call} {res : CallResult}
    (hf : c.frameComplete = false) (h : dispatch k s r c = .next t) (ht : t.decoder = .decoding r')
    (hres : t.results = s.results ++ [res]) : r'.CeFrom r.continuationExpected res.frameComplete := by
  induction k generalizing r c with
  | zero => cases h
  | succ k ih =>
    by_cases hadv : ∃ r₁ c₁, handlerBody r.state r c = .advance r₁ c₁
    · obtain ⟨r₁, c₁, hb⟩ := hadv
      obtain ⟨⟨n, rfl⟩, -, hce⟩ := handlerBody_advance_keeps hb
      rw [dispatch_advance k s hb] at h
      rw [← hce]
      exact ih (c := c.consume n) hf h
    · have hne : ∀ r₁ c₁, handlerBody r.state r c ≠ .advance r₁ c₁ := fun r₁ c₁ hb =>
        hadv ⟨r₁, c₁, hb⟩
      rw [dispatch_ends k s rfl hne] at h
      exact conclude_ceFrom (handlerBody_endUpdatesCe r.state r hf) hne h ht hres

/-- Settles O9: a call begins with no frame complete, and the loop carries `continuation_expected` to its end. -/
theorem continuationExpectedChangesOnCompletionOnly :
    Obligations.ContinuationExpectedChangesOnCompletionOnly := by
  intro s t r r' span cbs res hs h ht hres
  rw [exec_process_idle hs] at h
  exact dispatch_ceFrom (Call.start_frameComplete span cbs) h ht hres

end Sys2Proof.Machine
end

section
/-! What a handler can end in, said once (40_header_states.md R130): `Handled`, by the value of `state`. Later proofs
about transitions, bounds, events and errors go through it. -/

namespace Sys2Proof.Machine

/-! ### Bounds and transitions -/

/-- How many handlers a call runs at most from a sub-state on (42_process.md R212). -/
def SubState.rank : SubState → Nat
  | .opcodeByte => 6
  | .lengthByte => 5
  | .extendedLength => 4
  | .maskingKeyCheck => 3
  | .maskingKey => 2
  | .payloadCheck => 1
  | .payload => 1
  | .done => 7

/-- How many bytes a call takes at most: of a header one, one, up to eight and four, of a payload what remains of
it (42_process.md R212). -/
def Regs.budget (r : Regs) : Nat :=
  match r.state with
  | .opcodeByte => 14
  | .lengthByte => 13
  | .extendedLength => 12
  | .maskingKeyCheck => 4
  | .maskingKey => 4
  | .payloadCheck => 0
  | .payload => r.payloadRemaining.toNat
  | .done => 14

/-- The transitions after which a call goes on (42_process.md R203; the last one log 11). -/
def advanceEdges : List (SubState × SubState) :=
  [(.opcodeByte, .lengthByte), (.lengthByte, .maskingKeyCheck), (.lengthByte, .extendedLength),
   (.extendedLength, .maskingKeyCheck), (.maskingKeyCheck, .payloadCheck), (.maskingKeyCheck, .maskingKey),
   (.maskingKey, .payloadCheck), (.done, .opcodeByte)]

/-- The transitions with which a call ends without an error (42_process.md R203): a starved handler stays, and
`S_DONE` with its implicit reset is one step. -/
def endEdges : List (SubState × SubState) :=
  [(.opcodeByte, .opcodeByte), (.lengthByte, .lengthByte), (.extendedLength, .extendedLength),
   (.maskingKey, .maskingKey), (.payloadCheck, .payload), (.payloadCheck, .opcodeByte),
   (.payload, .payload), (.payload, .opcodeByte)]

/-- The sub-states that take a byte: where a call can starve (42_process.md R202). -/
def byteStates : List SubState := [.opcodeByte, .lengthByte, .extendedLength, .maskingKey, .payload]

/-! ### The ends of a handler -/

/-- How many bytes a handler or a call may take: at most what the span has and what the frame needs, and at least
one in a state that rests (42_process.md R211, R212). -/
structure Regs.Takes (r : Regs) (c : Call) (n : Nat) : Prop where
  le_avail : n ≤ c.avail
  le_budget : n ≤ r.budget
  pos : r.resting = true → c.avail ≠ 0 → 1 ≤ n

/-- The event that the handler `state` selects fires, and the payload bytes it takes for it
(41_payload_states.md R170, R172). -/
inductive Fires (r : Regs) (c : Call) : Event → Nat → Prop
  | header (hs : r.state = .payloadCheck) : Fires r c (.header r.cur r.userCtx) 0
  | payload (n : Nat) (hs : r.state = .payload) (ha : c.avail ≠ 0)
      (hn : n = min c.avail r.payloadRemaining.toNat) :
      Fires r c (.payload (deliver r (c.unread.take n)) r.userCtx) n

/-- Everything the handler that `state` selects can end in (40_header_states.md R130 to R137,
41_payload_states.md R170 to R175). -/
inductive Handled (r : Regs) (c : Call) : HandlerOut → Prop
  | advance (r' : Regs) (n : Nat) (takes : r.Takes c n) (edge : (r.state, r'.state) ∈ advanceEdges)
      (budget : n + r'.budget ≤ r.budget) (ctx : r'.userCtx = r.userCtx) :
      Handled r c (.advance r' (c.consume n))
  | starved (rests : r.state ∈ byteStates) (few : c.avail ≤ r.budget) :
      Handled r c (.starved (filled c.unread r) (c.consume c.avail))
  | refused (e : DecodeError) (n : Nat) (takes : r.Takes c n) (cause : ∀ q, e ≠ .eCallback q) :
      Handled r c (.raised e (c.consume n))
  | fails (ev : Event) (n : Nat) (fires : Fires r c ev n) (answer : c.cbs ≠ 0) :
      Handled r c (.raised (.eCallback c.cbs) (fire ev (c.consume n)))
  | completes (ev : Event) (n : Nat) (fires : Fires r c ev n) (answer : c.cbs = 0) (r' : Regs)
      (cur : r'.cur = r.cur) (ctx : r'.userCtx = r.userCtx) :
      Handled r c (.fired (completeRegs r') (completeCall (fire ev (c.consume n))))
  | goesOn (ev : Event) (n : Nat) (fires : Fires r c ev n) (answer : c.cbs = 0) (r' : Regs)
      (state : r'.state = .payload) (cur : r'.cur = r.cur) (ctx : r'.userCtx = r.userCtx) :
      Handled r c (.fired r' (fire ev (c.consume n)))
  | overrun : Handled r c (.stuck .accumulatorOverrun)

theorem Call.avail_eq_zero_iff {c : Call} : c.avail = 0 ↔ c.unread = [] := by
  rw [← c.unread_length, List.length_eq_zero_iff]

/-! ### Every handler -/

/-- With no byte left a handler that takes one leaves the registers and the call as they are. -/
theorem Handled.starvedEmpty {r : Regs} {c : Call} (rests : r.state ∈ byteStates) (hu : c.unread = []) :
    Handled r c (.starved r c) := by
  have ha : c.avail = 0 := Call.avail_eq_zero_iff.2 hu
  have h : Handled r c (.starved (filled c.unread r) (c.consume c.avail)) := .starved rests (by omega)
  rw [hu, ha, filled_nil] at h
  exact h

/-- One byte, in a state that may take it. -/
theorem Regs.Takes.one {r : Regs} {c : Call} {b : Byte} {rest : List Byte} (hu : c.unread = b :: rest)
    (hb : 1 ≤ r.budget) : r.Takes c 1 where
  le_avail := by rw [← c.unread_length, hu, List.length_cons]; omega
  le_budget := hb
  pos := fun _ _ => Nat.le_refl 1

/-- No byte, in a state that does not rest. -/
theorem Regs.Takes.zero {r : Regs} (c : Call) (h : r.resting = false) : r.Takes c 0 where
  le_avail := Nat.zero_le _
  le_budget := Nat.zero_le _
  pos := fun hr => by simp [h] at hr

theorem opcodeByteBody_handled {r : Regs} (c : Call) (hs : r.state = .opcodeByte) :
    Handled r c (opcodeByteBody r c) := by
  cases hu : c.unread with
  | nil =>
    rw [opcodeByteBody_starved hu]
    exact .starvedEmpty (by simp [hs, byteStates]) hu
  | cons b rest =>
    have htake : r.Takes c 1 := .one hu (by simp [hs, Regs.budget])
    cases hf : fragCheck (byte0Fin b) (b &&& 0x0F) r.continuationExpected with
    | some cause =>
      rw [opcodeByteBody_raised hu hf]
      exact .refused _ 1 htake (by simp)
    | none =>
      rw [opcodeByteBody_advance hu hf]
      exact .advance _ 1 htake (by simp [hs, advanceEdges]) (by simp [hs, Regs.budget]) rfl

theorem lengthByteBody_handled {r : Regs} (c : Call) (hs : r.state = .lengthByte) :
    Handled r c (lengthByteBody r c) := by
  cases hu : c.unread with
  | nil =>
    rw [lengthByteBody_starved hu]
    exact .starvedEmpty (by simp [hs, byteStates]) hu
  | cons b rest =>
    have htake : r.Takes c 1 := .one hu (by simp [hs, Regs.budget])
    rw [lengthByteBody_advance hu]
    by_cases hcode : byte1Code b ≤ 125
    · rw [setByte1_literal r hcode]
      exact .advance _ 1 htake (by simp [hs, advanceEdges]) (by simp [hs, Regs.budget]) rfl
    · rw [setByte1_extended r hcode]
      exact .advance _ 1 htake (by simp [hs, advanceEdges]) (by simp [hs, Regs.budget]) rfl

/-- The bytes that a field misses: all that are left, or as many as make it whole. -/
theorem take_missing_cases {got width : Nat} (ws : List Byte) (h : got ≤ width) :
    (ws.take (width - got) = ws ∧ got + ws.length < width) ∨
      got + (ws.take (width - got)).length = width := by
  by_cases hl : got + ws.length < width
  · exact .inl ⟨List.take_of_length_le (by omega), hl⟩
  · refine .inr ?_
    rw [List.length_take]
    omega

/-- All the bytes that a field of `width` bytes misses. -/
theorem Regs.Takes.missing {r : Regs} {c : Call} {width : Nat} (hb : width ≤ r.budget)
    (hrest : r.resting = true → r.scratchCount.toNat < width)
    (hl : r.scratchCount.toNat + (c.unread.take (width - r.scratchCount.toNat)).length = width) :
    r.Takes c (c.unread.take (width - r.scratchCount.toNat)).length where
  le_avail := by rw [← c.unread_length]; exact List.length_take_le' _ _
  le_budget := by omega
  pos := fun hr _ => by
    have hlt := hrest hr
    omega

theorem extendedLengthBody_handled {r : Regs} (c : Call) (hs : r.state = .extendedLength) :
    Handled r c (extendedLengthBody r c) := by
  have hlen := c.unread_length
  have hw : r.extWidth.bytes ≤ 8 := by cases r.extWidth <;> decide
  by_cases hle : r.scratchCount.toNat ≤ r.extWidth.bytes
  · rcases take_missing_cases c.unread hle with ⟨hall, hl⟩ | hl
    · rw [extendedLengthBody_starved hall.symm hl, hlen]
      exact .starved (by simp [hs, byteStates]) (by simp only [hs, Regs.budget]; omega)
    · have htake := Regs.Takes.missing (c := c) (r := r) (by simp only [hs, Regs.budget]; omega)
        (fun hrest => by simpa [Regs.resting, hs] using hrest) hl
      by_cases hv : r.extWidth = .eight ∧ (scratchValue r.extWidth.bytes
          (filled (c.unread.take (r.extWidth.bytes - r.scratchCount.toNat)) r)).getLsbD 63 = true
      · rw [extendedLengthBody_raised rfl hl hv.1 hv.2]
        exact .refused _ _ htake (by simp)
      · rw [extendedLengthBody_advance rfl hl hv]
        exact .advance _ _ htake (by simp [hs, advanceEdges])
          (by simp only [hs, Regs.budget]; omega) rfl
  · rw [extendedLengthBody_overrun c (by omega)]
    exact .overrun

theorem maskingKeyCheckBody_handled {r : Regs} (c : Call) (hs : r.state = .maskingKeyCheck) :
    Handled r c (maskingKeyCheckBody r c) := by
  have htake : r.Takes c 0 := .zero c (by simp [Regs.resting, hs])
  cases hm : r.cur.masked with
  | false =>
    rw [maskingKeyCheckBody_unmasked c hm]
    exact .advance _ 0 htake (by simp [hs, advanceEdges]) (by simp [hs, Regs.budget]) rfl
  | true =>
    rw [maskingKeyCheckBody_masked c hm]
    exact .advance _ 0 htake (by simp [hs, advanceEdges]) (by simp [hs, Regs.budget]) rfl

theorem maskingKeyBody_handled {r : Regs} (c : Call) (hs : r.state = .maskingKey) :
    Handled r c (maskingKeyBody r c) := by
  have hlen := c.unread_length
  by_cases hle : r.scratchCount.toNat ≤ 4
  · rcases take_missing_cases c.unread hle with ⟨hall, hl⟩ | hl
    · rw [maskingKeyBody_starved hall.symm hl, hlen]
      exact .starved (by simp [hs, byteStates]) (by simp only [hs, Regs.budget]; omega)
    · have htake := Regs.Takes.missing (c := c) (r := r) (width := 4)
        (by simp [hs, Regs.budget]) (fun hrest => by simpa [Regs.resting, hs] using hrest) hl
      rw [maskingKeyBody_advance rfl hl]
      exact .advance _ _ htake (by simp [hs, advanceEdges])
        (by simp only [hs, Regs.budget]; omega) rfl
  · rw [maskingKeyBody_overrun c (by omega)]
    exact .overrun

theorem payloadCheckBody_handled {r : Regs} (c : Call) (hs : r.state = .payloadCheck) :
    Handled r c (payloadCheckBody r c) := by
  by_cases hq : c.cbs = 0
  · by_cases hl : r.cur.payloadLength = 0
    · rw [payloadCheckBody_empty hq hl]
      exact .completes _ 0 (.header hs) hq r rfl rfl
    · rw [payloadCheckBody_payload hq hl]
      exact .goesOn _ 0 (.header hs) hq _ rfl rfl rfl
  · rw [payloadCheckBody_raised hq]
    exact .fails _ 0 (.header hs) hq

theorem payloadBody_handled {r : Regs} (c : Call) (hs : r.state = .payload) :
    Handled r c (payloadBody r c) := by
  by_cases ha : c.avail = 0
  · rw [payloadBody_starved ha]
    exact .starvedEmpty (by simp [hs, byteStates]) (Call.avail_eq_zero_iff.1 ha)
  have hfires := Fires.payload (r := r) (c := c) _ hs ha rfl
  by_cases hq : c.cbs = 0
  · by_cases hz : r.payloadRemaining.toNat ≤ min c.avail r.payloadRemaining.toNat
    · rw [payloadBody_completes ha rfl hq hz]
      exact .completes _ _ hfires hq _ rfl rfl
    · rw [payloadBody_goesOn ha rfl hq (Nat.lt_of_not_le hz)]
      exact .goesOn _ _ hfires hq _ hs rfl rfl
  · rw [payloadBody_raised ha rfl hq]
    exact .fails _ _ hfires hq

theorem doneBody_handled {r : Regs} (c : Call) (hs : r.state = .done) : Handled r c (doneBody r c) :=
  .advance (doneReset r) 0 (.zero c (by simp [Regs.resting, hs])) (by simp [hs, advanceEdges, doneReset])
    (by simp [hs, Regs.budget, doneReset]) rfl

/-- The inversion of a handler, by the value of `state`. -/
theorem handlerBody_handled (r : Regs) (c : Call) : Handled r c (handlerBody r.state r c) := by
  cases hs : r.state with
  | opcodeByte => exact opcodeByteBody_handled c hs
  | lengthByte => exact lengthByteBody_handled c hs
  | extendedLength => exact extendedLengthBody_handled c hs
  | maskingKeyCheck => exact maskingKeyCheckBody_handled c hs
  | maskingKey => exact maskingKeyBody_handled c hs
  | payloadCheck => exact payloadCheckBody_handled c hs
  | payload => exact payloadBody_handled c hs
  | done => exact doneBody_handled c hs

theorem handled_of_eq {r : Regs} {c : Call} {out : HandlerOut} (h : handlerBody r.state r c = out) :
    Handled r c out := h ▸ handlerBody_handled r c

end Sys2Proof.Machine
end

section
/-! How a call ends, as a function of the registers and the call (42_process.md R200, R201): `callEnd`. The dispatcher's
loop and PROCESS end as it says, since every advance goes forward (R203). -/

namespace Sys2Proof.Machine

theorem advanceEdges_rank : ∀ p ∈ advanceEdges, p.2.rank < p.1.rank := by decide

theorem rank_lt_of_advance {r r' : Regs} {c c' : Call} (h : handlerBody r.state r c = .advance r' c') :
    r'.state.rank < r.state.rank := by
  cases handled_of_eq h with
  | advance _ n takes edge budget ctx => exact advanceEdges_rank _ edge

/-- The end of a call: the decoder after it and the one result it reports (42_process.md R200). -/
structure CallEnd where
  decoder : Decoder
  result  : CallResult

/-- How the call `c` ends from the registers `r` on, by the handlers `state` selects one after another
(42_process.md R201). It ends because every advance goes forward (R203). -/
def callEnd (r : Regs) (c : Call) : Except Fault CallEnd :=
  match _h : handlerBody r.state r c with
  | .advance r' c' => callEnd r' c'
  | .starved r' c' => .ok ⟨.decoding r', starvedResult c'.consumed⟩
  | .fired r' c' => .ok ⟨.decoding r', ⟨c'.consumed, c'.event, c'.frameComplete, .ok⟩⟩
  | .raised e c' => .ok ⟨.failed, ⟨c'.consumed, c'.event, false, .err e⟩⟩
  | .stuck f => .error f
termination_by r.state.rank
decreasing_by exact rank_lt_of_advance ‹_›

theorem callEnd_advance {r r' : Regs} {c c' : Call} (h : handlerBody r.state r c = .advance r' c') :
    callEnd r c = callEnd r' c' := by
  rw [callEnd]
  split <;> simp_all

theorem callEnd_starved {r r' : Regs} {c c' : Call} (h : handlerBody r.state r c = .starved r' c') :
    callEnd r c = .ok ⟨.decoding r', starvedResult c'.consumed⟩ := by
  rw [callEnd]
  split <;> simp_all

theorem callEnd_fired {r r' : Regs} {c c' : Call} (h : handlerBody r.state r c = .fired r' c') :
    callEnd r c = .ok ⟨.decoding r', ⟨c'.consumed, c'.event, c'.frameComplete, .ok⟩⟩ := by
  rw [callEnd]
  split <;> simp_all

theorem callEnd_raised {r : Regs} {c c' : Call} {e : DecodeError}
    (h : handlerBody r.state r c = .raised e c') :
    callEnd r c = .ok ⟨.failed, ⟨c'.consumed, c'.event, false, .err e⟩⟩ := by
  rw [callEnd]
  split <;> simp_all

theorem callEnd_stuck {r : Regs} {c : Call} {f : Fault} (h : handlerBody r.state r c = .stuck f) :
    callEnd r c = .error f := by
  rw [callEnd]
  split <;> simp_all

/-- The machine after a call: the decoder and the result as given, everything else as it was. -/
def State.ended (e : CallEnd) (s : State) : State :=
  { s with decoder := e.decoder, call := none, results := s.results ++ [e.result] }

/-- What the machine does when a call ends, or a handler stops it. -/
def endOutcome (s : State) : Except Fault CallEnd → Host.Outcome State Fault Refusal
  | .ok e => .next (s.ended e)
  | .error f => .fault f

theorem SubState.rank_pos (st : SubState) : 1 ≤ st.rank := by cases st <;> decide

/-- As many handlers as the rank of `state` are enough for the dispatcher (42_process.md R212). -/
theorem dispatch_eq_endOutcome {k : Nat} (s : State) {r : Regs} (c : Call) (hk : r.state.rank ≤ k) :
    dispatch k s r c = endOutcome s (callEnd r c) := by
  induction k generalizing r c with
  | zero =>
    have hpos := r.state.rank_pos
    omega
  | succ k ih =>
    cases hb : handlerBody r.state r c with
    | advance r' c' =>
      have hlt := rank_lt_of_advance hb
      rw [dispatch_advance k s hb, callEnd_advance hb]
      exact ih c' (by omega)
    | starved r' c' =>
      rw [dispatch_ends k s hb (by simp), callEnd_starved hb]
      rfl
    | fired r' c' =>
      rw [dispatch_ends k s hb (by simp), callEnd_fired hb]
      rfl
    | raised e c' =>
      rw [dispatch_ends k s hb (by simp), callEnd_raised hb]
      rfl
    | stuck f =>
      rw [dispatch_ends k s hb (by simp), callEnd_stuck hb]
      rfl

theorem SubState.rank_le_maxHandlers (st : SubState) : st.rank ≤ Config.maxHandlers := by
  cases st <;> decide

/-- PROCESS between two calls. -/
theorem exec_process_eq_endOutcome {s : State} {r : Regs} (hs : s.Idle r) (span : List Byte) (cbs : CbStatus) :
    exec (.process span cbs) s = endOutcome s (callEnd r (Call.start span cbs)) := by
  rw [exec_process_idle hs, dispatch_eq_endOutcome s _ r.state.rank_le_maxHandlers]

/-- The end of a call, from the next state and the one result it reports. -/
theorem callEnd_of_exec {s t : State} {r : Regs} {span : List Byte} {cbs : CbStatus} {res : CallResult}
    (hs : s.Idle r) (h : exec (.process span cbs) s = .next t) (hres : t.results = s.results ++ [res]) :
    callEnd r (Call.start span cbs) = .ok ⟨t.decoder, res⟩ := by
  rw [exec_process_eq_endOutcome hs] at h
  cases he : callEnd r (Call.start span cbs) with
  | error f => simp [he, endOutcome] at h
  | ok e =>
    rw [he] at h
    cases h
    obtain rfl : e.result = res := by simpa [State.ended] using hres
    rfl

end Sys2Proof.Machine
end

section
/-! The transitions between sub-states (42_process.md R203). -/

namespace Sys2Proof.Machine

/-- A starved handler stays in a sub-state that takes bytes. -/
theorem byteStates_diag_mem : ∀ st ∈ byteStates, (st, st) ∈ endEdges := by decide

/-- A handler that has fired without an error leads to the payload or to the frame boundary. -/
theorem Fires.state {r : Regs} {c : Call} {ev : Event} {n : Nat} (h : Fires r c ev n) :
    (r.state, SubState.payload) ∈ endEdges ∧ (r.state, SubState.opcodeByte) ∈ endEdges := by
  cases h with
  | header hs | payload n hs ha hn =>
    rw [hs]
    decide

/-- Settles O20, by what the handler that `state` selects ends in. -/
theorem transitionsAreForwardOnly : Obligations.TransitionsAreForwardOnly := by
  intro s t r c hs h
  have hb := handlerBody_handled r c
  rw [exec_handlerInstr, runHandler_inCall hs] at h
  generalize handlerBody r.state r c = out at h hb
  cases hb with
  | advance r₁ n takes edge budget ctx =>
    cases h
    refine ⟨fun r' c' ht => ?_, fun r' ht => (nomatch ht.2)⟩
    cases ht.1
    exact edge
  | starved rests few =>
    cases h
    refine ⟨fun r' c' ht => (nomatch ht.2), fun r' ht => ?_⟩
    cases ht.1
    exact byteStates_diag_mem _ rests
  | completes ev n fires answer r₁ cur ctx =>
    cases h
    refine ⟨fun r' c' ht => (nomatch ht.2), fun r' ht => ?_⟩
    cases ht.1
    exact fires.state.2
  | goesOn ev n fires answer r₁ state cur ctx =>
    cases h
    refine ⟨fun r' c' ht => (nomatch ht.2), fun r' ht => ?_⟩
    cases ht.1
    rw [state]
    exact fires.state.1
  | refused e n takes cause | fails ev n fires answer =>
    cases h
    exact ⟨fun r' c' ht => (nomatch ht.2), fun r' ht => (nomatch ht.1)⟩
  | overrun => cases h

end Sys2Proof.Machine
end

section
/-! A call by its last handler and what led to it (42_process.md R201, R202): `callEnd_last`. From it follow what the
call consumes and what it reports. -/

namespace Sys2Proof.Machine

/-! ### The last handler -/

/-- A handler's end that ends the call, and the end of the call (42_process.md R201). -/
inductive HandlerOut.Ends : HandlerOut → CallEnd → Prop
  | starved (r : Regs) (c : Call) :
      Ends (.starved r c) ⟨.decoding r, starvedResult c.consumed⟩
  | fired (r : Regs) (c : Call) :
      Ends (.fired r c) ⟨.decoding r, ⟨c.consumed, c.event, c.frameComplete, .ok⟩⟩
  | raised (e : DecodeError) (c : Call) :
      Ends (.raised e c) ⟨.failed, ⟨c.consumed, c.event, false, .err e⟩⟩

/-- The handlers before the last one of a call have led from `r` to `r₁` and taken `n` bytes: none has run, or
those that have took a byte if `r` rests, and `S_PAYLOAD` is not the next. -/
structure Leads (r : Regs) (c : Call) (r₁ : Regs) (n : Nat) : Prop where
  le_avail : n ≤ c.avail
  budget : n + r₁.budget ≤ r.budget
  ctx : r₁.userCtx = r.userCtx
  start : r₁ = r ∧ n = 0 ∨
    r₁.state ≠ .payload ∧ (r.resting = true → c.avail ≠ 0 → 1 ≤ n)

theorem Leads.refl (r : Regs) (c : Call) : Leads r c r 0 :=
  ⟨Nat.zero_le _, by omega, rfl, .inl ⟨rfl, rfl⟩⟩

theorem Call.avail_consume (n : Nat) (c : Call) : (c.consume n).avail = c.avail - n := by
  simp only [Call.avail, Call.consume_span, Call.consume_consumed, Nat.sub_add_eq]

theorem advanceEdges_ne_payload : ∀ p ∈ advanceEdges, p.2 ≠ .payload := by decide

/-- One more handler at the front. -/
theorem Leads.cons {r r' r₁ : Regs} {c : Call} {m n : Nat} (takes : r.Takes c m)
    (edge : (r.state, r'.state) ∈ advanceEdges) (budget : m + r'.budget ≤ r.budget)
    (ctx : r'.userCtx = r.userCtx) (h : Leads r' (c.consume m) r₁ n) : Leads r c r₁ (m + n) where
  le_avail := by
    have hm := takes.le_avail
    have hn := h.le_avail
    rw [Call.avail_consume] at hn
    omega
  budget := by
    have hn := h.budget
    omega
  ctx := h.ctx.trans ctx
  start := by
    have hpos := takes.pos
    refine .inr ⟨?_, fun hr ha => Nat.le_add_right_of_le (hpos hr ha)⟩
    rcases h.start with ⟨rfl, -⟩ | ⟨hne, -⟩
    · exact advanceEdges_ne_payload _ edge
    · exact hne

/-- Inversion of a call that no handler stops: its last handler, and what led to it. -/
theorem callEnd_last {r : Regs} {c : Call} {e : CallEnd} (h : callEnd r c = .ok e) :
    ∃ r₁ n out, Leads r c r₁ n ∧ Handled r₁ (c.consume n) out ∧ out.Ends e := by
  fun_induction callEnd r c with
  | case1 r c r' c' hb ih =>
    obtain ⟨r₁, n, out, hlead, hlast⟩ := ih h
    cases handled_of_eq hb with
    | advance _ m takes edge budget ctx =>
      rw [Call.consume_consume] at hlast
      exact ⟨r₁, m + n, out, hlead.cons takes edge budget ctx, hlast⟩
  | case2 r c r' c' hb =>
    cases h
    exact ⟨r, 0, _, .refl r c, handled_of_eq hb, .starved _ _⟩
  | case3 r c r' c' hb =>
    cases h
    exact ⟨r, 0, _, .refl r c, handled_of_eq hb, .fired _ _⟩
  | case4 r c e c' hb =>
    cases h
    exact ⟨r, 0, _, .refl r c, handled_of_eq hb, .raised _ _⟩
  | case5 r c f hb => cases h

/-! ### What a call consumes (42_process.md R211, R212, R216) -/

/-- What a handler that fires takes is within what it may take. -/
theorem Fires.takes {r : Regs} {c : Call} {ev : Event} {n : Nat} (h : Fires r c ev n) : r.Takes c n := by
  cases h with
  | header hs => exact .zero c (by simp [Regs.resting, hs])
  | payload n hs ha hn =>
    refine ⟨by omega, by simp only [Regs.budget, hs]; omega, fun hrest _ => ?_⟩
    have hpos : 1 ≤ r.payloadRemaining.toNat := by simpa [Regs.resting, hs] using hrest
    omega

/-- What the last handler of a call takes. -/
theorem Handled.takes {r : Regs} {c : Call} {out : HandlerOut} {e : CallEnd} (h : Handled r c out)
    (he : out.Ends e) : ∃ n, e.result.consumed = c.consumed + n ∧ r.Takes c n := by
  cases he with
  | starved r' c' =>
    cases h with
    | starved rests few => exact ⟨c.avail, rfl, Nat.le_refl _, few, fun _ ha => Nat.one_le_iff_ne_zero.2 ha⟩
  | fired r' c' =>
    cases h with
    | completes ev n fires answer r₁ cur ctx => exact ⟨n, rfl, fires.takes⟩
    | goesOn ev n fires answer r₁ state cur ctx => exact ⟨n, rfl, fires.takes⟩
  | raised e c' =>
    cases h with
    | refused e n takes cause => exact ⟨n, rfl, takes⟩
    | fails ev n fires answer => exact ⟨n, rfl, fires.takes⟩

/-- What a call takes. -/
theorem callEnd_takes {r : Regs} {c : Call} {e : CallEnd} (h : callEnd r c = .ok e) :
    ∃ n, e.result.consumed = c.consumed + n ∧ r.Takes c n := by
  obtain ⟨r₁, m, out, hlead, hh, he⟩ := callEnd_last h
  obtain ⟨n, hn, htakes⟩ := hh.takes he
  have hm := hlead.le_avail
  have hmbudget := hlead.budget
  have havail := htakes.le_avail
  have hbudget := htakes.le_budget
  have hpos := htakes.pos
  rw [Call.avail_consume] at havail hpos
  refine ⟨m + n, by rw [hn, Call.consume_consumed, Nat.add_assoc], by omega, by omega, fun hr ha => ?_⟩
  rcases hlead.start with ⟨rfl, rfl⟩ | ⟨-, hfirst⟩
  · have hlast := hpos hr ha
    omega
  · have hone := hfirst hr ha
    omega

/-! ### What a call reports (42_process.md R202 to R208) -/

/-- A handler that fires has an event. -/
theorem Fires.event_ne_none {r : Regs} {c : Call} {ev : Event} {n : Nat} (h : Fires r c ev n) :
    ev ≠ .none := by
  cases h <;> simp

/-- A call without an event and without an error has used up its span (42_process.md R202). -/
theorem callEnd_no_event {r : Regs} {c : Call} {e : CallEnd} (h : callEnd r c = .ok e)
    (hok : e.result.status = .ok) (hev : e.result.event = .none) : c.span.length ≤ e.result.consumed := by
  obtain ⟨r₁, m, out, -, hh, he⟩ := callEnd_last h
  cases he with
  | starved r' c' =>
    cases hh with
    | starved rests few =>
      simp only [starvedResult, Call.consume_consumed, Call.avail, Call.consume_span]
      omega
  | fired r' c' =>
    cases hh with
    | completes ev n fires answer r₁ cur ctx => exact absurd hev fires.event_ne_none
    | goesOn ev n fires answer r₁ state cur ctx => exact absurd hev fires.event_ne_none
  | raised e c' => cases hok

/-- A call completes a frame with an event and without an error, and then it rests at the frame boundary
(42_process.md R204, R205). -/
theorem callEnd_frameComplete {r : Regs} {c : Call} {e : CallEnd} (h : callEnd r c = .ok e)
    (hc : c.frameComplete = false) (hfc : e.result.frameComplete = true) :
    e.result.event ≠ .none ∧ e.result.status = .ok ∧
      ∃ r', e.decoder = .decoding r' ∧ r'.state = .opcodeByte := by
  obtain ⟨r₁, m, out, -, hh, he⟩ := callEnd_last h
  cases he with
  | starved r' c' => cases hfc
  | fired r' c' =>
    cases hh with
    | completes ev n fires answer r₁ cur ctx => exact ⟨fires.event_ne_none, rfl, _, rfl, rfl⟩
    | goesOn ev n fires answer r₁ state cur ctx => exact absurd hfc (by simp [hc])
  | raised e c' => cases hfc

@[simp] theorem completeRegs_cur (r : Regs) : (completeRegs r).cur = r.cur := by rw [completeRegs_eq]
@[simp] theorem completeRegs_userCtx (r : Regs) : (completeRegs r).userCtx = r.userCtx := by
  rw [completeRegs_eq]

/-- Where the event of a call comes from: its last handler, which leaves `cur` alone. -/
theorem callEnd_fires {r : Regs} {c : Call} {e : CallEnd} (h : callEnd r c = .ok e) (hc : c.event = .none)
    (hev : e.result.event ≠ .none) :
    ∃ r₁ m n, Leads r c r₁ m ∧ Fires r₁ (c.consume m) e.result.event n ∧
      e.result.consumed = c.consumed + m + n ∧ ∀ r', e.decoder = .decoding r' → r'.cur = r₁.cur := by
  obtain ⟨r₁, m, out, hlead, hh, he⟩ := callEnd_last h
  cases he with
  | starved r' c' => exact absurd rfl hev
  | fired r' c' =>
    cases hh with
    | completes ev n fires answer r₂ cur ctx =>
      refine ⟨r₁, m, n, hlead, fires, rfl, fun r' hr => ?_⟩
      cases hr
      rw [completeRegs_cur, cur]
    | goesOn ev n fires answer r₂ state cur ctx =>
      refine ⟨r₁, m, n, hlead, fires, rfl, fun r' hr => ?_⟩
      cases hr
      exact cur
  | raised e c' =>
    cases hh with
    | refused e n takes cause => exact absurd hc hev
    | fails ev n fires answer => exact ⟨r₁, m, n, hlead, fires, rfl, fun r' hr => (nomatch hr)⟩

/-- A HEADER event carries the context, and the header that the registers keep (42_process.md R206). -/
theorem callEnd_header {r : Regs} {c : Call} {e : CallEnd} {hd : Header} {ctx : Ctx} (h : callEnd r c = .ok e)
    (hc : c.event = .none) (hev : e.result.event = .header hd ctx) :
    ctx = r.userCtx ∧ ∀ r', e.decoder = .decoding r' → hd = r'.cur := by
  obtain ⟨r₁, m, n, hlead, hfires, -, hcur⟩ := callEnd_fires h hc (by simp [hev])
  rw [hev] at hfires
  cases hfires with
  | header hs => exact ⟨hlead.ctx, fun r' hr => (hcur r' hr).symm⟩

@[simp] theorem deliver_length (r : Regs) (ws : List Byte) : (deliver r ws).length = ws.length := by
  unfold deliver
  split <;> simp

/-- A PAYLOAD event is fired by `S_PAYLOAD` alone, with the context and as many bytes as the call takes
(42_process.md R207). -/
theorem callEnd_payload {r : Regs} {c : Call} {e : CallEnd} {bytes : List Byte} {ctx : Ctx}
    (h : callEnd r c = .ok e) (hc : c.event = .none) (hev : e.result.event = .payload bytes ctx) :
    r.state = .payload ∧ ctx = r.userCtx ∧ c.avail ≠ 0 ∧ e.result.consumed = c.consumed + bytes.length := by
  obtain ⟨r₁, m, n, hlead, hfires, hcons, -⟩ := callEnd_fires h hc (by simp [hev])
  rw [hev] at hfires
  cases hfires with
  | payload n hs ha hn =>
    rcases hlead.start with ⟨rfl, rfl⟩ | ⟨hne, -⟩
    · refine ⟨hs, rfl, ha, ?_⟩
      rw [hcons, deliver_length, List.length_take_of_le (by rw [Call.unread_length]; omega), Nat.add_zero]
    · exact absurd hs hne

/-- `E_CALLBACK` is what follows an event that is answered with a failure, and nothing else (42_process.md
R208). -/
theorem callEnd_callback {r : Regs} {c : Call} {e : CallEnd} (h : callEnd r c = .ok e) (hc : c.event = .none) :
    (c.cbs ≠ 0 → e.result.event ≠ .none →
      e.result.status = .err (.eCallback c.cbs) ∧ e.decoder = .failed) ∧
    (c.cbs = 0 → ∀ q, e.result.status ≠ .err (.eCallback q)) := by
  obtain ⟨r₁, m, out, -, hh, he⟩ := callEnd_last h
  cases he with
  | starved r' c' => exact ⟨fun _ hev => absurd rfl hev, fun _ q => by simp [starvedResult]⟩
  | fired r' c' =>
    cases hh with
    | completes ev n fires answer r₂ cur ctx => exact ⟨fun hne => absurd answer hne, fun _ q => by simp⟩
    | goesOn ev n fires answer r₂ state cur ctx => exact ⟨fun hne => absurd answer hne, fun _ q => by simp⟩
  | raised e c' =>
    cases hh with
    | refused e n takes cause =>
      exact ⟨fun _ hev => absurd hc hev, fun _ q hst => cause q (by simpa using hst)⟩
    | fails ev n fires answer => exact ⟨fun _ _ => ⟨rfl, rfl⟩, fun hz => absurd hz answer⟩

/-- A call keeps the context (10_state.md R41). -/
theorem callEnd_userCtx {r r' : Regs} {c : Call} {e : CallEnd} (h : callEnd r c = .ok e)
    (hr : e.decoder = .decoding r') : r'.userCtx = r.userCtx := by
  obtain ⟨r₁, m, out, hlead, hh, he⟩ := callEnd_last h
  rw [← hlead.ctx]
  cases he with
  | starved r₂ c' =>
    cases hr
    cases hh with
    | starved rests few => rfl
  | fired r₂ c' =>
    cases hr
    cases hh with
    | completes ev n fires answer r₃ cur ctx => rw [completeRegs_userCtx, ctx]
    | goesOn ev n fires answer r₂ state cur ctx => exact ctx
  | raised e c' => cases hr

end Sys2Proof.Machine
end

section
/-! PROCESS from registers that meet the invariant completes, makes progress and is bounded (42_process.md R204 to
R216). -/

namespace Sys2Proof.Machine

/-! ### The end of a call from registers that meet the invariant -/

/-- No handler stops a call from registers that meet the invariant; they meet it after the call, and the result is
one a call may report. -/
theorem callEnd_sound {r : Regs} {c : Call} (hr : r.MidInv) (hc : c.event = .none) :
    ∃ e, callEnd r c = .ok e ∧ e.result.good = true ∧ ∀ r', e.decoder = .decoding r' → r'.Inv := by
  have hsound := handlerBody_sound hr hc
  fun_induction callEnd r c with
  | case1 r c r' c' hb ih =>
    rw [hb] at hsound
    exact ih hsound.1 hsound.2 (handlerBody_sound hsound.1 hsound.2)
  | case2 r c r' c' hb =>
    rw [hb] at hsound
    refine ⟨_, rfl, rfl, fun r₁ h₁ => ?_⟩
    cases h₁
    exact hsound
  | case3 r c r' c' hb =>
    rw [hb] at hsound
    obtain ⟨hinv, hgood, hev⟩ := hsound
    refine ⟨_, rfl, by simp [CallResult.good, hgood, hev], fun r₁ h₁ => ?_⟩
    cases h₁
    exact hinv
  | case4 r c e c' hb =>
    rw [hb] at hsound
    exact ⟨_, rfl, hsound, fun r₁ h₁ => (nomatch h₁)⟩
  | case5 r c f hb =>
    rw [hb] at hsound
    exact hsound.elim

/-- The decoder is Failed after an error and after nothing else (60_exceptions.md R278). -/
theorem callEnd_failed_iff {r : Regs} {c : Call} {e : CallEnd} (h : callEnd r c = .ok e) :
    e.decoder = .failed ↔ e.result.status ≠ .ok := by
  obtain ⟨r₁, n, out, -, -, he⟩ := callEnd_last h
  cases he <;> simp [starvedResult]

/-- With no byte left the handler of a state that rests changes nothing (42_process.md R202, R211). -/
theorem handlerBody_no_byte {r : Regs} {c : Call} (hr : r.resting = true) (hu : c.unread = []) :
    handlerBody r.state r c = .starved r c := by
  have htake : ∀ n, ([] : List Byte) = c.unread.take n := fun n => by rw [hu, List.take_nil]
  unfold Regs.resting at hr
  cases hs : r.state with
  | opcodeByte => exact opcodeByteBody_starved hu
  | lengthByte => exact lengthByteBody_starved hu
  | extendedLength =>
    have hbody := extendedLengthBody_starved (r := r) (htake _) (by simpa [hs] using hr)
    rw [filled_nil] at hbody
    exact hbody
  | maskingKeyCheck | payloadCheck | done => simp [hs] at hr
  | maskingKey =>
    have hbody := maskingKeyBody_starved (r := r) (htake _) (by simpa [hs] using hr)
    rw [filled_nil] at hbody
    exact hbody
  | payload => exact payloadBody_starved (Call.avail_eq_zero_iff.2 hu)

/-- With no byte left a call from a state that rests changes nothing (42_process.md R211). -/
theorem callEnd_no_byte {r : Regs} {c : Call} (hr : r.resting = true) (hu : c.unread = []) :
    callEnd r c = .ok ⟨.decoding r, starvedResult c.consumed⟩ :=
  callEnd_starved (handlerBody_no_byte hr hu)

/-! ### PROCESS -/

/-- PROCESS from registers that meet the invariant answers a next state: the end of the call. -/
theorem exec_process_next {s : State} {r : Regs} (span : List Byte) (cbs : CbStatus) (hs : s.Idle r)
    (hr : r.Inv) : ∃ e, callEnd r (Call.start span cbs) = .ok e ∧ e.result.good = true ∧
      (∀ r', e.decoder = .decoding r' → r'.Inv) ∧ exec (.process span cbs) s = .next (s.ended e) := by
  obtain ⟨e, he, hgood, hinv⟩ := callEnd_sound (c := Call.start span cbs) hr.midInv rfl
  exact ⟨e, he, hgood, hinv, by rw [exec_process_eq_endOutcome hs, he]; rfl⟩

/-- Settles O23: the end of the call is a next state, whose parts are those of the end. -/
theorem processCompletesBetweenCalls : Obligations.ProcessCompletesBetweenCalls := by
  intro s r span cbs hs hr
  obtain ⟨e, he, hgood, -, ht⟩ := exec_process_next span cbs hs hr
  exact ⟨_, e.result, ht, rfl, rfl, hgood, rfl, rfl, rfl, callEnd_failed_iff he, fun r' => callEnd_userCtx he⟩

/-- Settles O24: a call takes at least one of the bytes there are, and with none it changes nothing. -/
theorem processMakesProgress : Obligations.ProcessMakesProgress := by
  intro s r span cbs hs hr
  obtain ⟨e, he, -, -, ht⟩ := exec_process_next span cbs hs hr
  refine ⟨fun hne => ⟨_, e.result, ht, rfl, ?_⟩, ?_⟩
  · obtain ⟨n, hn, htakes⟩ := callEnd_takes he
    have hpos := htakes.pos hr.resting (by simpa using hne)
    omega
  · rintro rfl
    rw [callEnd_no_byte hr.resting rfl] at he
    cases he
    rw [ht, State.ended, ← hs.1, ← hs.2]
    rfl

/-- Outside `S_DONE` six handlers are enough (42_process.md R212). -/
theorem SubState.rank_le_six {st : SubState} (h : st ≠ .done) : st.rank ≤ 6 := by
  revert h
  cases st <;> decide

/-- The loop bound is never met. -/
theorem callEnd_ne_loopLimit (r : Regs) (c : Call) : callEnd r c ≠ .error .loopLimit := by
  fun_induction callEnd r c with
  | case1 r c r' c' hb ih => exact ih
  | case2 r c r' c' hb | case3 r c r' c' hb | case4 r c e c' hb => simp
  | case5 r c f hb =>
    cases handled_of_eq hb
    simp

theorem Regs.budget_le {r : Regs} (h : r.state ≠ .payload) : r.budget ≤ 14 := by
  unfold Regs.budget
  split <;> simp_all

/-- Settles O25: the rank of `state` bounds the handlers, what a call takes bounds the bytes. -/
theorem processIsBounded : Obligations.ProcessIsBounded := by
  intro s r span cbs hs hne
  refine ⟨?_, fun h => ?_, fun t res h hres => ?_⟩
  · rw [dispatch_eq_endOutcome s _ (SubState.rank_le_six hne), exec_process_eq_endOutcome hs]
  · rw [exec_process_eq_endOutcome hs] at h
    cases he : callEnd r (Call.start span cbs) with
    | ok e => simp [he, endOutcome] at h
    | error f =>
      rw [he] at h
      cases h
      exact callEnd_ne_loopLimit _ _ he
  · obtain ⟨n, hn, htakes⟩ := callEnd_takes (callEnd_of_exec hs h hres)
    have havail := htakes.le_avail
    have hbudget := htakes.le_budget
    rw [Call.start_avail] at havail
    rw [Call.start_consumed, Nat.zero_add] at hn
    simp only at hn
    subst hn
    refine ⟨havail, fun hs => hbudget.trans (Regs.budget_le hs), fun hs => ?_⟩
    simp only [Regs.budget, hs] at hbudget
    exact Nat.le_min.2 ⟨havail, hbudget⟩

/-- Settles O26: without an event a call without an error has used up its span. -/
theorem leftoverOnlyAfterAnEvent : Obligations.LeftoverOnlyAfterAnEvent := by
  intro s t r span cbs res hs _ h hres hok hlt hev
  have hall := callEnd_no_event (callEnd_of_exec hs h hres) hok hev
  exact absurd hlt (Nat.not_lt.2 hall)

/-- Settles O27: a call begins with no frame complete. -/
theorem frameCompleteAtTheBoundary : Obligations.FrameCompleteAtTheBoundary := by
  intro s t r span cbs res hs h hres hfc
  exact callEnd_frameComplete (callEnd_of_exec hs h hres) rfl hfc

/-- Settles O28, by the kind of the event. -/
theorem eventsCarryHeaderAndContext : Obligations.EventsCarryHeaderAndContext := by
  intro s t r r' span cbs res hs hr h hres
  have he := callEnd_of_exec hs h hres
  refine ⟨fun hd ctx hev => ?_, fun bytes ctx hev => ?_⟩
  · obtain ⟨hctx, hcur⟩ := callEnd_header he rfl hev
    exact ⟨hctx, hcur r'⟩
  · obtain ⟨hs, hctx, ha, hcons⟩ := callEnd_payload he rfl hev
    obtain ⟨n, hn, htakes⟩ := callEnd_takes he
    have hpos := htakes.pos hr.resting ha
    have hbudget := htakes.le_budget
    rw [Call.start_consumed, Nat.zero_add] at hcons hn
    simp only [Regs.budget, hs] at hbudget hcons hn
    exact ⟨hctx, by omega, hcons.symm, by omega⟩

end Sys2Proof.Machine
end

section
/-! Where PROCESS and RESET have no step, what RESET does, and where a step stops (42_process.md R209, R210). -/

namespace Sys2Proof.Machine

/-- Settles O22: PROCESS reads the call in progress first, then the mode; RESET reads the call. -/
theorem processIsRefusedAfterFailure : Obligations.ProcessIsRefusedAfterFailure := by
  intro s span cbs ctx
  refine ⟨fun hd hc => ?_, fun c hc => ⟨?_, ?_⟩⟩
  · change processCall span cbs s = _
    simp only [processCall, hc, hd]
  · change processCall span cbs s = _
    simp only [processCall, hc]
  · change execReset ctx s = _
    simp only [execReset, hc]

/-- Between two calls RESET replaces the decoder and nothing else (42_process.md R209). -/
theorem exec_reset_idle {s : State} (ctx : Ctx) (hc : s.call = none) :
    exec (.reset ctx) s = .next (resetDecoder ctx s) := by
  change execReset ctx s = _
  simp only [execReset, hc]

/-- Settles O31: the registers after RESET, written out. -/
theorem resetGivesTheResetRegisters : Obligations.ResetGivesTheResetRegisters := fun _ ctx hc =>
  exec_reset_idle ctx hc

/-- Settles O39, by the oldest command; a PROCESS completes in mode Decoding. -/
theorem stepStopsOnlyAfterFailure : Obligations.StepStopsOnlyAfterFailure := by
  intro s hs
  cases hcmd : s.commands with
  | nil => exact .inl ⟨s, step_of_no_command hs.idle hcmd⟩
  | cons cmd rest =>
    cases cmd with
    | reset ctx =>
      rw [step_of_reset hs.idle hcmd, exec_reset_idle (s := s.setCommands rest) ctx hs.idle]
      exact .inl ⟨_, rfl⟩
    | process span =>
      cases hd : s.decoder with
      | decoding r =>
        have hidle : (s.setCommands rest).Idle r := ⟨hd, hs.idle⟩
        obtain ⟨e, -, -, -, ht⟩ := exec_process_next span (nextAnswer s) hidle (hs.regs r hd)
        exact .inl ⟨_, step_of_process_next hs.idle hcmd ht⟩
      | failed =>
        have hrefused := (processIsRefusedAfterFailure (s.setCommands rest) span (nextAnswer s) 0).1 hd hs.idle
        exact .inr ⟨step_of_process_refused hs.idle hcmd hrefused, rfl, span, rest, rfl⟩

end Sys2Proof.Machine
end

section
/-! The rows of the table that `state` selects, run one after another, are PROCESS (42_process.md R201). -/

namespace Sys2Proof.Machine

theorem runHandlers_ended (k : Nat) (s : State) (e : CallEnd) :
    runHandlers (k + 1) (s.ended e) = .next (s.ended e) := by
  obtain ⟨d, res⟩ := e
  cases d <;> rfl

/-- Inside a call the rows go on from where the dispatcher's reaction to the first of them leads. -/
theorem runHandlers_running_next {k : Nat} {s t : State} {r : Regs} {c : Call}
    (h : conclude (running r c s) (handlerBody r.state r c) = .next t) :
    runHandlers (k + 1) (running r c s) = runHandlers k t := by
  have hs : (running r c s).InCall r c := ⟨rfl, rfl⟩
  have hrow : exec (handlerInstr r.state) (running r c s) = .next t := by
    rw [exec_handlerInstr, runHandler_inCall hs, h]
  rw [runHandlers, hs.1, hs.2]
  simp only [hrow]

theorem runHandlers_running_fault {k : Nat} {s : State} {r : Regs} {c : Call} {f : Fault}
    (h : handlerBody r.state r c = .stuck f) : runHandlers (k + 1) (running r c s) = .fault f := by
  have hs : (running r c s).InCall r c := ⟨rfl, rfl⟩
  have hrow := exec_handlerInstr_of_body hs h
  rw [runHandlers, hs.1, hs.2]
  simp only [hrow, conclude_stuck]

/-- The rows that `state` selects, run one after another inside a call, end as the call does. One row more than the
rank of `state` allows sees that the call has ended. -/
theorem runHandlers_eq_endOutcome {k : Nat} (s : State) {r : Regs} (c : Call) (hk : r.state.rank ≤ k) :
    runHandlers (k + 1) (running r c s) = endOutcome s (callEnd r c) := by
  induction k generalizing r c with
  | zero =>
    have hpos := r.state.rank_pos
    omega
  | succ k ih =>
    cases hb : handlerBody r.state r c with
    | advance r' c' =>
      have hlt := rank_lt_of_advance hb
      rw [runHandlers_running_next (t := running r' c' s) (by rw [hb]; rfl), callEnd_advance hb]
      exact ih c' (by omega)
    | starved r' c' =>
      rw [callEnd_starved hb]
      exact (runHandlers_running_next (by rw [hb]; rfl)).trans (runHandlers_ended k s _)
    | fired r' c' =>
      rw [callEnd_fired hb]
      exact (runHandlers_running_next (by rw [hb]; rfl)).trans (runHandlers_ended k s _)
    | raised e c' =>
      rw [callEnd_raised hb]
      exact (runHandlers_running_next (by rw [hb]; rfl)).trans (runHandlers_ended k s _)
    | stuck f =>
      rw [callEnd_stuck hb]
      exact runHandlers_running_fault hb

/-- Settles O21: the rows and the dispatcher's loop end as the call does. -/
theorem processRunsTheSelectedHandlers : Obligations.ProcessRunsTheSelectedHandlers := by
  intro s r span cbs hs
  rw [exec_process_eq_endOutcome hs]
  exact (runHandlers_eq_endOutcome s _ r.state.rank_le_maxHandlers).symm

end Sys2Proof.Machine
end

section
/-! Two calls that differ in what a call cannot tell apart: the part of the span that is read already, and which
failure the host answers (42_process.md R208). They end alike. -/

namespace Sys2Proof.Machine

/-- The call `c'` has `d` bytes more behind it than `c`; what is still unread is the same, and so is whether the
event is answered with success. -/
structure Call.Like (d : Nat) (c c' : Call) : Prop where
  unread : c'.unread = c.unread
  consumed : c'.consumed = d + c.consumed
  event : c'.event = c.event
  frameComplete : c'.frameComplete = c.frameComplete
  answer : c'.cbs = 0 ↔ c.cbs = 0

section
variable {d : Nat} {c c' : Call} (h : c.Like d c')
include h

theorem Call.Like.avail : c'.avail = c.avail := by
  rw [← c'.unread_length, ← c.unread_length, h.unread]

theorem Call.Like.consume (n : Nat) : (c.consume n).Like d (c'.consume n) where
  unread := by rw [Call.unread_consume, Call.unread_consume, h.unread]
  consumed := by rw [Call.consume_consumed, Call.consume_consumed, h.consumed, Nat.add_assoc]
  event := h.event
  frameComplete := h.frameComplete
  answer := h.answer

theorem Call.Like.fire (ev : Event) : (Machine.fire ev c).Like d (Machine.fire ev c') :=
  { h with event := rfl }

theorem Call.Like.completeCall : (Machine.completeCall c).Like d (Machine.completeCall c') :=
  { h with frameComplete := rfl }

end

/-- Two handlers' ends with the same registers, in two such calls; where the answer `q` of the first is success,
with the same error (only `E_CALLBACK` tells two failures apart). -/
inductive HandlerOut.Like (d : Nat) (q : CbStatus) : HandlerOut → HandlerOut → Prop
  | advance (r : Regs) {c c' : Call} (h : c.Like d c') : Like d q (.advance r c) (.advance r c')
  | starved (r : Regs) {c c' : Call} (h : c.Like d c') : Like d q (.starved r c) (.starved r c')
  | fired (r : Regs) {c c' : Call} (h : c.Like d c') : Like d q (.fired r c) (.fired r c')
  | raised {e e' : DecodeError} {c c' : Call} (h : c.Like d c') (he : q = 0 → e' = e) :
      Like d q (.raised e c) (.raised e' c')
  | stuck (f : Fault) : Like d q (.stuck f) (.stuck f)

/-- What `Accumulate` ends in, in two such calls. -/
inductive AccOut.Like (d : Nat) : AccOut → AccOut → Prop
  | overrun : Like d .overrun .overrun
  | partly (r : Regs) {c c' : Call} (h : c.Like d c') : Like d (.partly r c) (.partly r c')
  | complete (r : Regs) {c c' : Call} (h : c.Like d c') : Like d (.complete r c) (.complete r c')

section
variable {d : Nat} {c c' : Call}

theorem accumulate_like {width : Nat} (hw : width ≤ 8) (r : Regs) (h : c.Like d c') :
    AccOut.Like d (accumulate width r c) (accumulate width r c') := by
  by_cases hle : r.scratchCount.toNat ≤ width
  · rw [accumulate_eq c hw hle, accumulate_eq c' hw hle, h.unread]
    dsimp only
    split
    · exact .complete _ (h.consume _)
    · exact .partly _ (h.consume _)
  · rw [accumulate_overrun c (by omega), accumulate_overrun c' (by omega)]
    exact .overrun

theorem opcodeByteBody_like (r : Regs) (h : c.Like d c') :
    HandlerOut.Like d c.cbs (opcodeByteBody r c) (opcodeByteBody r c') := by
  cases hu : c.unread with
  | nil =>
    rw [opcodeByteBody_starved hu, opcodeByteBody_starved (h.unread.trans hu)]
    exact .starved r h
  | cons b rest =>
    cases hf : fragCheck (byte0Fin b) (b &&& 0x0F) r.continuationExpected with
    | some cause =>
      rw [opcodeByteBody_raised hu hf, opcodeByteBody_raised (h.unread.trans hu) hf]
      exact .raised (h.consume 1) fun _ => rfl
    | none =>
      rw [opcodeByteBody_advance hu hf, opcodeByteBody_advance (h.unread.trans hu) hf]
      exact .advance _ (h.consume 1)

theorem lengthByteBody_like (r : Regs) (h : c.Like d c') :
    HandlerOut.Like d c.cbs (lengthByteBody r c) (lengthByteBody r c') := by
  cases hu : c.unread with
  | nil =>
    rw [lengthByteBody_starved hu, lengthByteBody_starved (h.unread.trans hu)]
    exact .starved r h
  | cons b rest =>
    rw [lengthByteBody_advance hu, lengthByteBody_advance (h.unread.trans hu)]
    exact .advance _ (h.consume 1)

theorem extendedLengthBody_like (r : Regs) (h : c.Like d c') :
    HandlerOut.Like d c.cbs (extendedLengthBody r c) (extendedLengthBody r c') := by
  have hw : r.extWidth.bytes ≤ 8 := by cases r.extWidth <;> decide
  have hacc := accumulate_like hw r h
  unfold extendedLengthBody
  generalize accumulate r.extWidth.bytes r c = out, accumulate r.extWidth.bytes r c' = out' at hacc
  cases hacc with
  | overrun => exact .stuck _
  | partly r₁ h₁ => exact .starved r₁ h₁
  | complete r₁ h₁ =>
    dsimp only
    split
    · exact .raised h₁ fun _ => rfl
    · exact .advance _ h₁

theorem maskingKeyCheckBody_like (r : Regs) (h : c.Like d c') :
    HandlerOut.Like d c.cbs (maskingKeyCheckBody r c) (maskingKeyCheckBody r c') := by
  cases hm : r.cur.masked with
  | false =>
    rw [maskingKeyCheckBody_unmasked c hm, maskingKeyCheckBody_unmasked c' hm]
    exact .advance _ h
  | true =>
    rw [maskingKeyCheckBody_masked c hm, maskingKeyCheckBody_masked c' hm]
    exact .advance _ h

theorem maskingKeyBody_like (r : Regs) (h : c.Like d c') :
    HandlerOut.Like d c.cbs (maskingKeyBody r c) (maskingKeyBody r c') := by
  have hacc := accumulate_like (width := 4) (by decide) r h
  unfold maskingKeyBody
  generalize accumulate 4 r c = out, accumulate 4 r c' = out' at hacc
  cases hacc with
  | overrun => exact .stuck _
  | partly r₁ h₁ => exact .starved r₁ h₁
  | complete r₁ h₁ => exact .advance _ h₁

theorem payloadCheckBody_like (r : Regs) (h : c.Like d c') :
    HandlerOut.Like d c.cbs (payloadCheckBody r c) (payloadCheckBody r c') := by
  have hfire := h.fire (.header r.cur r.userCtx)
  by_cases hq : c.cbs = 0
  · by_cases hl : r.cur.payloadLength = 0
    · rw [payloadCheckBody_empty hq hl, payloadCheckBody_empty (h.answer.2 hq) hl]
      exact .fired _ hfire.completeCall
    · rw [payloadCheckBody_payload hq hl, payloadCheckBody_payload (h.answer.2 hq) hl]
      exact .fired _ hfire
  · rw [payloadCheckBody_raised hq, payloadCheckBody_raised (mt h.answer.1 hq)]
    exact .raised hfire fun hz => absurd hz hq

theorem payloadCall_like (n : Nat) (r : Regs) (h : c.Like d c') :
    (payloadCall n r c).Like d (payloadCall n r c') := by
  unfold payloadCall
  rw [h.unread]
  exact (h.consume n).fire _

theorem payloadBody_like (r : Regs) (h : c.Like d c') :
    HandlerOut.Like d c.cbs (payloadBody r c) (payloadBody r c') := by
  by_cases ha : c.avail = 0
  · rw [payloadBody_starved ha, payloadBody_starved (h.avail.trans ha)]
    exact .starved r h
  obtain ⟨n, hn⟩ : ∃ n, n = min c.avail r.payloadRemaining.toNat := ⟨_, rfl⟩
  have ha' : c'.avail ≠ 0 := by rw [h.avail]; exact ha
  have hn' : n = min c'.avail r.payloadRemaining.toNat := by rw [h.avail]; exact hn
  have hcall := payloadCall_like n r h
  by_cases hq : c.cbs = 0
  · by_cases hz : r.payloadRemaining.toNat ≤ n
    · rw [payloadBody_completes ha hn hq hz, payloadBody_completes ha' hn' (h.answer.2 hq) hz]
      exact .fired _ hcall.completeCall
    · rw [payloadBody_goesOn ha hn hq (Nat.lt_of_not_le hz),
        payloadBody_goesOn ha' hn' (h.answer.2 hq) (Nat.lt_of_not_le hz)]
      exact .fired _ hcall
  · rw [payloadBody_raised ha hn hq, payloadBody_raised ha' hn' (mt h.answer.1 hq)]
    exact .raised hcall fun hz => absurd hz hq

/-- Every handler ends alike in two such calls. -/
theorem handlerBody_like (st : SubState) (r : Regs) (h : c.Like d c') :
    HandlerOut.Like d c.cbs (handlerBody st r c) (handlerBody st r c') := by
  cases st with
  | opcodeByte => exact opcodeByteBody_like r h
  | lengthByte => exact lengthByteBody_like r h
  | extendedLength => exact extendedLengthBody_like r h
  | maskingKeyCheck => exact maskingKeyCheckBody_like r h
  | maskingKey => exact maskingKeyBody_like r h
  | payloadCheck => exact payloadCheckBody_like r h
  | payload => exact payloadBody_like r h
  | done => exact .advance _ h

end

/-- Two ends of a call with the same decoder, and with results that differ by `d` bytes; where the answer `q` of
the first is success, in nothing else. -/
inductive EndsLike (d : Nat) (q : CbStatus) : Except Fault CallEnd → Except Fault CallEnd → Prop
  | ok (dec : Decoder) (res : CallResult) (st : Status) (hst : q = 0 → st = res.status) :
      EndsLike d q (.ok ⟨dec, res⟩) (.ok ⟨dec, { res with consumed := d + res.consumed, status := st }⟩)
  | error (f : Fault) : EndsLike d q (.error f) (.error f)

/-- The whole call ends alike. -/
theorem callEnd_like {d : Nat} {r : Regs} {c c' : Call} (h : c.Like d c') :
    EndsLike d c.cbs (callEnd r c) (callEnd r c') := by
  fun_induction callEnd r c generalizing c' with
  | case1 r c r₁ c₁ hb ih =>
    obtain ⟨⟨n, rfl⟩, -, -⟩ := handlerBody_advance_keeps hb
    have hbody := handlerBody_like r.state r h
    generalize hb' : handlerBody r.state r c' = out' at hbody
    rw [hb] at hbody
    cases hbody with
    | advance _ h₁ =>
      rw [callEnd_advance hb']
      exact ih h₁
  | case2 r c r₁ c₁ hb =>
    have hbody := handlerBody_like r.state r h
    generalize hb' : handlerBody r.state r c' = out' at hbody
    rw [hb] at hbody
    cases hbody with
    | starved _ h₁ =>
      rw [callEnd_starved hb', h₁.consumed]
      exact .ok _ _ _ fun _ => rfl
  | case3 r c r₁ c₁ hb =>
    have hbody := handlerBody_like r.state r h
    generalize hb' : handlerBody r.state r c' = out' at hbody
    rw [hb] at hbody
    cases hbody with
    | fired _ h₁ =>
      rw [callEnd_fired hb', h₁.consumed, h₁.event, h₁.frameComplete]
      exact .ok _ _ _ fun _ => rfl
  | case4 r c e c₁ hb =>
    have hbody := handlerBody_like r.state r h
    generalize hb' : handlerBody r.state r c' = out' at hbody
    rw [hb] at hbody
    cases hbody with
    | raised h₁ he =>
      rw [callEnd_raised hb', h₁.consumed, h₁.event]
      exact .ok _ _ _ fun hz => by rw [he hz]
  | case5 r c f hb =>
    have hbody := handlerBody_like r.state r h
    generalize hb' : handlerBody r.state r c' = out' at hbody
    rw [hb] at hbody
    cases hbody with
    | stuck _ =>
      rw [callEnd_stuck hb']
      exact .error f

/-- Settles O29: the cause of `E_CALLBACK`, and two calls whose answers are both success or both failures. -/
theorem callbackAnswerMattersOnlyByZero : Obligations.CallbackAnswerMattersOnlyByZero := by
  intro s t r span cbs res hs h hres
  have he := callEnd_of_exec hs h hres
  obtain ⟨hfail, hok⟩ := callEnd_callback he rfl
  refine ⟨hfail, hok, fun cbs' hq => ?_⟩
  have hlike : (Call.start span cbs).Like 0 (Call.start span cbs') := ⟨rfl, rfl, rfl, rfl, hq⟩
  have hends := callEnd_like (r := r) hlike
  generalize he' : callEnd r (Call.start span cbs') = o' at hends
  rw [he] at hends
  cases hends with
  | ok _ _ st hst =>
    exact ⟨_, (exec_process_eq_endOutcome hs span cbs').trans (congrArg (endOutcome s) he'), rfl⟩

/-- A call that has read `d` bytes and fired nothing ends as one that begins with the bytes it has not read. -/
theorem callEnd_of_unread {r : Regs} {c : Call} {e : CallEnd} (hev : c.event = .none)
    (hf : c.frameComplete = false) (hq : c.cbs = 0) (he : callEnd r (Call.start c.unread 0) = .ok e) :
    callEnd r c = .ok ⟨e.decoder, { e.result with consumed := c.consumed + e.result.consumed }⟩ := by
  have hlike : (Call.start c.unread 0).Like c.consumed c := ⟨rfl, rfl, hev, hf, by simp [hq]⟩
  have hends := callEnd_like (r := r) hlike
  generalize callEnd r c = o' at hends ⊢
  rw [he] at hends
  cases hends with
  | ok dec res st hst => rw [hst rfl]

end Sys2Proof.Machine
end

section
/-! A call on a span against a call on its first byte alone: either the call ends with that byte, or the rest of the
span is what the next call is given (42_process.md R214). -/

namespace Sys2Proof.Machine

/-! ### The handlers that take no byte -/

/-- The call with more bytes behind its span. -/
def Call.extend (bs : List Byte) (c : Call) : Call := { c with span := c.span ++ bs }

/-- How a call with the bytes `bs` behind its span ends, once it has read all before them: as without them, or as it
goes on from the registers with which it starved. -/
def GoesOn (r : Regs) (c : Call) (bs : List Byte) : Prop :=
  callEnd r (c.extend bs) = callEnd r c ∨
    ∃ r₁, callEnd r c = .ok ⟨.decoding r₁, starvedResult c.consumed⟩ ∧
      callEnd r (c.extend bs) = callEnd r₁ (c.extend bs)

/-- `S_PAYLOAD_CHECK` ends the call without reading (41_payload_states.md R170). -/
theorem goesOn_payloadCheck {r : Regs} (c : Call) (bs : List Byte) (hs : r.state = .payloadCheck) :
    GoesOn r c bs := by
  have hb : ∀ {c out}, payloadCheckBody r c = out → handlerBody r.state r c = out := fun h => by rw [hs]; exact h
  by_cases hq : c.cbs = 0
  · by_cases hl : r.cur.payloadLength = 0
    · rw [GoesOn, callEnd_fired (hb (payloadCheckBody_empty hq hl)),
        callEnd_fired (hb (payloadCheckBody_empty (c := c.extend bs) hq hl))]
      exact .inl rfl
    · rw [GoesOn, callEnd_fired (hb (payloadCheckBody_payload hq hl)),
        callEnd_fired (hb (payloadCheckBody_payload (c := c.extend bs) hq hl))]
      exact .inl rfl
  · rw [GoesOn, callEnd_raised (hb (payloadCheckBody_raised hq)),
      callEnd_raised (hb (payloadCheckBody_raised (c := c.extend bs) hq))]
    exact .inl rfl

/-- A state that rests starves. -/
theorem goesOn_resting {r : Regs} {c : Call} (bs : List Byte) (hr : r.resting = true) (hu : c.unread = []) :
    GoesOn r c bs := .inr ⟨r, callEnd_no_byte hr hu, rfl⟩

/-- A handler that takes no byte leaves the rest of the call to the next one. -/
theorem GoesOn.advance {r r' : Regs} {c : Call} {bs : List Byte}
    (hb : handlerBody r.state r c = .advance r' c)
    (hb' : handlerBody r.state r (c.extend bs) = .advance r' (c.extend bs)) (h : GoesOn r' c bs) :
    GoesOn r c bs := by
  rw [GoesOn, callEnd_advance hb, callEnd_advance hb']
  exact h

/-- `S_MASKING_KEY_CHECK` leads to `S_PAYLOAD_CHECK`, or to the key (40_header_states.md R136). -/
theorem goesOn_maskingKeyCheck {r : Regs} {c : Call} (bs : List Byte) (hs : r.state = .maskingKeyCheck)
    (hu : c.unread = []) : GoesOn r c bs := by
  cases hm : r.cur.masked with
  | false =>
    have hnext := goesOn_payloadCheck c bs
      (r := { r with cur := { r.cur with maskingKey := Key.zero }, state := .payloadCheck }) rfl
    refine .advance ?_ ?_ hnext <;> rw [hs]
    · exact maskingKeyCheckBody_unmasked c hm
    · exact maskingKeyCheckBody_unmasked _ hm
  | true =>
    have hnext := goesOn_resting bs (r := { accReset r with state := .maskingKey }) (by simp [Regs.resting]) hu
    refine .advance ?_ ?_ hnext <;> rw [hs]
    · exact maskingKeyCheckBody_masked c hm
    · exact maskingKeyCheckBody_masked _ hm

/-- From any registers inside a call. -/
theorem Regs.MidInv.goesOn {r : Regs} {c : Call} (bs : List Byte) (hr : r.MidInv) (hu : c.unread = []) :
    GoesOn r c bs := by
  by_cases hk : r.state = .maskingKeyCheck
  · exact goesOn_maskingKeyCheck bs hk hu
  by_cases hp : r.state = .payloadCheck
  · exact goesOn_payloadCheck c bs hp
  · exact goesOn_resting bs (hr.ready.resting hk hp) hu

/-! ### The first byte of a header handler -/

/-- What the handler of `st` makes of the first byte of a span: the same whatever follows it, or a part of a field
that the bytes after it go on with. -/
inductive FirstByte (st : SubState) (r : Regs) (b : Byte) (bs : List Byte) : Prop
  | raised (e : DecodeError)
      (hb : handlerBody st r (Call.start [b] 0) = .raised e ((Call.start [b] 0).consume 1))
      (hbs : handlerBody st r (Call.start (b :: bs) 0) = .raised e ((Call.start (b :: bs) 0).consume 1))
  | advance (r' : Regs)
      (hb : handlerBody st r (Call.start [b] 0) = .advance r' ((Call.start [b] 0).consume 1))
      (hbs : handlerBody st r (Call.start (b :: bs) 0) = .advance r' ((Call.start (b :: bs) 0).consume 1))
  | part (r' : Regs) (hs : r'.state = r.state)
      (hb : handlerBody st r (Call.start [b] 0) = .starved r' ((Call.start [b] 0).consume 1))
      (hbs : handlerBody st r (Call.start (b :: bs) 0) =
        handlerBody st r' ((Call.start (b :: bs) 0).consume 1))

theorem firstByte_opcodeByte (r : Regs) (b : Byte) (bs : List Byte) : FirstByte .opcodeByte r b bs := by
  have hu := fun ys => Call.start_unread (b :: ys) 0
  cases hf : fragCheck (byte0Fin b) (b &&& 0x0F) r.continuationExpected with
  | some cause => exact .raised _ (opcodeByteBody_raised (hu []) hf) (opcodeByteBody_raised (hu bs) hf)
  | none => exact .advance _ (opcodeByteBody_advance (hu []) hf) (opcodeByteBody_advance (hu bs) hf)

theorem firstByte_lengthByte (r : Regs) (b : Byte) (bs : List Byte) : FirstByte .lengthByte r b bs :=
  .advance _ (lengthByteBody_advance (Call.start_unread [b] 0))
    (lengthByteBody_advance (Call.start_unread (b :: bs) 0))

/-- Bytes that arrive one after another fill the accumulator as they do together (40_header_states.md R134). -/
theorem filled_append {r : Regs} (xs ys : List Byte) (h : r.scratchCount.toNat + xs.length + ys.length ≤ 8) :
    filled (xs ++ ys) r = filled ys (filled xs r) := by
  have hxs := filled_scratchCount_toNat (bs := xs) (r := r) (by omega)
  have hcount : (filled (xs ++ ys) r).scratchCount = (filled ys (filled xs r)).scratchCount := by
    apply BitVec.eq_of_toNat_eq
    rw [filled_scratchCount_toNat (by rw [List.length_append]; omega), filled_scratchCount_toNat (by omega), hxs,
      List.length_append, Nat.add_assoc]
  have hscratch : (filled (xs ++ ys) r).scratch = (filled ys (filled xs r)).scratch := by
    apply Vector.ext
    intro j hj
    simp only [filled_scratch_getElem _ _ j hj, hxs, List.getD_eq_getElem?_getD, List.getElem?_append]
    grind
  change ({ r with
      scratch := (filled (xs ++ ys) r).scratch, scratchCount := (filled (xs ++ ys) r).scratchCount } : Regs) = _
  rw [hscratch, hcount]
  rfl

/-- `Accumulate` on a byte that does not complete the field, and what follows it. -/
theorem accumulate_first {width : Nat} {r : Regs} {c : Call} {b : Byte} {bs : List Byte} (hw : width ≤ 8)
    (hl : r.scratchCount.toNat + 1 < width) (hu : c.unread = b :: bs) :
    accumulate width r c = accumulate width (filled [b] r) (c.consume 1) := by
  have hcount := filled_scratchCount_toNat (bs := [b]) (r := r) (by simp only [List.length_singleton]; omega)
  rw [List.length_singleton] at hcount
  obtain ⟨n, hn⟩ : ∃ n, width - r.scratchCount.toNat = n + 1 := ⟨width - r.scratchCount.toNat - 1, by omega⟩
  have htake : c.unread.take (width - r.scratchCount.toNat) =
      [b] ++ (c.consume 1).unread.take (width - (filled [b] r).scratchCount.toNat) := by
    rw [Call.unread_consume, hu, hcount, hn, show width - (r.scratchCount.toNat + 1) = n by omega]
    rfl
  have hlen := List.length_take_le (width - (filled [b] r).scratchCount.toNat) (c.consume 1).unread
  rw [accumulate_eq c hw (by omega), accumulate_eq (c.consume 1) hw (by omega)]
  dsimp only
  rw [htake, filled_append _ _ (by rw [List.length_singleton]; omega), List.length_append, List.length_singleton,
    Call.consume_consume, hcount, Nat.add_assoc]

/-- The first byte of a span is what a field takes of it when it misses one, or of that byte alone. -/
theorem take_first_byte {n : Nat} (b : Byte) (bs : List Byte) (h : n = 1 ∨ bs = [] ∧ 1 ≤ n) :
    [b] = (Call.start (b :: bs) 0).unread.take n := by
  rw [Call.start_unread]
  rcases h with rfl | ⟨rfl, hn⟩
  · rfl
  · exact (List.take_of_length_le hn).symm

theorem firstByte_extendedLength {r : Regs} (b : Byte) (bs : List Byte)
    (hlt : r.scratchCount.toNat < r.extWidth.bytes) : FirstByte .extendedLength r b bs := by
  have hw : r.extWidth.bytes ≤ 8 := by cases r.extWidth <;> decide
  have htake := take_first_byte (n := r.extWidth.bytes - r.scratchCount.toNat) b
  by_cases hl : r.scratchCount.toNat + 1 < r.extWidth.bytes
  · refine .part (filled [b] r) rfl (extendedLengthBody_starved (htake [] (.inr ⟨rfl, by omega⟩)) hl) ?_
    have hacc := accumulate_first hw hl (Call.start_unread (b :: bs) 0)
    simp only [handlerBody, extendedLengthBody, filled_extWidth, hacc]
  · have hfull : r.scratchCount.toNat + [b].length = r.extWidth.bytes := Nat.le_antisymm hlt (Nat.le_of_not_lt hl)
    by_cases hv : r.extWidth = .eight ∧ (scratchValue r.extWidth.bytes (filled [b] r)).getLsbD 63 = true
    · exact .raised _ (extendedLengthBody_raised (htake [] (.inr ⟨rfl, by omega⟩)) hfull hv.1 hv.2)
        (extendedLengthBody_raised (htake bs (by omega)) hfull hv.1 hv.2)
    · exact .advance _ (extendedLengthBody_advance (htake [] (.inr ⟨rfl, by omega⟩)) hfull hv)
        (extendedLengthBody_advance (htake bs (by omega)) hfull hv)

theorem firstByte_maskingKey {r : Regs} (b : Byte) (bs : List Byte) (hlt : r.scratchCount.toNat < 4) :
    FirstByte .maskingKey r b bs := by
  have htake := take_first_byte (n := 4 - r.scratchCount.toNat) b
  by_cases hl : r.scratchCount.toNat + 1 < 4
  · refine .part (filled [b] r) rfl (maskingKeyBody_starved (htake [] (.inr ⟨rfl, by omega⟩)) hl) ?_
    have hacc := accumulate_first (by decide) hl (Call.start_unread (b :: bs) 0)
    simp only [handlerBody, maskingKeyBody, hacc]
  · have hfull : r.scratchCount.toNat + [b].length = 4 := Nat.le_antisymm hlt (Nat.le_of_not_lt hl)
    exact .advance _ (maskingKeyBody_advance (htake [] (.inr ⟨rfl, by omega⟩)) hfull)
      (maskingKeyBody_advance (htake bs (by omega)) hfull)

/-- The handler of a header state that rests, by the value of `state`. -/
theorem Regs.Inv.firstByte {r : Regs} (h : r.Inv) (hp : r.state ≠ .payload) (b : Byte) (bs : List Byte) :
    FirstByte r.state r b bs := by
  have hrest := h.resting
  unfold Regs.resting at hrest
  cases hs : r.state with
  | opcodeByte => exact firstByte_opcodeByte r b bs
  | lengthByte => exact firstByte_lengthByte r b bs
  | extendedLength => exact firstByte_extendedLength b bs (by simpa [hs] using hrest)
  | maskingKey => exact firstByte_maskingKey b bs (by simpa [hs] using hrest)
  | maskingKeyCheck | payloadCheck | done => simp [hs] at hrest
  | payload => exact absurd hs hp

/-! ### The first byte of a call -/

/-- A call ends as its first handler has it. -/
theorem callEnd_congr {r r' : Regs} {c c' : Call} (h : handlerBody r.state r c = handlerBody r'.state r' c') :
    callEnd r c = callEnd r' c' := by
  cases hb : handlerBody r'.state r' c' with
  | advance r₁ c₁ => rw [callEnd_advance hb, callEnd_advance (h.trans hb)]
  | starved r₁ c₁ => rw [callEnd_starved hb, callEnd_starved (h.trans hb)]
  | fired r₁ c₁ => rw [callEnd_fired hb, callEnd_fired (h.trans hb)]
  | raised e c₁ => rw [callEnd_raised hb, callEnd_raised (h.trans hb)]
  | stuck f => rw [callEnd_stuck hb, callEnd_stuck (h.trans hb)]

/-- How a call on `b :: bs` ends, against one on `b` alone: the same; or the second goes on from where the first has
led, with the rest of the span, and what the host is given is what the two give it one after the other. -/
inductive SplitsAfter (r : Regs) (b : Byte) (bs : List Byte) : Prop
  | stops (h : callEnd r (Call.start (b :: bs) 0) = callEnd r (Call.start [b] 0))
  | goesOn (r₁ : Regs) (res₁ res : CallResult) (e : CallEnd)
      (first : callEnd r (Call.start [b] 0) = .ok ⟨.decoding r₁, res₁⟩)
      (rest : callEnd r₁ (Call.start bs 0) = .ok e)
      (all : callEnd r (Call.start (b :: bs) 0) = .ok ⟨e.decoder, res⟩)
      (consumed : res.consumed = 1 + e.result.consumed) (obs : res.obs = res₁.obs ++ e.result.obs)

/-- A call that has starved on its first byte has given the host nothing. -/
theorem splitsAfter_of_starved {r r₁ : Regs} {b : Byte} {bs : List Byte} (h₁ : r₁.Inv)
    (first : callEnd r (Call.start [b] 0) = .ok ⟨.decoding r₁, starvedResult 1⟩)
    (all : callEnd r (Call.start (b :: bs) 0) = callEnd r₁ ((Call.start (b :: bs) 0).consume 1)) :
    SplitsAfter r b bs := by
  obtain ⟨e, he, -, -⟩ := callEnd_sound (c := Call.start bs 0) h₁.midInv rfl
  exact .goesOn r₁ _ _ e first he (all.trans (callEnd_of_unread rfl rfl rfl he)) rfl rfl

theorem Regs.Inv.splitsAfter_header {r : Regs} (h : r.Inv) (hp : r.state ≠ .payload) (b : Byte) (bs : List Byte) :
    SplitsAfter r b bs := by
  have hsound := handlerBody_sound (c := Call.start [b] 0) h.midInv rfl
  cases h.firstByte hp b bs with
  | raised e hb hbs =>
    refine .stops ?_
    rw [callEnd_raised hb, callEnd_raised hbs]
    rfl
  | advance r' hb hbs =>
    rw [hb] at hsound
    rcases hsound.1.goesOn bs (c := (Call.start [b] 0).consume 1) rfl with hsame | ⟨r₁, hstarved, hmore⟩
    · exact .stops ((callEnd_advance hbs).trans (hsame.trans (callEnd_advance hb).symm))
    · have first := (callEnd_advance hb).trans hstarved
      obtain ⟨e, he, -, hinv⟩ := callEnd_sound (c := Call.start [b] 0) h.midInv rfl
      rw [first] at he
      cases he
      exact splitsAfter_of_starved (hinv r₁ rfl) first ((callEnd_advance hbs).trans hmore)
  | part r' hs hb hbs =>
    rw [hb] at hsound
    exact splitsAfter_of_starved hsound (callEnd_starved hb) (callEnd_congr (hbs.trans (by rw [hs])))

/-! ### The payload -/

/-- The end of a call that delivers the wire bytes `ws` (41_payload_states.md R172). -/
def chunkEnd (r : Regs) (ws : List Byte) : CallEnd where
  decoder := .decoding
    (if r.payloadRemaining.toNat ≤ ws.length then completeRegs (countPayload ws.length r)
      else countPayload ws.length r)
  result :=
    { consumed := ws.length, event := .payload (deliver r ws) r.userCtx
      frameComplete := decide (r.payloadRemaining.toNat ≤ ws.length), status := .ok }

/-- A call in `S_PAYLOAD` delivers what remains of the payload, as far as the span has it. -/
theorem callEnd_chunk {r : Regs} {span ws : List Byte} (hs : r.state = .payload) (hne : span ≠ [])
    (hws : ws = span.take r.payloadRemaining.toNat) : callEnd r (Call.start span 0) = .ok (chunkEnd r ws) := by
  have ha : (Call.start span 0).avail ≠ 0 := by simpa using hne
  have hb : ∀ {out}, payloadBody r (Call.start span 0) = out → handlerBody r.state r (Call.start span 0) = out :=
    fun h => by rw [hs]; exact h
  have hn : ws.length = min (Call.start span 0).avail r.payloadRemaining.toNat := by
    rw [hws, List.length_take, Call.start_avail, Nat.min_comm]
  have htake : span.take ws.length = ws := (List.prefix_iff_eq_take.1 (hws ▸ List.take_prefix _ _)).symm
  by_cases hz : r.payloadRemaining.toNat ≤ ws.length
  · rw [callEnd_fired (hb (payloadBody_completes ha hn rfl hz))]
    simp [chunkEnd, hz, payloadCall, htake]
  · rw [callEnd_fired (hb (payloadBody_goesOn ha hn rfl (Nat.lt_of_not_le hz)))]
    simp [chunkEnd, hz, payloadCall, htake]

/-- The counters after two chunks are those after both at once (41_payload_states.md R172). -/
theorem countPayload_countPayload (m n : Nat) (r : Regs) :
    countPayload n (countPayload m r) = countPayload (m + n) r := by
  have hrem : r.payloadRemaining - BitVec.ofNat 64 m - BitVec.ofNat 64 n =
      r.payloadRemaining - BitVec.ofNat 64 (m + n) := by
    rw [BitVec.ofNat_add, sub_sub]
  cases hm : r.cur.masked with
  | false => simp [countPayload, advancePosition, hm, hrem]
  | true => simp [countPayload, advancePosition, hm, hrem, BitVec.ofNat_add, BitVec.add_assoc]

/-- A second chunk goes on where the first has stopped (41_payload_states.md R174). -/
theorem deliver_append (r : Regs) (xs ys : List Byte) :
    deliver r (xs ++ ys) = deliver r xs ++ deliver (countPayload xs.length r) ys := by
  cases hm : r.cur.masked with
  | false => simp [deliver, hm]
  | true => simp [deliver, hm, unmaskBytes_append, countPayload, advancePosition]

/-- A chunk of at least two bytes is its first byte and then the rest. -/
theorem chunkEnd_cons {r : Regs} (b : Byte) {ws : List Byte} (hr : 2 ≤ r.payloadRemaining.toNat) :
    (chunkEnd r [b]).decoder = .decoding (countPayload 1 r) ∧
      (chunkEnd r (b :: ws)).decoder = (chunkEnd (countPayload 1 r) ws).decoder ∧
      (chunkEnd r (b :: ws)).result.obs =
        (chunkEnd r [b]).result.obs ++ (chunkEnd (countPayload 1 r) ws).result.obs := by
  have hrem := countPayload_remaining_toNat (n := 1) (r := r) (by omega)
  have hmore : ¬ r.payloadRemaining.toNat ≤ 1 := by omega
  have hlast : r.payloadRemaining.toNat - 1 ≤ ws.length ↔ r.payloadRemaining.toNat ≤ ws.length + 1 := by omega
  have hdeliver := deliver_append r [b] ws
  rw [List.singleton_append, List.length_singleton] at hdeliver
  refine ⟨?_, ?_, ?_⟩
  · simp [chunkEnd, hmore]
  · simp only [chunkEnd, List.length_cons, hrem, hlast, countPayload_countPayload, Nat.add_comm]
  · simp only [CallResult.obs, Event.obs, chunkEnd, List.length_cons, List.length_nil, hrem, hlast, hdeliver]
    simp [hmore, countPayload]

theorem Regs.Inv.splitsAfter_payload {r : Regs} {bs : List Byte} (h : r.Inv) (hs : r.state = .payload) (b : Byte)
    (hbs : bs ≠ []) : SplitsAfter r b bs := by
  have hpos := (h.remaining hs).1
  have first := callEnd_chunk (span := [b]) hs (by simp) (List.take_of_length_le (by simpa using hpos)).symm
  obtain ⟨m, hm⟩ : ∃ m, r.payloadRemaining.toNat = m + 1 := ⟨r.payloadRemaining.toNat - 1, by omega⟩
  have all := callEnd_chunk (span := b :: bs) (ws := b :: bs.take m) hs (by simp) (by rw [hm, List.take_succ_cons])
  by_cases hz : m = 0
  · rw [hz, List.take_zero] at all
    exact .stops (all.trans first.symm)
  · have rest := callEnd_chunk (r := countPayload 1 r) (ws := bs.take m) hs hbs
      (by rw [countPayload_remaining_toNat hpos, hm, Nat.add_sub_cancel])
    obtain ⟨hfirst, hdec, hobs⟩ := chunkEnd_cons (r := r) b (ws := bs.take m) (by omega)
    refine .goesOn (countPayload 1 r) (chunkEnd r [b]).result (chunkEnd r (b :: bs.take m)).result _ ?_ rest ?_ ?_ hobs
    · rw [first, ← hfirst]
    · rw [all, ← hdec]
    · simp [chunkEnd, Nat.add_comm]

/-- Every call splits after its first byte. -/
theorem Regs.Inv.splitsAfter {r : Regs} {bs : List Byte} (h : r.Inv) (b : Byte) (hbs : bs ≠ []) :
    SplitsAfter r b bs := by
  by_cases hs : r.state = .payload
  · exact h.splitsAfter_payload hs b hbs
  · exact h.splitsAfter_header hs b bs

end Sys2Proof.Machine
end

section
/-! The stream byte by byte, and FEED of any partition of it (42_process.md R213, R214). -/

namespace Sys2Proof.Machine

/-! ### The reference: one byte per call -/

/-- Observations before those of the rest of a stream. -/
def observeBefore (o : List Obs) (p : Decoder × List Obs) : Decoder × List Obs := (p.1, o ++ p.2)

/-- The decoder after a stream of which each byte is presented alone and each event answered with success, and what
the host is given. After an error nothing more is presented (42_process.md R213). -/
def Decoder.stream : Decoder → List Byte → Decoder × List Obs
  | .failed, _ => (.failed, [])
  | .decoding r, [] => (.decoding r, [])
  | .decoding r, b :: bs =>
    match callEnd r (Call.start [b] 0) with
    | .ok e => observeBefore e.result.obs (e.decoder.stream bs)
    | .error _ => (.failed, [])

@[simp] theorem Decoder.stream_failed (bs : List Byte) : Decoder.failed.stream bs = (.failed, []) := by
  cases bs <;> rfl

@[simp] theorem Decoder.stream_nil (d : Decoder) : d.stream [] = (d, []) := by
  cases d <;> rfl

theorem Decoder.stream_cons {r : Regs} {b : Byte} {e : CallEnd} (bs : List Byte)
    (h : callEnd r (Call.start [b] 0) = .ok e) :
    (Decoder.decoding r).stream (b :: bs) = observeBefore e.result.obs (e.decoder.stream bs) := by
  simp only [Decoder.stream, h]

theorem observeBefore_observeBefore (o o' : List Obs) (p : Decoder × List Obs) :
    observeBefore o (observeBefore o' p) = observeBefore (o ++ o') p := by
  simp [observeBefore]

/-! ### One call -/

/-- A call on one byte takes it. -/
theorem Regs.Inv.consumed_one {r : Regs} {b : Byte} {e : CallEnd} (h : r.Inv)
    (he : callEnd r (Call.start [b] 0) = .ok e) : e.result.consumed = 1 := by
  obtain ⟨n, hn, htakes⟩ := callEnd_takes he
  have havail := htakes.le_avail
  have hpos := htakes.pos h.resting (by simp)
  simp only [Call.start_avail, List.length_singleton, Call.start_consumed] at havail hn
  omega

/-- A call gives the host what the bytes it takes give one by one, and leaves the rest of the stream to the calls
after it. -/
theorem Regs.Inv.stream_call {r : Regs} {span : List Byte} {e : CallEnd} (h : r.Inv) (hne : span ≠ [])
    (he : callEnd r (Call.start span 0) = .ok e) (more : List Byte) :
    (Decoder.decoding r).stream (span ++ more) =
      observeBefore e.result.obs (e.decoder.stream (span.drop e.result.consumed ++ more)) := by
  induction span generalizing r e with
  | nil => exact absurd rfl hne
  | cons b bs ih =>
    obtain ⟨e₁, first, -, hinv⟩ := callEnd_sound (c := Call.start [b] 0) h.midInv rfl
    have hone := h.consumed_one first
    have hstream := Decoder.stream_cons (bs ++ more) first
    rw [List.cons_append, hstream]
    by_cases hbs : bs = []
    · subst hbs
      obtain rfl : e₁ = e := Except.ok.inj (first.symm.trans he)
      rw [hone]
      rfl
    · cases h.splitsAfter b hbs with
      | stops hstop =>
        obtain rfl : e₁ = e := Except.ok.inj (first.symm.trans (hstop.symm.trans he))
        rw [hone]
        rfl
      | goesOn r₁ res₁ res e₂ hfirst rest all consumed obs =>
        obtain rfl : e₁ = ⟨.decoding r₁, res₁⟩ := Except.ok.inj (first.symm.trans hfirst)
        obtain rfl : e = ⟨e₂.decoder, res⟩ := Except.ok.inj (he.symm.trans all)
        rw [ih (hinv r₁ rfl) hbs rest, observeBefore_observeBefore, obs, consumed, Nat.add_comm, List.drop_succ_cons]

/-! ### The host's side -/

@[simp] theorem useAnswer_decoder (t : State) : (useAnswer t).decoder = t.decoder := by
  unfold useAnswer
  split
  · rfl
  · split <;> rfl

@[simp] theorem useAnswer_call (t : State) : (useAnswer t).call = t.call := by
  unfold useAnswer
  split
  · rfl
  · split <;> rfl

@[simp] theorem useAnswer_results (t : State) : (useAnswer t).results = t.results := by
  unfold useAnswer
  split
  · rfl
  · split <;> rfl

theorem State.Answered.mono {s : State} {m n : Nat} (h : s.Answered n) (hmn : m ≤ n) : s.Answered m := by
  obtain ⟨more, hs⟩ := h
  obtain ⟨k, rfl⟩ := Nat.exists_eq_add_of_le hmn
  exact ⟨List.replicate k 0 ++ more, by rw [hs, ← List.append_assoc, List.replicate_append_replicate]⟩

/-- A call uses up at most one answer. -/
theorem State.Answered.useAnswer {t : State} {n : Nat} (h : t.Answered (n + 1)) : (useAnswer t).Answered n := by
  have htail : ∀ k, (t.setAnswers t.answers.tail k).Answered n := fun k => by
    obtain ⟨more, ht⟩ := h
    exact ⟨more, by rw [State.setAnswers_answers, ht]; rfl⟩
  unfold Machine.useAnswer
  split
  · exact h.mono (Nat.le_succ n)
  · split
    · exact h.mono (Nat.le_succ n)
    · exact htail _
    · exact htail _

theorem lastResult_ended (e : CallEnd) (s : State) : lastResult (s.ended e) = some e.result := by
  simp [lastResult, State.ended]

theorem observed_append (xs ys : List CallResult) : observed (xs ++ ys) = observed xs ++ observed ys :=
  List.flatMap_append

theorem observed_ended (e : CallEnd) (s : State) :
    observed (s.ended e).results = observed s.results ++ e.result.obs := by
  rw [State.ended, observed_append]
  simp [observed]

/-! ### FEED -/

/-- FEED has ended in `t` after the bytes `read`, with the bytes `more` of the stream to come: the host was given
what the bytes give one by one. -/
structure Fed (s : State) (d : Decoder) (read more : List Byte) (t : State) : Prop where
  idle : t.call = none
  regs : ∀ r, t.decoder = .decoding r → r.Inv ∧ t.Answered more.length
  obs : ∃ o, observed t.results = observed s.results ++ o ∧
    d.stream (read ++ more) = observeBefore o (t.decoder.stream more)

theorem State.Answered.ended {s : State} {n : Nat} (h : s.Answered n) (e : CallEnd) : (s.ended e).Answered n := h

/-- What is left over after a call: nothing after an error, else the bytes it has not taken (42_process.md R213). -/
theorem leftover_ended {r : Regs} {c : Call} {e : CallEnd} (span : List Byte) (s : State)
    (he : callEnd r c = .ok e) :
    leftover span (s.ended e) = if e.decoder = .failed then [] else span.drop e.result.consumed := by
  have hlast := lastResult_ended e s
  by_cases hd : e.decoder = .failed
  · cases hst : e.result.status with
    | ok => exact absurd hst ((callEnd_failed_iff he).1 hd)
    | err err => rw [leftover_err hlast hst, if_pos hd]
  · rw [leftover_ok hlast (not_not.1 (mt (callEnd_failed_iff he).2 hd)), if_neg hd]

/-- FEED that ends with its first call. -/
theorem fed_of_leftover_nil {s : State} {r : Regs} {span more : List Byte} {e : CallEnd} (hr : r.Inv)
    (hne : span ≠ []) (hans : (useAnswer (s.ended e)).Answered more.length)
    (he : callEnd r (Call.start span 0) = .ok e) (hinv : ∀ r', e.decoder = .decoding r' → r'.Inv)
    (hl : leftover span (s.ended e) = []) : Fed s (.decoding r) span more (useAnswer (s.ended e)) where
  idle := useAnswer_call _
  regs := fun r' hd => ⟨hinv r' (by rw [← hd, useAnswer_decoder]; rfl), hans⟩
  obs := by
    refine ⟨e.result.obs, by rw [useAnswer_results, observed_ended], ?_⟩
    rw [hr.stream_call hne he, useAnswer_decoder]
    rw [leftover_ended span s he] at hl
    by_cases hd : e.decoder = .failed
    · simp [State.ended, hd]
    · rw [if_neg hd] at hl
      rw [hl]
      rfl

/-- FEED that goes on after its first call with what is left over. -/
theorem Fed.of_rest {s t : State} {r : Regs} {span rest more : List Byte} {e : CallEnd} (hr : r.Inv)
    (hne : span ≠ []) (he : callEnd r (Call.start span 0) = .ok e) (hrest : rest = span.drop e.result.consumed)
    (h : Fed (useAnswer (s.ended e)) e.decoder rest more t) : Fed s (.decoding r) span more t where
  idle := h.idle
  regs := h.regs
  obs := by
    obtain ⟨o, ho, hstream⟩ := h.obs
    refine ⟨e.result.obs ++ o, ?_, ?_⟩
    · rw [ho, useAnswer_results, observed_ended, List.append_assoc]
    · rw [hr.stream_call hne he, ← hrest, hstream, observeBefore_observeBefore]

/-- FEED of an empty span changes nothing (42_process.md R211). -/
theorem feed_nil_fed {k : Nat} {s : State} {r : Regs} (more : List Byte) (hs : s.Idle r) (hr : r.Inv)
    (hans : s.Answered more.length) : ∃ t, feed (k + 1) [] s = .next t ∧ Fed s (.decoding r) [] more t := by
  have he := callEnd_no_byte (c := Call.start [] (nextAnswer s)) hr.resting rfl
  have hlast := lastResult_ended ⟨.decoding r, starvedResult 0⟩ s
  have hcall : processCall [] (nextAnswer s) s = .next (s.ended ⟨.decoding r, starvedResult 0⟩) :=
    (exec_process_eq_endOutcome hs [] _).trans (congrArg (endOutcome s) he)
  refine ⟨_, feed_done hcall (leftover_ok hlast rfl), ?_⟩
  rw [useAnswer_none hlast rfl]
  refine ⟨rfl, fun r' hd => ?_, [], by rw [observed_ended]; rfl, rfl⟩
  cases hd
  exact ⟨hr, hans⟩

/-- FEED of one span, by the number of calls it may make. -/
theorem feed_fed {k : Nat} {s : State} {r : Regs} {span : List Byte} (more : List Byte) (hs : s.Idle r)
    (hr : r.Inv) (hans : s.Answered (span.length + more.length)) (hk : span.length < k) :
    ∃ t, feed k span s = .next t ∧ Fed s (.decoding r) span more t := by
  induction k generalizing s r span with
  | zero => omega
  | succ k ih =>
    by_cases hne : span = []
    · subst hne
      exact feed_nil_fed more hs hr (by simpa using hans)
    have hpos := List.length_pos_iff.2 hne
    have hq : nextAnswer s = 0 := nextAnswer_of_answered (n := 0) (hans.mono (by omega))
    obtain ⟨e, he, -, hinv, hcall⟩ := exec_process_next span (nextAnswer s) hs hr
    rw [hq] at he
    obtain ⟨n, hn, htakes⟩ := callEnd_takes he
    have hone := htakes.pos hr.resting (by rw [Call.start_avail]; omega)
    rw [Call.start_consumed, Nat.zero_add] at hn
    by_cases hl : leftover span (s.ended e) = []
    · exact ⟨_, feed_done hcall hl, fed_of_leftover_nil hr hne
        ((hans.mono (m := more.length + 1) (by omega)).ended e).useAnswer he hinv hl⟩
    · have hrest := leftover_ended span s he
      cases hd : e.decoder with
      | failed => exact absurd (hrest.trans (if_pos hd)) hl
      | decoding r' =>
        rw [hd, if_neg (by simp)] at hrest
        rw [feed_more hcall hrest (hrest ▸ hl)]
        have hlen : (span.drop e.result.consumed).length < span.length := by
          rw [List.length_drop]
          omega
        have hidle : (useAnswer (s.ended e)).Idle r' := ⟨by rw [useAnswer_decoder]; exact hd, useAnswer_call _⟩
        obtain ⟨t, ht, hfed⟩ := ih hidle (hinv r' hd)
          ((hans.mono (m := (span.drop e.result.consumed).length + more.length + 1) (by omega)).ended e).useAnswer
          (by omega)
        exact ⟨t, ht, .of_rest hr hne he rfl (hd ▸ hfed)⟩

/-- FEED of any spans gives what their bytes give one by one. -/
theorem feedAll_stream {s : State} {r : Regs} {spans : List (List Byte)} (hs : s.Idle r) (hr : r.Inv)
    (hans : s.Answered spans.flatten.length) :
    ∃ t, feedAll spans s = .next t ∧ t.decoder = ((Decoder.decoding r).stream spans.flatten).1 ∧
      observed t.results = observed s.results ++ ((Decoder.decoding r).stream spans.flatten).2 := by
  induction spans generalizing s r with
  | nil => exact ⟨s, rfl, hs.1, by simp⟩
  | cons span spans ih =>
    rw [List.flatten_cons, List.length_append] at hans
    obtain ⟨t, ht, hfed⟩ := feed_fed spans.flatten hs hr hans (Nat.lt_succ_self _)
    obtain ⟨o, ho, hstream⟩ := hfed.obs
    rw [List.flatten_cons, hstream]
    have hpresent : present span s = .next t := ht
    cases hd : t.decoder with
    | failed =>
      exact ⟨t, by simp only [feedAll, hpresent, hd], by simp [observeBefore, hd], by simp [observeBefore, ho]⟩
    | decoding r' =>
      obtain ⟨hr', hans'⟩ := hfed.regs r' hd
      obtain ⟨t', ht', hdec, hobs⟩ := ih ⟨hd, hfed.idle⟩ hr' hans'
      refine ⟨t', by simp only [feedAll, hpresent, hd, ht'], hdec, ?_⟩
      rw [hobs, ho, List.append_assoc]
      rfl

/-- Settles O50: FEED of either partition gives what the bytes of the stream give one by one. -/
theorem partitionInvariance : Obligations.PartitionInvariance := by
  intro s t r xs ys hs hr hans hxy hx
  obtain ⟨t₁, ht₁, hdec₁, hobs₁⟩ := feedAll_stream hs hr hans
  obtain rfl : t₁ = t := Host.Outcome.next.inj (ht₁.symm.trans hx)
  rw [hxy] at hans hdec₁ hobs₁
  obtain ⟨t', ht', hdec, hobs⟩ := feedAll_stream hs hr hans
  exact ⟨t', ht', hdec.trans hdec₁.symm, hobs.trans hobs₁.symm⟩

end Sys2Proof.Machine
end

section
/-! A whole frame presented as one span at a frame boundary: one call for the header, and one for the payload if there
is any (43_frame_opcodes.md R240); then, by partition invariance, a frame in any spans (42_process.md R215). -/

namespace Sys2Proof.Machine

/-- The registers once the header of a frame is complete, from those at the boundary before it. -/
def frameHeaderRegs (op : BitVec 4) (f : Frame) (r : Regs) : Regs :=
  headerRegs f.masked f.len f.key { setByte0 (encodeByte0 f.fin f.rsv op) r with state := .lengthByte }

theorem frameHeaderRegs_cur (op : BitVec 4) (f : Frame) (r : Regs) :
    (frameHeaderRegs op f r).cur = frameHeader op f := by
  simp [frameHeaderRegs, headerRegs, setByte0, frameHeader]

/-- The call that takes the header of an accepted frame and fires HEADER. -/
theorem processCall_frame_header {s : State} {r : Regs} {f : Frame} {op : BitVec 4} (hs : s.Idle r)
    (hb : r.state = .opcodeByte) (hwf : f.wf = true) (hres : f.len.reserved = false)
    (hfrag : fragCheck f.fin (op.setWidth 8) r.continuationExpected = none) :
    processCall (encodeFrame op f) 0 s = .next (returned (afterHeader (frameHeaderRegs op f r))
      (headerResult (headerBytes f.masked f.len) (frameHeaderRegs op f r)) s) := by
  obtain ⟨hlen, hkey, -⟩ := f.wf_iff.1 hwf
  rw [processCall_idle hs, encodeFrame_eq, show Config.maxHandlers = 6 + 1 from rfl,
    dispatch_byte0 6 s hb (Call.start_unread _ _) hfrag,
    dispatch_header (k := 1) rfl hlen hres hkey (by rw [Call.unread_consume]; rfl) rfl rfl,
    ← encodeTail_length f.key hres, Call.consume_consumed, Call.start_consumed, Nat.zero_add, Nat.add_comm]
  rfl

/-- After the header the payload on the wire is left (30_encoding.md R90). -/
theorem drop_encodeFrame (op : BitVec 4) {f : Frame} (hres : f.len.reserved = false) :
    (encodeFrame op f).drop (headerBytes f.masked f.len) = maskPayload f.masked f.key f.payload := by
  rw [encodeFrame_eq, ← encodeTail_length f.key hres, List.drop_succ_cons, List.drop_left]

theorem Frame.value_toNat {f : Frame} (hwf : f.wf = true) (hres : f.len.reserved = false) :
    f.len.value.toNat = f.payload.length := by
  rw [(f.wf_iff.1 hwf).2.2, LenField.payloadCount, hres]
  rfl

theorem Frame.value_eq_zero_iff {f : Frame} (hwf : f.wf = true) (hres : f.len.reserved = false) :
    f.len.value = 0 ↔ f.payload = [] := by
  rw [← List.length_eq_zero_iff, ← Frame.value_toNat hwf hres]
  exact BitVec.toNat_inj.symm

/-- The result of the call that takes the header (42_process.md R206). -/
theorem headerResult_frame (op : BitVec 4) {f : Frame} (r : Regs) (hwf : f.wf = true)
    (hres : f.len.reserved = false) :
    headerResult (headerBytes f.masked f.len) (frameHeaderRegs op f r) =
      ⟨headerBytes f.masked f.len, .header (frameHeader op f) r.userCtx, f.payload.isEmpty, .ok⟩ := by
  have hempty : (f.len.value == 0) = f.payload.isEmpty := by
    rw [Bool.eq_iff_iff, beq_iff_eq, List.isEmpty_iff]
    exact Frame.value_eq_zero_iff hwf hres
  rw [headerResult, frameHeaderRegs_cur, ← hempty]
  rfl

/-- An empty frame is complete with its header (41_payload_states.md R170). -/
theorem afterHeader_frame_empty (op : BitVec 4) {f : Frame} (r : Regs) (hwf : f.wf = true)
    (hres : f.len.reserved = false) (hp : f.payload = []) :
    afterHeader (frameHeaderRegs op f r) = frameRegs op f r := by
  have hzero : (frameHeader op f).payloadLength = 0 := (Frame.value_eq_zero_iff hwf hres).2 hp
  rw [afterHeader, frameHeaderRegs_cur, if_pos hzero, frameRegs, if_pos hp, if_pos hp, ← frameHeaderRegs_cur op f r]
  rfl

theorem present_frame_empty {s : State} {r : Regs} {f : Frame} {op : BitVec 4} (hs : s.Idle r)
    (hb : r.state = .opcodeByte) (hwf : f.wf = true) (hres : f.len.reserved = false)
    (hfrag : fragCheck f.fin (op.setWidth 8) r.continuationExpected = none) (hans : s.Answered 1)
    (hp : f.payload = []) : present (encodeFrame op f) s = .next (afterFrame op f r s) := by
  have hcall := processCall_frame_header hs hb hwf hres hfrag
  have hall : headerBytes f.masked f.len = (encodeFrame op f).length := by
    rw [(frameSizeIsHeaderPlusPayload op f hwf hres).1, (Frame.value_eq_zero_iff hwf hres).2 hp]
    rfl
  rw [present_of_event (by rw [nextAnswer_of_answered hans]; exact hcall) rfl hall (by simp [headerResult]),
    headerResult_frame op r hwf hres, afterHeader_frame_empty op r hwf hres hp, afterFrame, frameEvents,
    frameResults, if_pos hp, if_pos hp, returned, hs.2.symm]
  rfl

/-- The registers in which the payload of a frame is awaited (41_payload_states.md R170). -/
def framePayloadRegs (op : BitVec 4) (f : Frame) (r : Regs) : Regs :=
  { frameHeaderRegs op f r with
      payloadRemaining := f.len.value, maskingPosition := 0, state := .payload }

theorem afterHeader_frame_payload (op : BitVec 4) {f : Frame} (r : Regs) (hwf : f.wf = true)
    (hres : f.len.reserved = false) (hp : f.payload ≠ []) :
    afterHeader (frameHeaderRegs op f r) = framePayloadRegs op f r :=
  if_neg (mt (Frame.value_eq_zero_iff hwf hres).1 hp)

/-- The registers after the whole payload (41_payload_states.md R172). -/
theorem completeRegs_frame {f : Frame} (op : BitVec 4) (r : Regs) (hwf : f.wf = true)
    (hres : f.len.reserved = false) (hp : f.payload ≠ []) :
    completeRegs (countPayload f.payload.length (framePayloadRegs op f r)) = frameRegs op f r := by
  have hlen : BitVec.ofNat 64 f.payload.length = f.len.value := by
    rw [← Frame.value_toNat hwf hres, BitVec.ofNat_toNat, BitVec.setWidth_eq]
  have hcur : (framePayloadRegs op f r).cur = frameHeader op f := frameHeaderRegs_cur op f r
  have hrem : (framePayloadRegs op f r).payloadRemaining - f.len.value = 0 := BitVec.sub_self _
  have hpos : (framePayloadRegs op f r).maskingPosition + f.len.value = f.len.value := BitVec.zero_add _
  rw [completeRegs_eq, countPayload, advancePosition, hcur, hlen, hrem, hpos, frameRegs, if_neg hp, if_neg hp]
  rfl

theorem maskPayload_ne_nil (m : Bool) (key : Key) {bs : List Byte} (h : bs ≠ []) : maskPayload m key bs ≠ [] := by
  rw [← List.length_pos_iff, maskPayload_length]
  exact List.length_pos_iff.2 h

/-- The call that takes the whole payload as one chunk. -/
theorem callEnd_frame_payload {f : Frame} (op : BitVec 4) (r : Regs) (hwf : f.wf = true)
    (hres : f.len.reserved = false) (hp : f.payload ≠ []) :
    callEnd (framePayloadRegs op f r) (Call.start (maskPayload f.masked f.key f.payload) 0) =
      .ok ⟨.decoding (frameRegs op f r), ⟨f.payload.length, .payload f.payload r.userCtx, true, .ok⟩⟩ := by
  have hrem : (framePayloadRegs op f r).payloadRemaining.toNat = f.payload.length := Frame.value_toNat hwf hres
  have hdeliver : deliver (framePayloadRegs op f r) (maskPayload f.masked f.key f.payload) = f.payload :=
    maskPayload_maskPayload f.masked f.key f.payload
  have hne := maskPayload_ne_nil f.masked f.key hp
  rw [callEnd_chunk rfl hne (List.take_of_length_le (by rw [hrem, maskPayload_length])).symm, chunkEnd,
    maskPayload_length, hrem, hdeliver, completeRegs_frame op r hwf hres hp, if_pos (Nat.le_refl _),
    decide_eq_true (Nat.le_refl _)]
  rfl

/-- FEED of a span that two calls take, each with an event: two answers are used up. -/
theorem present_of_two_events {s s₁ : State} {r₁ r₂ : Regs} {span rest : List Byte} {res₁ res₂ : CallResult}
    (h₁ : processCall span (nextAnswer s) s = .next (returned r₁ res₁ s)) (hok₁ : res₁.status = .ok)
    (hev₁ : res₁.event ≠ .none) (hrest : span.drop res₁.consumed = rest) (hne : rest ≠ [])
    (hs₁ : s₁ = useAnswers 1 (returned r₁ res₁ s))
    (h₂ : processCall rest (nextAnswer s₁) s₁ = .next (returned r₂ res₂ s₁)) (hok₂ : res₂.status = .ok)
    (hev₂ : res₂.event ≠ .none) (hall : res₂.consumed = rest.length) :
    present span s = .next (useAnswers 1 (returned r₂ res₂ s₁)) := by
  have hlast₁ := lastResult_returned r₁ res₁ s
  have hlast₂ := lastResult_returned r₂ res₂ s₁
  obtain ⟨n, hn⟩ : ∃ n, span.length = n + 1 := by
    refine Nat.exists_eq_succ_of_ne_zero fun h0 => hne ?_
    rw [← hrest, List.length_eq_zero_iff.1 h0, List.drop_nil]
  rw [present, hn, feed_more h₁ ((leftover_ok hlast₁ hok₁).trans hrest) hne, useAnswer_event hlast₁ hev₁, ← hs₁,
    feed_done h₂ (by rw [leftover_ok hlast₂ hok₂, hall, List.drop_length]), useAnswer_event hlast₂ hev₂]

theorem present_frame_payload {s : State} {r : Regs} {f : Frame} {op : BitVec 4} (hs : s.Idle r)
    (hb : r.state = .opcodeByte) (hwf : f.wf = true) (hres : f.len.reserved = false)
    (hfrag : fragCheck f.fin (op.setWidth 8) r.continuationExpected = none) (hans : s.Answered 2)
    (hp : f.payload ≠ []) : present (encodeFrame op f) s = .next (afterFrame op f r s) := by
  have hheader := processCall_frame_header hs hb hwf hres hfrag
  rw [← nextAnswer_of_answered hans, headerResult_frame op r hwf hres, afterHeader_frame_payload op r hwf hres hp]
    at hheader
  obtain ⟨s₁, hs₁⟩ : ∃ s₁, s₁ = useAnswers 1 (returned (framePayloadRegs op f r) ⟨headerBytes f.masked f.len,
    .header (frameHeader op f) r.userCtx, f.payload.isEmpty, .ok⟩ s) := ⟨_, rfl⟩
  have hidle : s₁.Idle (framePayloadRegs op f r) := by rw [hs₁]; exact ⟨rfl, rfl⟩
  have hnext : nextAnswer s₁ = 0 := by
    obtain ⟨more, hmore⟩ := hans
    exact nextAnswer_cons (as := more) (by rw [hs₁]; exact congrArg (List.drop 1) hmore)
  have hpayload : processCall (maskPayload f.masked f.key f.payload) (nextAnswer s₁) s₁ =
      .next (returned (frameRegs op f r) ⟨f.payload.length, .payload f.payload r.userCtx, true, .ok⟩ s₁) := by
    rw [hnext]
    exact (exec_process_eq_endOutcome hidle _ 0).trans
      (congrArg (endOutcome s₁) (callEnd_frame_payload op r hwf hres hp))
  have hne := maskPayload_ne_nil f.masked f.key hp
  rw [present_of_two_events hheader rfl (by simp) (drop_encodeFrame op hres) hne hs₁ hpayload rfl (by simp)
    (maskPayload_length _ _ _).symm, hs₁]
  simp [afterFrame, useAnswers, returned, frameEvents, frameResults, hp, ← hs.2]

/-- A frame that is accepted and whose events are answered with success, presented as one span, runs to its end
(43_frame_opcodes.md R240). -/
theorem present_frame {s : State} {r : Regs} {f : Frame} {op : BitVec 4} (hs : s.Idle r)
    (hb : r.state = .opcodeByte) (hwf : f.wf = true) (hres : f.len.reserved = false)
    (hfrag : fragCheck f.fin (op.setWidth 8) r.continuationExpected = none) (hans : s.Answered (frameEvents f)) :
    present (encodeFrame op f) s = .next (afterFrame op f r s) := by
  by_cases hp : f.payload = []
  · exact present_frame_empty hs hb hwf hres hfrag (by simpa [frameEvents, hp] using hans) hp
  · exact present_frame_payload hs hb hwf hres hfrag (by simpa [frameEvents, hp] using hans) hp

/-- What the host is given of a whole frame. -/
theorem observed_frameResults (op : BitVec 4) (f : Frame) (ctx : Ctx) :
    observed (frameResults op f ctx) =
      (.header (frameHeader op f) ctx :: f.payload.map fun b => .byte b ctx) ++ [.frameComplete] := by
  by_cases hp : f.payload = []
  · simp [observed, frameResults, CallResult.obs, Event.obs, hp]
  · simp [observed, frameResults, CallResult.obs, Event.obs, hp]

theorem feedAll_singleton {s t : State} {r : Regs} {span : List Byte} (h : present span s = .next t)
    (hd : t.decoder = .decoding r) : feedAll [span] s = .next t := by
  simp only [feedAll, h, hd]

/-- The events of a frame are at most as many as its bytes. -/
theorem frameEvents_le (op : BitVec 4) {f : Frame} (hwf : f.wf = true) (hres : f.len.reserved = false) :
    frameEvents f ≤ (encodeFrame op f).length := by
  obtain ⟨hsize, hmin, -⟩ := frameSizeIsHeaderPlusPayload op f hwf hres
  have hev : frameEvents f ≤ 2 := by unfold frameEvents; split <;> decide
  omega

/-- Settles O51: a frame in one span runs to its end, and FEED of any other partition gives the same. -/
theorem roundTripThroughAnyPartition : Obligations.RoundTripThroughAnyPartition := by
  intro s r f op spans hs hr hb hwf hres hfrag hans hspans
  have hframe := present_frame hs hb hwf hres hfrag (hans.mono (frameEvents_le op hwf hres))
  have hwhole : [encodeFrame op f].flatten = encodeFrame op f := List.flatten_singleton
  obtain ⟨t, ht, hdec, hobs⟩ := partitionInvariance s _ r [encodeFrame op f] spans hs hr
    (by rw [hwhole]; exact hans) (hwhole.trans hspans.symm) (feedAll_singleton hframe rfl)
  refine ⟨t, ht, hdec, ?_⟩
  rw [hobs, afterFrame, observed_append, observed_frameResults, List.append_assoc]

end Sys2Proof.Machine
end

section
/-! The frame rows at a frame boundary (43_frame_opcodes.md R241 to R256): an accepted frame runs to its end, and byte 0
of any other raises `E_FRAG`. What `FragCheck` says of a row depends on the range its opcode is in (30_encoding.md
R98). -/

namespace Sys2Proof.Machine

/-! ### The opcode of a row in the register (30_encoding.md R98, R99) -/

theorem opcode_bit3_of_data {op : BitVec 4} (h : op ≤ 0x7) : (op.setWidth 8).getLsbD 3 = false := by
  revert op
  decide

theorem opcode_bit3_of_control {op : BitVec 4} (h : 0x8 ≤ op) : (op.setWidth 8).getLsbD 3 = true := by
  revert op
  decide

theorem opcode_ne_zero {op : BitVec 4} (h : 0x1 ≤ op) : op.setWidth 8 ≠ 0x0 := by
  revert op
  decide

/-! ### Frames that are accepted -/

/-- The row of an accepted frame whose events are answered with success. -/
theorem exec_frame_runs {s : State} {r : Regs} {f : Frame} {op : BitVec 4} {i : Instr} (hi : i = .ofOpcode op f)
    (hs : s.Idle r) (hb : r.state = .opcodeByte) (hwf : f.wf = true) (hres : f.len.reserved = false)
    (hans : s.Answered (frameEvents f)) (hfrag : fragCheck f.fin (op.setWidth 8) r.continuationExpected = none) :
    exec i s = .next (afterFrame op f r s) := by
  rw [hi, exec_ofOpcode]
  exact present_frame hs hb hwf hres hfrag hans

/-- Settles O40: inside a message `FragCheck` accepts opcode 0. -/
theorem continuationFrameRuns : Obligations.ContinuationFrameRuns := by
  intro s r f hs hb hwf hres hans hce
  refine exec_frame_runs (op := 0x0) rfl hs hb hwf hres hans ?_
  rw [hce, fragCheck_data_open f.fin (opcode_bit3_of_data (by decide))]
  rfl

/-- Settles O41: with no message open `FragCheck` accepts every data opcode but 0. -/
theorem startingDataFramesRun : Obligations.StartingDataFramesRun := by
  intro s r f op i hs hb hwf hres hans hce hi
  have hrow : i = .ofOpcode op f ∧ 0x1 ≤ op ∧ op ≤ 0x7 := by
    simp only [List.mem_cons, List.not_mem_nil, or_false, Prod.mk.injEq] at hi
    obtain ⟨rfl, rfl⟩ | ⟨rfl, rfl⟩ | ⟨rfl, rfl⟩ | ⟨rfl, rfl⟩ | ⟨rfl, rfl⟩ | ⟨rfl, rfl⟩ | ⟨rfl, rfl⟩ := hi <;>
      exact ⟨rfl, by decide, by decide⟩
  obtain ⟨hof, hpos, hdata⟩ := hrow
  refine exec_frame_runs hof hs hb hwf hres hans ?_
  rw [hce, fragCheck_data_closed f.fin (opcode_bit3_of_data hdata), if_neg (opcode_ne_zero hpos)]

/-- Settles O42: `FragCheck` accepts every final control frame. -/
theorem controlFramesRun : Obligations.ControlFramesRun := by
  intro s r f op i hs hb hwf hres hans hfin hi
  have hrow : i = .ofOpcode op f ∧ 0x8 ≤ op := by
    simp only [List.mem_cons, List.not_mem_nil, or_false, Prod.mk.injEq] at hi
    obtain ⟨rfl, rfl⟩ | ⟨rfl, rfl⟩ | ⟨rfl, rfl⟩ | ⟨rfl, rfl⟩ | ⟨rfl, rfl⟩ | ⟨rfl, rfl⟩ | ⟨rfl, rfl⟩ |
      ⟨rfl, rfl⟩ := hi <;> exact ⟨rfl, by decide⟩
  obtain ⟨hof, hctrl⟩ := hrow
  refine exec_frame_runs hof hs hb hwf hres hans ?_
  rw [hfin, fragCheck_control true _ (opcode_bit3_of_control hctrl), if_pos rfl]

/-! ### Frames that are not accepted -/

/-- A byte 0 that `FragCheck` does not accept is consumed and ends the call (40_header_states.md R131, decision D14). -/
theorem dispatch_byte0_raised {r : Regs} {c : Call} {fin : Bool} {rsv : Rsv} {op : BitVec 4} {rest : List Byte}
    {cause : FragCause} (k : Nat) (s : State) (hs : r.state = .opcodeByte)
    (hu : c.unread = encodeByte0 fin rsv op :: rest)
    (hf : fragCheck fin (op.setWidth 8) r.continuationExpected = some cause) :
    dispatch (k + 1) s r c = .next (failedWith (c.consumed + 1) c.event (.eFrag cause) s) := by
  have hbody : handlerBody .opcodeByte r c = .raised (.eFrag cause) (c.consume 1) := by
    apply opcodeByteBody_raised hu
    rw [← byte0Opcode_setWidth, byte0Fin_encodeByte0, byte0Opcode_encodeByte0]
    exact hf
  exact dispatch_ends_of_state k s hs hbody (by simp)

/-- The row of such a frame ends with its byte 0. -/
theorem exec_frame_misplaced {s : State} {r : Regs} {f : Frame} {op : BitVec 4} {cause : FragCause} (hs : s.Idle r)
    (hb : r.state = .opcodeByte) (hfrag : fragCheck f.fin (op.setWidth 8) r.continuationExpected = some cause) :
    exec (.ofOpcode op f) s = .next (failedWith 1 .none (.eFrag cause) s) := by
  rw [exec_ofOpcode]
  apply present_of_raised
  rw [processCall_idle hs]
  exact dispatch_byte0_raised 6 s hb (Call.start_unread _ _) hfrag

/-- Settles O43, by the range of the opcode. -/
theorem misplacedFramesRaiseEFrag : Obligations.MisplacedFramesRaiseEFrag := by
  intro s r f op hs hb
  refine ⟨fun hop hce => ?_, fun hpos hdata hce => ?_, fun hctrl hfin => ?_⟩ <;>
    apply exec_frame_misplaced hs hb
  · rw [hce, hop, fragCheck_data_closed f.fin (opcode_bit3_of_data (by decide))]
    rfl
  · rw [hce, fragCheck_data_open f.fin (opcode_bit3_of_data hdata), if_neg (opcode_ne_zero hpos)]
  · rw [hfin, fragCheck_control false _ (opcode_bit3_of_control hctrl)]
    rfl

end Sys2Proof.Machine
end

section
/-! FEED of a span against the steps that present it: each call of the one is a step of the other, whose host puts the
left-over bytes back at the head of CMD (42_process.md R213, 70_reset_and_hazards.md R317). -/

namespace Sys2Proof.Machine

/-! ### The host's side of a step -/

@[simp] theorem useAnswer_commands (t : State) : (useAnswer t).commands = t.commands := by
  unfold useAnswer
  split
  · rfl
  · split <;> rfl

theorem settle_of_leftover_nil {span : List Byte} {t : State} (h : leftover span t = []) :
    settle span t = useAnswer t := by
  simp only [settle, h]

theorem settle_of_leftover {span rest : List Byte} {t : State} (h : leftover span t = rest) (hne : rest ≠ []) :
    settle span t = (useAnswer t).setCommands (.process rest :: t.commands) := by
  cases rest with
  | nil => exact absurd rfl hne
  | cons b bs => simp only [settle, h]

/-- Commands that are put back are as if never replaced. -/
theorem State.setCommands_setCommands_of_eq {cs : List Command} {t : State} (cs' : List Command)
    (h : t.commands = cs) : (t.setCommands cs').setCommands cs = t := by
  subst h
  rfl

/-- A run goes on from where its first step leads. -/
theorem run_succ_of_step {s s' : State} (n : Nat) (h : step s = .next s') :
    Host.Core.run Sys2Proof.core (n + 1) s = Host.Core.run Sys2Proof.core n s' := by
  have hstep : Sys2Proof.core.step s = .next s' := h
  simp only [Host.Core.run, hstep]

/-! ### One call -/

/-- A call from registers that meet the invariant takes at least one of the bytes there are (42_process.md R211). -/
theorem Regs.Inv.consumed_pos {r : Regs} {span : List Byte} {cbs : CbStatus} {e : CallEnd} (h : r.Inv)
    (hne : span ≠ []) (he : callEnd r (Call.start span cbs) = .ok e) : 1 ≤ e.result.consumed := by
  obtain ⟨n, hn, htakes⟩ := callEnd_takes he
  have hpos := htakes.pos h.resting (by simpa using hne)
  omega

/-- Left-over bytes are fewer than those of the span, and the registers after the call that leaves them meet the
invariant. -/
theorem Regs.Inv.leftover_shorter {s : State} {r : Regs} {span rest : List Byte} {cbs : CbStatus} {e : CallEnd}
    (h : r.Inv) (hne : span ≠ []) (he : callEnd r (Call.start span cbs) = .ok e)
    (hinv : ∀ r', e.decoder = .decoding r' → r'.Inv) (hl : leftover span (s.ended e) = rest) (hrest : rest ≠ []) :
    rest.length < span.length ∧ ∃ r', e.decoder = .decoding r' ∧ r'.Inv := by
  have hpos := h.consumed_pos hne he
  have hspan := List.length_pos_iff.2 hne
  rw [leftover_ended span s he] at hl
  cases hd : e.decoder with
  | failed => exact absurd (hl.symm.trans (if_pos hd)) hrest
  | decoding r' =>
    rw [hd, if_neg (by simp)] at hl
    rw [← hl, List.length_drop]
    exact ⟨by omega, r', rfl, hinv r' hd⟩

/-! ### The run -/

/-- What FEED of a span ends in, the steps that present it end in, one step per call; by the number of calls FEED may
make. -/
theorem run_of_feed {k : Nat} {s t : State} {r : Regs} {span : List Byte} {rest : List Command} (hs : s.Idle r)
    (hr : r.Inv) (hne : span ≠ []) (hcmd : s.commands = .process span :: rest)
    (h : feed k span (s.setCommands rest) = .next t) :
    ∃ n, 1 ≤ n ∧ n ≤ span.length ∧ Host.Core.run Sys2Proof.core n s = .next t := by
  induction k generalizing s r span with
  | zero => cases h
  | succ k ih =>
    have hspan := List.length_pos_iff.2 hne
    obtain ⟨e, he, -, hinv, hcall⟩ := exec_process_next span (nextAnswer s) (s := s.setCommands rest) hs hr
    have hstep := step_of_process_next hs.2 hcmd hcall
    obtain ⟨more, hl⟩ : ∃ more, leftover span ((s.setCommands rest).ended e) = more := ⟨_, rfl⟩
    by_cases hmore : more = []
    · rw [hmore] at hl
      rw [feed_done hcall hl] at h
      rw [settle_of_leftover_nil hl] at hstep
      exact ⟨1, Nat.le_refl 1, hspan, (run_succ_of_step 0 hstep).trans h⟩
    · rw [feed_more hcall hl hmore] at h
      rw [settle_of_leftover hl hmore] at hstep
      obtain ⟨hlt, r', hd, hr'⟩ := hr.leftover_shorter hne he hinv hl hmore
      have hidle : ((useAnswer ((s.setCommands rest).ended e)).setCommands (.process more :: rest)).Idle r' :=
        ⟨(useAnswer_decoder _).trans hd, useAnswer_call _⟩
      have hback := State.setCommands_setCommands_of_eq (.process more :: rest)
        (useAnswer_commands ((s.setCommands rest).ended e))
      obtain ⟨n, hn, hle, hrun⟩ := ih hidle hr' hmore rfl (hback ▸ h)
      exact ⟨n + 1, by omega, by omega, (run_succ_of_step n hstep).trans hrun⟩

/-- Settles O35: the row is FEED of the frame's bytes. -/
theorem stepsRunTheDecodedFrame : Obligations.StepsRunTheDecodedFrame := by
  intro s t r op f rest hs hr _ hcmd h
  rw [exec_ofOpcode] at h
  have hne : encodeFrame op f ≠ [] := by simp [encodeFrame_eq]
  exact run_of_feed hs hr hne hcmd h

end Sys2Proof.Machine
end

section
/-! Failures (60_exceptions.md): how `mode` changes between two steps (R278 to R283), and a frame whose HEADER event the
host answers with one (R273, R278). -/

namespace Sys2Proof.Machine

/-! ### The mode after a step (60_exceptions.md R280, R283) -/

@[simp] theorem settle_decoder (span : List Byte) (t : State) : (settle span t).decoder = t.decoder := by
  unfold settle
  split <;> simp

@[simp] theorem settle_results (span : List Byte) (t : State) : (settle span t).results = t.results := by
  unfold settle
  split <;> simp

/-- A PROCESS that has a step between two calls is one in mode Decoding, and its call ends with the registers or Failed
(42_process.md R201, R210). -/
theorem exec_process_ends {s t : State} {span : List Byte} {cbs : CbStatus} (hc : s.call = none)
    (h : exec (.process span cbs) s = .next t) :
    s.mode = .decoding ∧
      ((∃ r' res, res.status = .ok ∧ t = returned r' res s) ∨ ∃ n ev e, t = failedWith n ev e s) := by
  cases hd : s.decoder with
  | failed =>
    rw [(processIsRefusedAfterFailure s span cbs 0).1 hd hc] at h
    cases h
  | decoding r =>
    rw [exec_process_idle ⟨hd, hc⟩] at h
    exact ⟨congrArg Decoder.mode hd, dispatch_next h⟩

/-- Settles O36, by the oldest command: none keeps the mode, RESET ends in Decoding, and a PROCESS begins there and
leaves it by `E(info)` alone. -/
theorem modeChangesByErrorOrReset : Obligations.ModeChangesByErrorOrReset := by
  intro s t hc h
  cases hcmd : s.commands with
  | nil =>
    rw [step_of_no_command hc hcmd] at h
    cases h
    exact ⟨fun hf hd => absurd (hf.symm.trans hd) (by decide), fun hd hf => absurd (hd.symm.trans hf) (by decide)⟩
  | cons cmd rest =>
    cases cmd with
    | reset ctx =>
      rw [step_of_reset hc hcmd, exec_reset_idle (s := s.setCommands rest) ctx hc] at h
      cases h
      exact ⟨fun _ _ => ⟨ctx, rest, rfl⟩, fun _ hf => nomatch hf⟩
    | process span =>
      obtain ⟨t', hx, rfl⟩ := step_process_cases hc hcmd h
      obtain ⟨hmode, hend⟩ := exec_process_ends (s := s.setCommands rest) hc hx
      refine ⟨fun hf => absurd (hf.symm.trans hmode) (by decide), fun _ hf => ?_⟩
      rw [State.mode, settle_decoder] at hf
      rw [settle_results]
      obtain ⟨r', res, -, rfl⟩ | ⟨n, ev, e, rfl⟩ := hend
      · cases hf
      · exact ⟨_, e, rfl, rfl⟩

/-! ### A HEADER event that is answered with a failure (60_exceptions.md R273, decision D18) -/

/-- From `S_LENGTH_BYTE` the rest of a whole header leads to `S_PAYLOAD_CHECK`, whatever the host will answer there. -/
theorem dispatch_to_payloadCheck {k : Nat} {s t : State} {r : Regs} {c : Call} {m : Bool} {len : LenField} {key : Key}
    {rest : List Byte} (hs : r.state = .lengthByte) (hwf : len.wf = true) (hres : len.reserved = false)
    (hkey : keyWf m len key = true) (hu : c.unread = encodeTail m len key ++ rest)
    (h : dispatch k s { headerRegs m len key r with state := .payloadCheck }
      (c.consume (encodeTail m len key).length) = .next t) :
    dispatch (k + 4) s r c = .next t := by
  cases m with
  | false =>
    obtain rfl : key = Key.zero := ((keyWf_iff false len key).1 hkey).resolve_left (by simp)
    rw [encodeTail_of_no_key _ (by simp)] at hu h
    apply dispatch_length hs hwf hres hu
    rw [dispatch_no_key]
    exact dispatch_succ h
  | true =>
    rw [encodeTail_of_key key (by simp [hres])] at hu h
    rw [List.append_assoc] at hu
    rw [List.length_append, Vector.length_toList, ← Call.consume_consume] at h
    have hukey : (c.consume (encodeLength true len).length).unread = key.toList ++ rest := by
      rw [Call.unread_consume, hu, List.drop_left]
    apply dispatch_length hs hwf hres hu
    rw [dispatch_await_key, dispatch_key hukey]
    exact h

/-- `S_PAYLOAD_CHECK` of a call whose event is answered with a failure (41_payload_states.md R170). -/
theorem dispatch_payloadCheck_fails {r : Regs} {c : Call} (k : Nat) (s : State) (hs : r.state = .payloadCheck)
    (hq : c.cbs ≠ 0) :
    dispatch (k + 1) s r c = .next (failedWith c.consumed (.header r.cur r.userCtx) (.eCallback c.cbs) s) :=
  dispatch_ends_of_state k s hs (payloadCheckBody_raised hq) (by simp)

/-- The call that takes the header of an accepted frame and whose HEADER event is answered with a failure. -/
theorem processCall_frame_header_fails {s : State} {r : Regs} {f : Frame} {op : BitVec 4} {q : CbStatus}
    (hs : s.Idle r) (hb : r.state = .opcodeByte) (hwf : f.wf = true) (hres : f.len.reserved = false) (hq : q ≠ 0)
    (hfrag : fragCheck f.fin (op.setWidth 8) r.continuationExpected = none) :
    processCall (encodeFrame op f) q s = .next (failedWith (headerBytes f.masked f.len)
      (.header (frameHeader op f) r.userCtx) (.eCallback q) s) := by
  obtain ⟨hlen, hkey, -⟩ := f.wf_iff.1 hwf
  rw [processCall_idle hs, encodeFrame_eq, show Config.maxHandlers = 1 + 1 + 4 + 1 from rfl,
    dispatch_byte0 _ s hb (Call.start_unread _ _) hfrag]
  apply dispatch_to_payloadCheck rfl hlen hres hkey (by rw [Call.unread_consume]; rfl)
  rw [dispatch_payloadCheck_fails 1 s rfl hq, ← frameHeaderRegs_cur op f r, ← encodeTail_length f.key hres,
    Call.consume_consume, Call.consume_consumed, Call.start_consumed, Nat.zero_add, Nat.add_comm]
  rfl

/-- FEED of a span whose first call raises an error after an event ends with that call; one answer is used up. -/
theorem present_of_raised_event {s : State} {span : List Byte} {n : Nat} {ev : Event} {e : DecodeError}
    (h : processCall span (nextAnswer s) s = .next (failedWith n ev e s)) (hev : ev ≠ .none) :
    present span s = .next (useAnswers 1 (failedWith n ev e s)) := by
  have hlast := lastResult_failedWith n ev e s
  rw [present, feed_done h (leftover_err hlast rfl), useAnswer_event hlast hev]

/-- Settles O45: the first call of the frame's FEED is the one that fails, and its payload is not presented again. -/
theorem failingHeaderCallbackEndsTheFrame : Obligations.FailingHeaderCallbackEndsTheFrame := by
  intro s r f op hs hb hwf hres hq hfrag
  rw [exec_ofOpcode]
  exact present_of_raised_event (processCall_frame_header_fails hs hb hwf hres hq hfrag) (by simp)

end Sys2Proof.Machine
end

section
/-! A table word placed for the next step (70_reset_and_hazards.md R310, logs 7 and 10). The word is byte 0 of a frame
without payload, and one call takes such a frame whole or ends at its byte 0: in neither case are there bytes to present
again, so the step that presents them is the frame row. -/

namespace Sys2Proof.Machine

/-! ### The frame a word stands for (30_encoding.md R91) -/

/-- The frame that begins with this byte 0 and goes on with zeros: unmasked, and without payload. -/
def byte0Frame (b : Byte) : Frame := ⟨byte0Fin b, byte0Rsv b, false, .len7 0, Key.zero, []⟩

theorem byte0Frame_wf (b : Byte) : (byte0Frame b).wf = true := rfl

theorem encodeFrame_byte0Frame (b : Byte) : encodeFrame (byte0Opcode b) (byte0Frame b) = [b, 0] := by
  have hbyte1 : encodeTail false (.len7 0) Key.zero = [0] := by decide
  rw [encodeFrame_eq, byte0Frame, encodeByte0_fields, hbyte1]
  rfl

theorem tableStream_byte0 (w : Nat) :
    tableStream 8 w =
      encodeFrame (byte0Opcode (BitVec.ofNat 8 w)) (byte0Frame (BitVec.ofNat 8 w)) ++ List.replicate 138 0 := by
  rw [encodeFrame_byte0Frame]
  rfl

theorem decode_tableStream_byte0 (w : Nat) :
    decode (tableFormat 8) (tableStream 8 w) =
      .ok (.ofOpcode (byte0Opcode (BitVec.ofNat 8 w)) (byte0Frame (BitVec.ofNat 8 w))) (List.replicate 138 0) := by
  rw [tableStream_byte0]
  exact decodeFrame_encodeFrame _ _ _ (byte0Frame_wf _)

theorem decodeTableWord_byte0 (w : Nat) :
    decodeTableWord 8 w = some (.ofOpcode (byte0Opcode (BitVec.ofNat 8 w)) (byte0Frame (BitVec.ofNat 8 w))) := by
  simp only [decodeTableWord, decode_tableStream_byte0]

theorem tableInstrBytes_byte0 (w : Nat) :
    tableInstrBytes 8 w = encodeFrame (byte0Opcode (BitVec.ofNat 8 w)) (byte0Frame (BitVec.ofNat 8 w)) := by
  simp only [tableInstrBytes, decode_tableStream_byte0]
  rw [tableStream_byte0, List.length_append, Nat.add_sub_cancel, List.take_left]

theorem withFetchWord_byte0 (s : State) (w : Nat) :
    s.withFetchWord 8 w =
      placeFrame (encodeFrame (byte0Opcode (BitVec.ofNat 8 w)) (byte0Frame (BitVec.ofNat 8 w))) s := by
  rw [← tableInstrBytes_byte0]
  rfl

/-! ### A call that leaves nothing over -/

/-- A step whose call leaves nothing over is FEED of its span. -/
theorem step_eq_present {s t : State} {span : List Byte} {rest : List Command} (hc : s.call = none)
    (hcmd : s.commands = .process span :: rest)
    (h : processCall span (nextAnswer s) (s.setCommands rest) = .next t) (hl : leftover span t = []) :
    step s = present span (s.setCommands rest) := by
  rw [step_of_process_next hc hcmd h, settle_of_leftover_nil hl]
  exact (feed_done h hl).symm

/-- The call on a frame without payload leaves nothing over: it takes the whole header, or ends with `E_FRAG`. -/
theorem processCall_frame_empty {s : State} {r : Regs} {f : Frame} (op : BitVec 4) (hs : s.Idle r)
    (hb : r.state = .opcodeByte) (hwf : f.wf = true) (hres : f.len.reserved = false) (hp : f.payload = []) :
    ∃ t, processCall (encodeFrame op f) 0 s = .next t ∧ leftover (encodeFrame op f) t = [] := by
  cases hfrag : fragCheck f.fin (op.setWidth 8) r.continuationExpected with
  | none =>
    refine ⟨_, processCall_frame_header hs hb hwf hres hfrag, ?_⟩
    rw [leftover_ok (lastResult_returned _ _ _) rfl]
    refine (drop_encodeFrame op hres).trans (List.length_eq_zero_iff.1 ?_)
    rw [maskPayload_length, hp, List.length_nil]
  | some cause =>
    refine ⟨_, ?_, leftover_err (lastResult_failedWith 1 .none (.eFrag cause) s) rfl⟩
    rw [processCall_idle hs]
    exact dispatch_byte0_raised 6 s hb (Call.start_unread _ _) hfrag

/-- The step after a frame without payload is placed is the frame's row, with the placed command used up. -/
theorem step_placeFrame_empty (s : State) {f : Frame} (op : BitVec 4) (hwf : f.wf = true)
    (hres : f.len.reserved = false) (hp : f.payload = []) :
    step (placeFrame (encodeFrame op f) s) =
      exec (.ofOpcode op f) ((placeFrame (encodeFrame op f) s).setCommands s.commands) := by
  have hboundary : (regsAt .opcodeByte s.decoder).state = .opcodeByte := by cases s.decoder <;> rfl
  obtain ⟨t, hcall, hl⟩ := processCall_frame_empty op
    (s := (placeFrame (encodeFrame op f) s).setCommands s.commands) ⟨rfl, rfl⟩ hboundary hwf hres hp
  rw [exec_ofOpcode]
  exact step_eq_present rfl rfl hcall hl

/-- Settles O34: the word is byte 0 of a frame without payload. -/
theorem stepRunsTheFetchedWord : Obligations.StepRunsTheFetchedWord := by
  intro s r w _ _
  refine ⟨_, decodeTableWord_byte0 w, ?_⟩
  rw [withFetchWord_byte0]
  exact step_placeFrame_empty s _ (byte0Frame_wf _) rfl rfl

end Sys2Proof.Machine
end
